-- ==== Sys2Proof/Word.lean ====
section
/-! DEFINITION. The words of the engine (00_scope.md R10): every value is unsigned, bit 0 is the least significant bit. -/

namespace Sys2Proof

/-- A Data Bus Word: 16 bits, one per data line (00_scope.md R8, R15). -/
abbrev Word := BitVec 16

/-- One byte of the Identify Buffer (10_state.md R31). -/
abbrev Byte := BitVec 8

/-- A Register Index, 0..7 (10_state.md R34). -/
abbrev RegIdx := BitVec 3

/-- A host request word, or the word of a response (30_encoding.md R85, R92). -/
abbrev Word32 := BitVec 32

end Sys2Proof
end

