-- ==== Sys2Proof/Syntax.lean ====
section
/-! DEFINITION. The requests of the engine: one constructor per row of spec/opcode_table.json (30_encoding.md R86). -/

namespace Sys2Proof

/-- The four legal requests (30_encoding.md R86, R91). An illegal word is no request: the decoder answers none. -/
inductive Instr where
  /-- RDREG: read the drive register `reg` (41_register_access.md R135). -/
  | rdreg (reg : RegIdx)
  /-- WRREG: write `value` to the drive register `reg` (41_register_access.md R136). -/
  | wrreg (reg : RegIdx) (value : Word)
  /-- IDENT.FIX: IDENTIFY DEVICE with the fixed 1-second wait (42_identify.md R166). -/
  | identFix
  /-- IDENT.POLL: IDENTIFY DEVICE with busy polling (42_identify.md R167). -/
  | identPoll
deriving DecidableEq, Repr

end Sys2Proof
end

