-- ==== Sys2Proof/Syntax/Asm.lean ====
section
/-! DEFINITION. The textual form of a request as a term (30_encoding.md R95, R96, R98). -/

namespace Sys2Proof

/-- The register names of the assembler (30_encoding.md R96). -/
inductive RegName where
  | data | error | feature | seccnt | lba0 | lba1 | lba2 | lba3 | status | command
deriving DecidableEq, Repr

/-- The operand `<reg>`: a number or a register name (30_encoding.md R95). -/
inductive AsmReg where
  | number (n : Nat)
  | name (r : RegName)
deriving DecidableEq, Repr

/-- One line of assembly: the four requests and the pseudo-instructions IDENT and DUMP (30_encoding.md R95, R98). -/
inductive AsmLine where
  | rdreg (reg : AsmReg)
  | wrreg (reg : AsmReg) (value : Nat)
  | identFix
  | identPoll
  | ident
  | dump
deriving DecidableEq, Repr

end Sys2Proof
end

