-- ==== Sys2Proof/WellFormed.lean ====
section
/-! DEFINITION. The fields of a request word, when they are legal (30_encoding.md R90), and when a line of assembly is
in range (30_encoding.md R95). -/

namespace Sys2Proof

/-- The fields of a request word (30_encoding.md R85). -/
structure ReqFields where
  /-- bits 1:0 -/
  op : BitVec 2
  /-- bits 4:2 -/
  reg : BitVec 3
  /-- bit 5 -/
  mode : BitVec 1
  /-- bits 15:6 -/
  rsv : BitVec 10
  /-- bits 31:16 -/
  value : BitVec 16
deriving DecidableEq, Repr

/-- Legal fields: none of the five conditions of 30_encoding.md R90 holds, in the order in which R90 lists them. -/
def ReqFields.wellFormed (f : ReqFields) : Bool :=
  !(f.op == 0b11)
  && f.rsv == 0
  && !((f.op == 0b00 || f.op == 0b01) && f.mode == 1)
  && !(f.op == 0b00 && !(f.value == 0))
  && !(f.op == 0b10 && (!(f.reg == 0) || !(f.value == 0)))

/-- The fields a request is written with (30_encoding.md R86 to R89). -/
def Instr.fields : Instr → ReqFields
  | .rdreg reg => { op := 0b00, reg := reg, mode := 0, rsv := 0, value := 0 }
  | .wrreg reg value => { op := 0b01, reg := reg, mode := 0, rsv := 0, value := value }
  | .identFix => { op := 0b10, reg := 0, mode := 0, rsv := 0, value := 0 }
  | .identPoll => { op := 0b10, reg := 0, mode := 1, rsv := 0, value := 0 }

/-- A request is well formed if its fields are legal. The operand types have the widths of the fields, so every
request is (30_encoding.md R87, R89). -/
def Instr.wellFormed (i : Instr) : Bool := i.fields.wellFormed

/-- A register operand in range: a name, or a number 0..7 (30_encoding.md R95). -/
def AsmReg.wellFormed : AsmReg → Bool
  | .number n => n ≤ 7
  | .name _ => true

/-- A line whose numbers are in range; a number out of range is an assembly error, not an illegal request
(30_encoding.md R95). -/
def AsmLine.wellFormed : AsmLine → Bool
  | .rdreg reg => reg.wellFormed
  | .wrreg reg value => reg.wellFormed && decide (value ≤ 0xFFFF)
  | .identFix => true
  | .identPoll => true
  | .ident => true
  | .dump => true

end Sys2Proof
end

