-- ==== Sys2Proof/Decode.lean ====
section
/-! DEFINITION. From request words to requests and back (30_encoding.md R85 to R91, R97), and the assembler
(30_encoding.md R95, R96, R98). -/

namespace Sys2Proof

/-! ## The decoder -/

/-- The fields of a request word (30_encoding.md R85). -/
def fieldsOf (w : Word32) : ReqFields :=
  { op := w.extractLsb' 0 2
    reg := w.extractLsb' 2 3
    mode := w.extractLsb' 5 1
    rsv := w.extractLsb' 6 10
    value := w.extractLsb' 16 16 }

/-- The request that fields stand for: the pseudocode of 30_encoding.md R91, test by test. -/
def decodeFields (f : ReqFields) : Option Instr :=
  if f.rsv ≠ 0 then none
  else if f.op = 0b00 ∧ f.mode = 0 ∧ f.value = 0 then some (.rdreg f.reg)
  else if f.op = 0b01 ∧ f.mode = 0 then some (.wrreg f.reg f.value)
  else if f.op = 0b10 ∧ f.reg = 0 ∧ f.value = 0 then
    some (if f.mode = 0 then .identFix else .identPoll)
  else none

/-- `decode` of 30_encoding.md R91, total on 32-bit words; `none` is ILLEGAL (R90). -/
def decode (w : Word32) : Option Instr := decodeFields (fieldsOf w)

/-! ## The encoder -/

/-- The word with the given fields: `VALUE`, reserved, `MODE`, `REG`, `OP` from the high end (30_encoding.md R85, R97). -/
def ReqFields.word (f : ReqFields) : Word32 :=
  f.value ++ f.rsv ++ f.mode ++ f.reg ++ f.op

/-- The request word of a request (30_encoding.md R97). -/
def encode (i : Instr) : Word32 := i.fields.word

/-- The decoder on a row of spec/opcode_table.json: one 32-bit word, whose bits above `nbits` are zero. A request word is
transferred as one value and has no byte order (20_memory.md R70). -/
def decodeTableWord (nbits w : Nat) : Option Instr :=
  decode (BitVec.ofNat 32 (w % 2 ^ nbits))

/-! ## The assembler -/

/-- The index a register name stands for (30_encoding.md R96). -/
def RegName.index : RegName → RegIdx
  | .data => 0
  | .error => 1
  | .feature => 1
  | .seccnt => 2
  | .lba0 => 3
  | .lba1 => 4
  | .lba2 => 5
  | .lba3 => 6
  | .status => 7
  | .command => 7

/-- The index of a register operand (30_encoding.md R95, R96). -/
def AsmReg.index : AsmReg → RegIdx
  | .number n => BitVec.ofNat 3 n
  | .name r => r.index

/-- The requests a line stands for: one, or the eight of DUMP in index order (30_encoding.md R95, R98). -/
def AsmLine.requests : AsmLine → List Instr
  | .rdreg reg => [.rdreg reg.index]
  | .wrreg reg value => [.wrreg reg.index (BitVec.ofNat 16 value)]
  | .identFix => [.identFix]
  | .identPoll => [.identPoll]
  | .ident => [.identFix]
  | .dump => [.rdreg 0, .rdreg 1, .rdreg 2, .rdreg 3, .rdreg 4, .rdreg 5, .rdreg 6, .rdreg 7]

/-- Assembling a line: its words, or `none` for an assembly error (30_encoding.md R95, R97, R98). -/
def assemble (l : AsmLine) : Option (List Word32) :=
  if l.wellFormed then some (l.requests.map encode) else none

/-! ### Reading the text of a line (30_encoding.md R95, R96) -/

/-- A line up to its comment: everything from `;` on is dropped. -/
def dropComment : List Char → List Char
  | [] => []
  | c :: cs => if c = ';' then [] else c :: dropComment cs

/-- Ends the token being collected, if there is one. -/
def flushToken (tok : List Char) (toks : List (List Char)) : List (List Char) :=
  match tok with
  | [] => toks
  | c :: cs => (c :: cs) :: toks

/-- One character, read from the right: blanks separate tokens and a comma is a token of its own. -/
def lexChar (c : Char) (acc : List Char × List (List Char)) : List Char × List (List Char) :=
  if c = ' ' ∨ c = '\t' then ([], flushToken acc.1 acc.2)
  else if c = ',' then ([], [','] :: flushToken acc.1 acc.2)
  else (c :: acc.1, acc.2)

/-- The tokens of a line. -/
def tokens (line : List Char) : List (List Char) :=
  let acc := (dropComment line).foldr lexChar ([], [])
  flushToken acc.1 acc.2

/-- The value of a digit below ten. -/
def decDigit (c : Char) : Option Nat :=
  if '0' ≤ c ∧ c ≤ '9' then some (c.toNat - '0'.toNat) else none

/-- The value of a hexadecimal digit. -/
def hexDigit (c : Char) : Option Nat :=
  if '0' ≤ c ∧ c ≤ '9' then some (c.toNat - '0'.toNat)
  else if 'a' ≤ c ∧ c ≤ 'f' then some (c.toNat - 'a'.toNat + 10)
  else if 'A' ≤ c ∧ c ≤ 'F' then some (c.toNat - 'A'.toNat + 10)
  else none

/-- The number that digits in a base stand for, most significant digit first. -/
def digitsVal (digit : Char → Option Nat) (base : Nat) : Nat → List Char → Option Nat
  | acc, [] => some acc
  | acc, c :: cs =>
    match digit c with
    | some v => digitsVal digit base (acc * base + v) cs
    | none => none

/-- A number: decimal, or hexadecimal after `0x`. -/
def readNumber : List Char → Option Nat
  | [] => none
  | ['0', 'x'] => none
  | '0' :: 'x' :: cs => digitsVal hexDigit 16 0 cs
  | cs => digitsVal decDigit 10 0 cs

/-- A register name (30_encoding.md R96). -/
def readRegName (t : List Char) : Option RegName :=
  if t = ['D', 'A', 'T', 'A'] then some .data
  else if t = ['E', 'R', 'R', 'O', 'R'] then some .error
  else if t = ['F', 'E', 'A', 'T', 'U', 'R', 'E'] then some .feature
  else if t = ['S', 'E', 'C', 'C', 'N', 'T'] then some .seccnt
  else if t = ['L', 'B', 'A', '0'] then some .lba0
  else if t = ['L', 'B', 'A', '1'] then some .lba1
  else if t = ['L', 'B', 'A', '2'] then some .lba2
  else if t = ['L', 'B', 'A', '3'] then some .lba3
  else if t = ['S', 'T', 'A', 'T', 'U', 'S'] then some .status
  else if t = ['C', 'O', 'M', 'M', 'A', 'N', 'D'] then some .command
  else none

/-- A register operand: a number, else a name. DESIGN CHOICE (log 23): the number may be written in decimal or in `0x`
hexadecimal. 30_encoding.md R95 names the two bases for `<value>` only and none for `<reg>`. -/
def readReg (t : List Char) : Option AsmReg :=
  match readNumber t with
  | some n => some (.number n)
  | none => (readRegName t).map .name

/-- A line of assembly from its tokens. -/
def parseTokens : List (List Char) → Option AsmLine
  | [m] =>
    if m = ['I', 'D', 'E', 'N', 'T', '.', 'F', 'I', 'X'] then some .identFix
    else if m = ['I', 'D', 'E', 'N', 'T', '.', 'P', 'O', 'L', 'L'] then some .identPoll
    else if m = ['I', 'D', 'E', 'N', 'T'] then some .ident
    else if m = ['D', 'U', 'M', 'P'] then some .dump
    else none
  | [m, r] =>
    if m = ['R', 'D', 'R', 'E', 'G'] then (readReg r).map .rdreg else none
  | [m, r, comma, v] =>
    if m = ['W', 'R', 'R', 'E', 'G'] ∧ comma = [','] then
      match readReg r, readNumber v with
      | some reg, some value => some (.wrreg reg value)
      | _, _ => none
    else none
  | _ => none

/-- A line of assembly from its characters; `none` where the line is no request. -/
def parseLine (line : List Char) : Option AsmLine := parseTokens (tokens line)

end Sys2Proof
end

