-- ==== Sys2Proof/Config.lean ====
section
/-! DEFINITION. What an implementation of the engine fixes (00_scope.md R8): the open parameters, the platform's lines and
claims, what the environment settles, and the free values, which are opaque. The fixed values stand in
Machine/Operands.lean. -/

namespace Sys2Proof

/-- The adapter's error values: an OPEN type of the spec (00_scope.md R8). The engine only carries a value, it never
looks at one. DESIGN CHOICE (log 5): a tag stands for the value. -/
structure AdapterError where
  tag : Nat
deriving DecidableEq, Repr

/-- The state of an output line (00_scope.md R11): 0, 1, or unknown. -/
inductive Tri where
  | zero | one | u
deriving DecidableEq, Repr

/-- The drive state of a data line (00_scope.md R11): not driven, driven at a level, or unknown. -/
inductive DState where
  | input | out0 | out1 | u
deriving DecidableEq, Repr

/-- The state of every line (10_state.md R32). Entry `i` of a group is line `i` (20_memory.md R64). -/
structure Lines where
  cs : Vector Tri 2
  ad : Vector Tri 3
  sr : Tri
  sw : Tri
  d : Vector DState 16
  led : Vector Tri 4
  rst : Tri
deriving DecidableEq, Repr

/-- The default of `PLAT_INIT`: every line unknown (00_scope.md R8). -/
def Lines.allUnknown : Lines :=
  { cs := Vector.replicate 2 .u, ad := Vector.replicate 3 .u, sr := .u, sw := .u
    d := Vector.replicate 16 .u, led := Vector.replicate 4 .u, rst := .u }

/-- The seven roles of the Bus Configuration, in the order in which they are checked
(20_memory.md R63, 70_reset_and_hazards.md R221, R222). -/
inductive Role where
  | led | databus | chipSelect | address | reset | strobeRead | strobeWrite
deriving DecidableEq, Repr

/-- What the platform reports of one role: whether its group was claimed, and how many lines it has
(70_reset_and_hazards.md R221). -/
structure RoleClaim where
  claimed : Bool
  lines : Nat
deriving DecidableEq, Repr

/-- `GROUP_CLAIM`: the platform's report on every role (00_scope.md R8). -/
structure GroupClaim where
  led : RoleClaim
  databus : RoleClaim
  chipSelect : RoleClaim
  address : RoleClaim
  reset : RoleClaim
  strobeRead : RoleClaim
  strobeWrite : RoleClaim
deriving DecidableEq, Repr

/-- The open parameters that stay fixed for the machine (00_scope.md R8). -/
structure Params where
  /-- POLL_MAX_READS -/
  pollMaxReads : Nat
  /-- POLL_SLEEP_MIN_US -/
  pollSleepMinUs : Nat
  /-- POLL_SLEEP_MAX_US -/
  pollSleepMaxUs : Nat
  /-- IDENT_DELAY_MAX_US -/
  identDelayMaxUs : Nat
  /-- PLAT_INIT -/
  platInit : Lines
deriving DecidableEq, Repr

/-- The ranges 00_scope.md R8 gives the open parameters. -/
def Params.wf (p : Params) : Bool :=
  decide (1 ≤ p.pollMaxReads) && decide (p.pollSleepMinUs ≤ p.pollSleepMaxUs)
    && decide (1000000 ≤ p.identDelayMaxUs)

/-- What the environment settles for one primitive (40_bus_primitives.md R101): an error, or success with the word that
a `GetLines` then answers. Every value of this type gives a legal answer to every primitive (30_encoding.md R94). -/
structure Draw where
  err : Option AdapterError
  word : Word
deriving DecidableEq, Repr

/-! The free values: nothing in Lean can evaluate them, so a claim about them holds whatever they are. -/

/-- The environment's answer to a primitive when none stands in `State.answers`, by the number of the draw; `none` is an
environment that never answers (40_bus_primitives.md R101, 60_exceptions.md R215; log 4). -/
opaque Config.envAnswer : Nat → Option Draw

/-- An unspecified value of `w` bits, by the number of the draw (10_state.md R40; log 10). -/
opaque Config.freeBits : (w : Nat) → Nat → BitVec w

/-- An unspecified adapter error or none, by the number of the draw (10_state.md R40; log 10). -/
opaque Config.freeError : Nat → Option AdapterError

/-- The byte a host reads at an offset that nothing has written (10_state.md R40; log 11). -/
opaque Config.idbufInit : Nat → Byte

/-- The byte a host reads while the engine is BUSY: a fresh draw for each read, by the number of the host's read, how many
events the run has had, and the offset (20_memory.md R67, 70_reset_and_hazards.md R234; log 12). -/
opaque Config.busyByte : (read events offset : Nat) → Byte

/-- POLL_MAX_READS less one (00_scope.md R8; log 6). -/
opaque Config.pollReadsBeyondOne : Nat
/-- POLL_SLEEP_MIN_US (00_scope.md R8; log 6). -/
opaque Config.pollSleepMin : Nat
/-- POLL_SLEEP_MAX_US less POLL_SLEEP_MIN_US (00_scope.md R8; log 6). -/
opaque Config.pollSleepSpread : Nat
/-- IDENT_DELAY_MAX_US less 1 000 000 (00_scope.md R8; log 6). -/
opaque Config.identDelaySpread : Nat
/-- Whether the platform claimed the group of a role at the first start (00_scope.md R8; log 8). -/
opaque Config.groupClaimed : Role → Bool
/-- How many lines the platform provides for a role at the first start (00_scope.md R8; log 8). -/
opaque Config.groupLines : Role → Nat

/-- The parameters of the machine at the first start: any values in the ranges of 00_scope.md R8, with `PLAT_INIT` at
its default. -/
def Config.params : Params :=
  { pollMaxReads := Config.pollReadsBeyondOne + 1
    pollSleepMinUs := Config.pollSleepMin
    pollSleepMaxUs := Config.pollSleepMin + Config.pollSleepSpread
    identDelayMaxUs := 1000000 + Config.identDelaySpread
    platInit := Lines.allUnknown }

/-- `GROUP_CLAIM` at the first start: any report of the platform. -/
def Config.groupClaim : GroupClaim :=
  { led := ⟨Config.groupClaimed .led, Config.groupLines .led⟩
    databus := ⟨Config.groupClaimed .databus, Config.groupLines .databus⟩
    chipSelect := ⟨Config.groupClaimed .chipSelect, Config.groupLines .chipSelect⟩
    address := ⟨Config.groupClaimed .address, Config.groupLines .address⟩
    reset := ⟨Config.groupClaimed .reset, Config.groupLines .reset⟩
    strobeRead := ⟨Config.groupClaimed .strobeRead, Config.groupLines .strobeRead⟩
    strobeWrite := ⟨Config.groupClaimed .strobeWrite, Config.groupLines .strobeWrite⟩ }

end Sys2Proof
end

