-- ==== Sys2Proof/Machine/State.lean ====
section
/-! DEFINITION. The state of the machine: the engine's registers (10_state.md R20 to R31), the lines (R32), the trace
(00_scope.md R14), the parameters, and what host, platform and environment still have to do; the state after reset
(10_state.md R40); and the reasons a step can stop. -/

namespace Sys2Proof.Machine

/-- The values of `E.ES` (10_state.md R21). -/
inductive EngineState where
  | uninit | cfgfail | idle | busy
deriving DecidableEq, Repr

/-- The values of `E.SEQ` (10_state.md R29). -/
inductive Stage where
  | none | selectDrive | clearParams | issueCommand | checkPresence | awaitDataReady | burstRead
deriving DecidableEq, Repr

/-- The values of `E.RAPOP` (10_state.md R30). -/
inductive RapOp where
  | none | select | read | write
deriving DecidableEq, Repr

/-- `E.REQ`, the request being served (10_state.md R20, R23). -/
structure Req where
  op : BitVec 2
  reg : RegIdx
  mode : BitVec 1
  value : Word
deriving DecidableEq, Repr

/-- `E.RSP`, a response (10_state.md R20, R24). -/
structure Response where
  code : BitVec 4
  value : Word
  errv : Option AdapterError
deriving DecidableEq, Repr

/-- The operand of a `SetLines`: a group the engine drives and a value of its width (30_encoding.md R94). No value of
this type names LED or RST. -/
inductive GroupWrite where
  | cs (v : BitVec 2)
  | ad (v : BitVec 3)
  | sr (v : BitVec 1)
  | sw (v : BitVec 1)
deriving DecidableEq, Repr

/-- The direction operand of a `SetDir` (40_bus_primitives.md R107). -/
inductive DirCmd where
  | input
  | output (level : Bool)
deriving DecidableEq, Repr

/-- The event of a primitive (30_encoding.md R94). -/
inductive Event where
  | setLines (g : GroupWrite)
  | getLines
  | setDir (line : BitVec 4) (d : DirCmd)
  | sleep (minUs maxUs : Nat)
deriving DecidableEq, Repr

/-- The environment's answer to an event (30_encoding.md R94). -/
inductive Answer where
  | ok
  | okv (w : Word)
  | err (e : AdapterError)
  | done
deriving DecidableEq, Repr

/-- One entry of the trace: a primitive event and its answer (00_scope.md R14). -/
structure TraceEntry where
  event : Event
  answer : Answer
deriving DecidableEq, Repr

/-- What can arrive from outside the engine (60_exceptions.md R203): a request word that the host submits, and a reinit
of the platform with what it then reports of the line groups (70_reset_and_hazards.md R220, R221). -/
inductive Move where
  | submit (w : Word32)
  | reinit (claim : GroupClaim)
deriving DecidableEq, Repr

/-- The state of the machine. -/
structure State where
  /-- `E.ES` (10_state.md R21) -/
  es : EngineState
  /-- `E.REQ` (10_state.md R23) -/
  req : Req
  /-- `E.RSP` (10_state.md R24) -/
  rsp : Response
  /-- `E.RSP_VALID` (10_state.md R25) -/
  rspValid : Bool
  /-- `E.BI` (10_state.md R26) -/
  bi : Bool
  /-- `E.STW` (10_state.md R27) -/
  stw : Word
  /-- `E.K` (10_state.md R28) -/
  k : BitVec 2
  /-- `E.WC` (10_state.md R28) -/
  wc : BitVec 9
  /-- `E.NP` (10_state.md R28) -/
  np : Nat
  /-- `E.SEQ` (10_state.md R29) -/
  seq : Stage
  /-- `E.RAPOP` (10_state.md R30; log 15) -/
  rapop : RapOp
  /-- `E.RSTEP` (10_state.md R30). Steps S1, S2 of SELECT are 1, 2; steps of READ are their numbers; of WRITE, 3a to 3d
  are 31 to 34 (log 15). -/
  rstep : Nat
  /-- `E.J` (10_state.md R30) -/
  j : BitVec 4
  /-- `E.SAMPLE` (10_state.md R30) -/
  sample : Word
  /-- `E.PERR` (10_state.md R30; log 17) -/
  perr : Option AdapterError
  /-- `E.CFGERR` (10_state.md R21, 70_reset_and_hazards.md R222) -/
  cfgerr : Option Role
  /-- `E.IDBUF` (10_state.md R31): the bytes written so far, offsets strictly rising. An offset not listed has not been
  written (log 11). -/
  idbuf : List Host.Cell
  /-- `L`: the state of every line (10_state.md R32) -/
  lines : Lines
  /-- The trace of the run, oldest event first (00_scope.md R14, 60_exceptions.md R209) -/
  trace : List TraceEntry
  /-- The REFUSED mark (60_exceptions.md R196) -/
  refused : Bool
  /-- The open parameters (00_scope.md R8); no step changes them. -/
  params : Params
  /-- `GROUP_CLAIM` as the platform last reported it (70_reset_and_hazards.md R221) -/
  claim : GroupClaim
  /-- The model's own (log 1): the response that the next engine step delivers. -/
  due : Option Response
  /-- The model's own (log 3): the moves host and platform still have to make, the next one first. -/
  inbox : List Move
  /-- The model's own (log 4): answers of the environment already settled, the next one first; `none` is an environment
  that never answers. -/
  answers : List (Option Draw)
  /-- The model's own (log 10): how many free values have been drawn. -/
  draws : Nat
  /-- The model's own (log 20): the length of the trace when the request in service was accepted. -/
  traceMark : Nat
deriving DecidableEq, Repr

/-- Why the machine stops with a fault. -/
inductive Fault where
  /-- Raised by a request's meaning in a BUSY state whose position (`E.SEQ`, `E.RAPOP`, `E.RSTEP`, `E.WC`) is none of the
  sequences of 41_register_access.md and 42_identify.md. No run reaches such a state (10_state.md R39). Safe (log 19). -/
  | strayPosition
deriving DecidableEq, Repr

/-- Why a step is refused. -/
inductive Refusal where
  /-- No meaning has been given to the instruction yet. Raised by no arm of this model. Safe. -/
  | notModelled (mnemonic : String)
  /-- Raised by every step of a run whose REFUSED mark is set: the host submitted a request while `E.BI` = 1, and the
  spec gives no meaning to what follows (60_exceptions.md R196). Safe (log 13). -/
  | requestAfterBusError
deriving DecidableEq, Repr

/-- The machine right after reset: the values of 10_state.md R40 before the configuration check, which the first step
runs (log 9). `E.REQ`, `E.RSP` and `E.SAMPLE` are unspecified there: the free values of draws 0 to 7 (log 10). -/
def State.reset : State :=
  { es := .uninit
    req := { op := Config.freeBits 2 0, reg := Config.freeBits 3 1, mode := Config.freeBits 1 2
             value := Config.freeBits 16 3 }
    rsp := { code := Config.freeBits 4 4, value := Config.freeBits 16 5, errv := Config.freeError 6 }
    rspValid := false
    bi := false
    stw := 0x0000
    k := 0
    wc := 0
    np := 0
    seq := .none
    rapop := .none
    rstep := 0
    j := 0
    sample := Config.freeBits 16 7
    perr := none
    cfgerr := none
    idbuf := []
    lines := Config.params.platInit
    trace := []
    refused := false
    params := Config.params
    claim := Config.groupClaim
    due := none
    inbox := []
    answers := []
    draws := 8
    traceMark := 0 }

end Sys2Proof.Machine
end

