-- ==== Sys2Proof/Machine/Operands.lean ====
section
/-! DEFINITION. The operand forms: the fixed values (00_scope.md R8), the fields of a latched request (30_encoding.md
R87 to R89), and how bits stand for line levels (20_memory.md R64). -/

namespace Sys2Proof.Machine

/-! ## Fixed values (00_scope.md R8) -/

/-- `CS_VALUE` (20_memory.md R62). -/
def csValue : BitVec 2 := 0b01
/-- `DEV_SELECT_VALUE` (42_identify.md R151). -/
def devSelectValue : Word := 0x00A0
/-- `CLEAR_VALUE` (42_identify.md R152). -/
def clearValue : Word := 0x0000
/-- `IDENTIFY_OPCODE` (42_identify.md R153). -/
def identifyOpcode : Word := 0x00EC
/-- Register Index of Data (10_state.md R34). -/
def regData : RegIdx := 0
/-- Register Index of LBA3 (10_state.md R34). -/
def regLba3 : RegIdx := 6
/-- Register Index of Status and Command (10_state.md R34). -/
def regStatus : RegIdx := 7
/-- The register that CLEAR_PARAMS clears at index `k`: 2 + k (10_state.md R28, 42_identify.md R152). -/
def clearReg (k : BitVec 2) : RegIdx := 2 + k.setWidth 3
/-- A strobe asserted is logical 1, deasserted logical 0 (41_register_access.md R125, R130, 91_not_in_source.md N8). -/
def strobeOn : BitVec 1 := 1
/-- A strobe deasserted. -/
def strobeOff : BitVec 1 := 0
/-- `STROBE_MIN_US`. -/
def strobeMinUs : Nat := 1
/-- `STROBE_MAX_US`. -/
def strobeMaxUs : Nat := 100
/-- `IDENT_DELAY_MIN_US`. -/
def identDelayMinUs : Nat := 1000000
/-- `IDBUF_BYTES`. -/
def idbufBytes : Nat := 512
/-- `IDENT_WORDS`. -/
def identWords : Nat := 256

/-! ## Lines and levels -/

/-- The state of a line driven at a level. -/
def triOut (b : Bool) : Tri := if b then .one else .zero

/-- The state of a data line driven at a level (10_state.md R32, 00_scope.md R11). -/
def dOut (b : Bool) : DState := if b then .out1 else .out0

/-- The two lines of chip-select carrying a value: line i carries bit i (20_memory.md R64). -/
def csLevels (v : BitVec 2) : Vector Tri 2 := #v[triOut (v.getLsbD 0), triOut (v.getLsbD 1)]

/-- The three address lines carrying a value: line i carries bit i (20_memory.md R64). -/
def adLevels (v : BitVec 3) : Vector Tri 3 :=
  #v[triOut (v.getLsbD 0), triOut (v.getLsbD 1), triOut (v.getLsbD 2)]

/-- The line of a one-line group carrying a value. -/
def strobeLevel (v : BitVec 1) : Tri := triOut (v.getLsbD 0)

/-- The direction that drives data line `i` with bit `i` of a word (41_register_access.md R131). -/
def driveBit (v : Word) (i : BitVec 4) : DirCmd := .output (v.getLsbD i.toNat)

/-- The state of a data line after a `SetDir` answered `OK` (40_bus_primitives.md R107). -/
def DirCmd.state : DirCmd → DState
  | .input => .input
  | .output b => dOut b

/-! ## The latched request -/

/-- What `E.REQ` latches of a request (10_state.md R23, 30_encoding.md R87 to R89). -/
def reqOf : Instr → Req
  | .rdreg reg => { op := 0b00, reg := reg, mode := 0, value := 0 }
  | .wrreg reg value => { op := 0b01, reg := reg, mode := 0, value := value }
  | .identFix => { op := 0b10, reg := 0, mode := 0, value := 0 }
  | .identPoll => { op := 0b10, reg := 0, mode := 1, value := 0 }

/-- The request that a latched record stands for (30_encoding.md R86). -/
def Req.instr (r : Req) : Option Instr :=
  if r.op = 0b00 then some (.rdreg r.reg)
  else if r.op = 0b01 then some (.wrreg r.reg r.value)
  else if r.op = 0b10 then some (if r.mode = 0 then .identFix else .identPoll)
  else none

/-- The bytes of a Data word, high byte first (20_memory.md R68). -/
def highByte (w : Word) : Byte := w.extractLsb' 8 8
/-- The low byte of a Data word (20_memory.md R68). -/
def lowByte (w : Word) : Byte := w.extractLsb' 0 8

end Sys2Proof.Machine
end

