-- ==== Sys2Proof/Machine/Flags.lean ====
section
/-! DEFINITION. The flags: the bits of a Status word and what the sequencer tests of it (10_state.md R37,
42_identify.md R154, R159), and the outcome codes (30_encoding.md R93). -/

namespace Sys2Proof.Machine

/-- BSY, bit 7 (10_state.md R37). -/
def statusBsy (s : Word) : Bool := s.getLsbD 7
/-- DRQ, bit 3 (10_state.md R37). -/
def statusDrq (s : Word) : Bool := s.getLsbD 3
/-- ERR, bit 0 (10_state.md R37). -/
def statusErr (s : Word) : Bool := s.getLsbD 0

/-- The presence test: the whole word is compared with zero (42_identify.md R154). -/
def driveAbsent (s : Word) : Bool := s == 0x0000

/-- Data ready: BSY clear and DRQ set (42_identify.md R159). -/
def dataReady (s : Word) : Bool := !statusBsy s && statusDrq s

/-- The outcome codes that are produced (30_encoding.md R93). -/
inductive Code where
  | ok | absent | busIoError | protocolTimeout | deviceError | illegalRequest
deriving DecidableEq, Repr

/-- The four bits of an outcome code (30_encoding.md R93). -/
def Code.bits : Code → BitVec 4
  | .ok => 0
  | .absent => 1
  | .busIoError => 2
  | .protocolTimeout => 3
  | .deviceError => 4
  | .illegalRequest => 5

/-- A response without an adapter error (10_state.md R24). -/
def reply (c : Code) (value : Word) : Response := { code := c.bits, value := value, errv := none }

/-- The response to a bus error, the adapter's error carried unchanged (60_exceptions.md R195). -/
def busErrorReply (e : AdapterError) : Response :=
  { code := Code.busIoError.bits, value := 0x0000, errv := some e }

/-- The 32-bit word of a response: `VALUE`, zeros, `CODE` (30_encoding.md R92). `ERRV` goes beside it. -/
def Response.word (r : Response) : Word32 := r.value ++ (0 : BitVec 12) ++ r.code

end Sys2Proof.Machine
end

