-- ==== Sys2Proof/Machine/Ops.lean ====
section
/-! DEFINITION. The named operations over the state: the Identify Buffer (20_memory.md R66), the lines, the adapter
primitives with the environment's answer (40_bus_primitives.md), how a request is accepted and how it ends
(60_exceptions.md R193, R207), and initialisation (70_reset_and_hazards.md R221 to R225). -/

namespace Sys2Proof.Machine

/-! ## Single registers -/

/-- The lines take these states (10_state.md R32). -/
def State.withLines (s : State) (l : Lines) : State := { s with lines := l }
/-- `E.SAMPLE <- w` (40_bus_primitives.md R105). -/
def State.withSample (s : State) (w : Word) : State := { s with sample := w }
/-- The position of the RAP: `E.RAPOP` and `E.RSTEP` (10_state.md R30). -/
def State.atStep (s : State) (op : RapOp) (n : Nat) : State := { s with rapop := op, rstep := n }
/-- `E.J <- j` (10_state.md R30). -/
def State.withJ (s : State) (j : BitVec 4) : State := { s with j := j }
/-- `E.PERR` (10_state.md R30). -/
def State.withPerr (s : State) (e : Option AdapterError) : State := { s with perr := e }
/-- `seq <- STAGE` (00_scope.md R13, 10_state.md R29). -/
def State.inStage (s : State) (st : Stage) : State := { s with seq := st }
/-- `E.STW <- w` (10_state.md R27). -/
def State.withStw (s : State) (w : Word) : State := { s with stw := w }
/-- `E.K <- k` (10_state.md R28). -/
def State.withK (s : State) (k : BitVec 2) : State := { s with k := k }
/-- `E.WC <- n` (10_state.md R28). -/
def State.withWc (s : State) (n : BitVec 9) : State := { s with wc := n }
/-- `E.NP <- n` (10_state.md R28). -/
def State.withNp (s : State) (n : Nat) : State := { s with np := n }

/-! ## The Identify Buffer -/

/-- Every listed address is above `lo` (or the list starts anywhere), and the addresses rise strictly. -/
def risingFrom : Nat → List Host.Cell → Bool
  | _, [] => true
  | lo, (a, _) :: rest => decide (lo ≤ a) && risingFrom (a + 1) rest

/-- The canonical form: offsets rise strictly and are all below 512 (20_memory.md R65). An unlisted offset has no value,
so no listed entry equals what an unlisted offset reads as (log 11). -/
def Memory.wf (m : List Host.Cell) : Bool :=
  risingFrom 0 m && m.all (fun c => decide (c.1 < idbufBytes))

/-- The byte written at an offset, if one was. -/
def Memory.get : List Host.Cell → Nat → Option Byte
  | [], _ => none
  | (a, b) :: rest, k => if a = k then some b else Memory.get rest k

/-- `MemWrite(IDBUF + k, 1, b)` (20_memory.md R66). -/
def Memory.set : List Host.Cell → Nat → Byte → List Host.Cell
  | [], k, b => [(k, b)]
  | (a, x) :: rest, k, b =>
    if k < a then (k, b) :: (a, x) :: rest
    else if k = a then (k, b) :: rest
    else (a, x) :: Memory.set rest k b

/-- The offset of the high byte of the next Data word: 2i for word i (20_memory.md R68, 42_identify.md R163). The low
byte lies right above it. -/
def wordOffset (s : State) : Nat := 2 * s.wc.toNat

/-- A Data word into the buffer, high byte then low byte (42_identify.md R162, R163). -/
def State.storeWord (s : State) (w : Word) : State :=
  { s with
    idbuf := Memory.set (Memory.set s.idbuf (wordOffset s) (highByte w)) (wordOffset s + 1) (lowByte w) }

/-! ## The lines -/

/-- The lines of a group at the commanded value (40_bus_primitives.md R103). -/
def Lines.drive (l : Lines) : GroupWrite → Lines
  | .cs v => { l with cs := csLevels v }
  | .ad v => { l with ad := adLevels v }
  | .sr v => { l with sr := strobeLevel v }
  | .sw v => { l with sw := strobeLevel v }

/-- The lines of a group unknown, after its `SetLines` failed (40_bus_primitives.md R102). -/
def Lines.blur (l : Lines) : GroupWrite → Lines
  | .cs _ => { l with cs := Vector.replicate 2 .u }
  | .ad _ => { l with ad := Vector.replicate 3 .u }
  | .sr _ => { l with sr := .u }
  | .sw _ => { l with sw := .u }

/-- One data line in a state; the others keep theirs (40_bus_primitives.md R107). -/
def Lines.setD (l : Lines) (i : BitVec 4) (x : DState) : Lines :=
  { l with d := l.d.set i.toNat x i.isLt }

/-! ## The environment's answer -/

/-- What the environment settles for the primitive now issued: the next settled answer, else a free draw; `none` if it
never answers (40_bus_primitives.md R101, 60_exceptions.md R215). -/
def State.answer (s : State) : Option Draw :=
  match s.answers with
  | a :: _ => a
  | [] => Config.envAnswer s.draws

/-- That answer is used up: every primitive has an answer of its own (00_scope.md R14). -/
def State.consume (s : State) : State :=
  match s.answers with
  | _ :: rest => { s with answers := rest }
  | [] => { s with draws := s.draws + 1 }

/-- An exchange goes on record: its event and its answer, at the end of the trace (00_scope.md R14). -/
def State.record (s : State) (ev : Event) (a : Answer) : State :=
  { s.consume with trace := s.trace ++ [⟨ev, a⟩] }

/-- What every failed primitive does besides its lines: `E.BI` is set (10_state.md R26, 40_bus_primitives.md R102). -/
def State.markIndeterminate (s : State) : State := { s with bi := true }

/-! ## The primitives (40_bus_primitives.md) -/

/-- What a primitive gives the rule that issued it: no answer ever comes; `Ok`; or `Err(e)`. -/
inductive Exchange where
  | silent
  | ok (s : State)
  | err (e : AdapterError) (s : State)
deriving DecidableEq, Repr

/-- `SetLines(g, v)` (40_bus_primitives.md R103, R102). -/
def setLines (g : GroupWrite) (s : State) : Exchange :=
  match s.answer with
  | none => .silent
  | some ⟨none, _⟩ =>
    .ok ((s.record (.setLines g) .ok).withLines (Lines.drive s.lines g))
  | some ⟨some e, _⟩ =>
    .err e ((s.record (.setLines g) (.err e)).markIndeterminate.withLines (Lines.blur s.lines g))

/-- `GetLines(D)` (40_bus_primitives.md R105): the answered word is sampled; an error changes no line (R102). -/
def getLines (s : State) : Exchange :=
  match s.answer with
  | none => .silent
  | some ⟨none, w⟩ => .ok ((s.record .getLines (.okv w)).withSample w)
  | some ⟨some e, _⟩ => .err e (s.record .getLines (.err e)).markIndeterminate

/-- `SetDir(D[i], d)` (40_bus_primitives.md R107, R108, R102). -/
def setDir (i : BitVec 4) (d : DirCmd) (s : State) : Exchange :=
  match s.answer with
  | none => .silent
  | some ⟨none, _⟩ =>
    .ok ((s.record (.setDir i d) .ok).withLines (Lines.setD s.lines i d.state))
  | some ⟨some e, _⟩ =>
    .err e ((s.record (.setDir i d) (.err e)).markIndeterminate.withLines (Lines.setD s.lines i .u))

/-- `Sleep(min, max)` (40_bus_primitives.md R109): nothing changes but the trace, and it cannot fail. -/
def sleep (minUs maxUs : Nat) (s : State) : Exchange :=
  match s.answer with
  | none => .silent
  | some _ => .ok (s.record (.sleep minUs maxUs) .done)

/-! ## How a request begins and ends -/

/-- `E.RAPOP <- READ` and the first step of `RAP_Read` comes next (41_register_access.md R125). -/
def State.startRead (s : State) : State :=
  ((s.atStep .read 1).withJ 0).withPerr none

/-- The first step of `RAP_Write`, its SELECT, comes next (41_register_access.md R130; log 15). -/
def State.startWrite (s : State) : State :=
  s.atStep .select 1

/-- The Sequencer's own `Sleep` comes next: no RAP operation is in progress (00_scope.md R2, 42_identify.md R156, R158;
log 15). -/
def State.startWait (s : State) : State :=
  s.atStep .none 0

/-- A request is accepted: latched, and the engine is BUSY (60_exceptions.md R207). -/
def State.accept (s : State) (r : Req) : State :=
  { s with es := .busy, req := r, due := none, traceMark := s.trace.length }

/-- The next engine step delivers this response (log 1). -/
def State.owe (s : State) (r : Response) : State := { s with due := some r }

/-- `respond` (60_exceptions.md R193). -/
def State.respond (s : State) (r : Response) : State :=
  { s with rsp := r, rspValid := true, seq := .none, rapop := .none, rstep := 0, es := .idle, due := none }

/-- An illegal word is accepted and owes its response at once; it is latched nowhere (30_encoding.md R90,
60_exceptions.md R201; log 14). -/
def State.acceptIllegal (s : State) : State :=
  { s with es := .busy, due := some (reply .illegalRequest 0x0000), traceMark := s.trace.length }

/-- The REFUSED mark (60_exceptions.md R196). -/
def State.refuse (s : State) : State := { s with refused := true }

/-! ## Initialisation -/

/-- The line count each role requires (70_reset_and_hazards.md R221). -/
def requiredLines : Role → Nat
  | .led => 4
  | .databus => 16
  | .chipSelect => 2
  | .address => 3
  | .reset => 1
  | .strobeRead => 1
  | .strobeWrite => 1

/-- The order in which the roles are checked (70_reset_and_hazards.md R222). -/
def rolesInOrder : List Role :=
  [.led, .databus, .chipSelect, .address, .reset, .strobeRead, .strobeWrite]

/-- What the platform reports of a role. -/
def claimOf (c : GroupClaim) : Role → RoleClaim
  | .led => c.led
  | .databus => c.databus
  | .chipSelect => c.chipSelect
  | .address => c.address
  | .reset => c.reset
  | .strobeRead => c.strobeRead
  | .strobeWrite => c.strobeWrite

/-- A role passes when its group was claimed with exactly its required count (70_reset_and_hazards.md R221). -/
def rolePasses (c : GroupClaim) (r : Role) : Bool :=
  (claimOf c r).claimed && (claimOf c r).lines == requiredLines r

/-- The first role, in the order of the check, that does not pass (70_reset_and_hazards.md R222). -/
def firstFailing (c : GroupClaim) : Option Role :=
  rolesInOrder.find? (fun r => !rolePasses c r)

/-- The configuration check, one step and no primitive (70_reset_and_hazards.md R221 to R224). -/
def State.configCheck (s : State) : State :=
  match firstFailing s.claim with
  | none => { s with cfgerr := none, es := .idle }
  | some r => { s with cfgerr := some r, es := .cfgfail }

/-- Reinit up to the check (70_reset_and_hazards.md R225): the registers it names, the lines at `PLAT_INIT`, and fresh
free values for what it leaves unspecified; `E.IDBUF` stays. -/
def State.reinitRegs (s : State) (c : GroupClaim) : State :=
  { s with
    lines := s.params.platInit
    bi := false, rspValid := false, stw := 0x0000
    k := 0, wc := 0, np := 0, j := 0, rstep := 0
    seq := .none, rapop := .none, perr := none
    req := { op := Config.freeBits 2 s.draws, reg := Config.freeBits 3 (s.draws + 1)
             mode := Config.freeBits 1 (s.draws + 2), value := Config.freeBits 16 (s.draws + 3) }
    rsp := { code := Config.freeBits 4 (s.draws + 4), value := Config.freeBits 16 (s.draws + 5)
             errv := Config.freeError (s.draws + 6) }
    sample := Config.freeBits 16 (s.draws + 7)
    draws := s.draws + 8
    claim := c
    due := none
    es := .uninit }

/-- Reinit, in one step with the configuration check that follows it (70_reset_and_hazards.md R225). -/
def State.reinit (s : State) (c : GroupClaim) : State := (s.reinitRegs c).configCheck

end Sys2Proof.Machine
end

