-- ==== Sys2Proof/Machine/Rap.lean ====
section
/-! DEFINITION. The Register Access Protocol (41_register_access.md): one engine step of SELECT, READ and WRITE, and the
meanings of RDREG and WRREG. -/

namespace Sys2Proof.Machine

/-- What one engine step of a RAP function comes to: the environment never answers; the function goes on; it returns
`Ok`; it returns `Err(e)`; or the position is none of its steps. -/
inductive RapStep where
  | silent
  | more (s : State)
  | ok (s : State)
  | err (e : AdapterError) (s : State)
  | stray
deriving DecidableEq, Repr

/-- `x?` in the middle of a RAP function: an error returns at once, otherwise the function goes on
(00_scope.md R13). -/
def Exchange.thenMore (x : Exchange) (next : State → State) : RapStep :=
  match x with
  | .silent => .silent
  | .ok s => .more (next s)
  | .err e s => .err e s

/-- `x?` as the last primitive of a RAP function. -/
def Exchange.thenOk (x : Exchange) : RapStep :=
  match x with
  | .silent => .silent
  | .ok s => .ok s
  | .err e s => .err e s

/-- The loop index goes on to the next data line, or, after line 15, the function goes on to `next`
(41_register_access.md R126, R131, R133; log 16). -/
def State.nextLine (next : State → State) (s : State) : State :=
  if s.j = 15 then next s else s.withJ (s.j + 1)

/-- One step of `RAP_Select(r)`: S1 is chip-select, S2 the address (41_register_access.md R121, R122). `next` is where
the calling function goes on. -/
def rapSelect (r : RegIdx) (next : State → State) (s : State) : RapStep :=
  match s.rstep with
  | 1 => (setLines (.cs csValue) s).thenMore (fun t => t.atStep .select 2)
  | 2 => (setLines (.ad r) s).thenMore next
  | _ => .stray

/-- Step 3 of `RAP_Read`: a failed assert goes on to the cleanup with its error held (41_register_access.md R125,
R127; log 17). -/
def readAssert (s : State) : RapStep :=
  match setLines (.sr strobeOn) s with
  | .silent => .silent
  | .ok t => .more (t.atStep .read 4)
  | .err e t => .more ((t.withPerr (some e)).atStep .read 6)

/-- Step 5 of `RAP_Read`: a failed sample goes on to the cleanup with its error held (41_register_access.md R125). -/
def readSample (s : State) : RapStep :=
  match getLines s with
  | .silent => .silent
  | .ok t => .more (t.atStep .read 6)
  | .err e t => .more ((t.withPerr (some e)).atStep .read 6)

/-- Step 6 of `RAP_Read`: the strobe is deasserted in every case, and the first error is the result
(41_register_access.md R125, R127, R129). -/
def readDeassert (s : State) : RapStep :=
  match setLines (.sr strobeOff) s with
  | .silent => .silent
  | .ok t =>
    match s.perr with
    | some e => .err e t
    | none => .ok t
  | .err e' t =>
    match s.perr with
    | some e => .err e t
    | none => .err e' t

/-- One step of `RAP_Read(r)`; on `Ok` the word is `E.SAMPLE` (41_register_access.md R125). -/
def rapRead (r : RegIdx) (s : State) : RapStep :=
  match s.rapop with
  | .read =>
    match s.rstep with
    | 1 => (setDir s.j .input s).thenMore
        (State.nextLine (fun t => t.atStep .select 1))
    | 3 => readAssert s
    | 4 => (sleep strobeMinUs strobeMaxUs s).thenMore (fun t => t.atStep .read 5)
    | 5 => readSample s
    | 6 => readDeassert s
    | _ => .stray
  | .select => rapSelect r (fun t => t.atStep .read 3) s
  | .write => .stray
  | .none => .stray

/-- Step 4 of `RAP_Write`: a data line returns to input, and line 15 ends the function (41_register_access.md R133). -/
def writeReturn (s : State) : RapStep :=
  if s.j = 15 then (setDir s.j .input s).thenOk
  else (setDir s.j .input s).thenMore (fun t => t.withJ (s.j + 1))

/-- One step of `RAP_Write(r, v)` (41_register_access.md R130). -/
def rapWrite (r : RegIdx) (v : Word) (s : State) : RapStep :=
  match s.rapop with
  | .select => rapSelect r (fun t => (t.atStep .write 2).withJ 0) s
  | .write =>
    match s.rstep with
    | 2 => (setDir s.j (driveBit v s.j) s).thenMore (State.nextLine (fun t => t.atStep .write 31))
    | 31 => (setLines (.sw strobeOn) s).thenMore (fun t => t.atStep .write 32)
    | 32 => (sleep strobeMinUs strobeMaxUs s).thenMore (fun t => t.atStep .write 33)
    | 33 => (setLines (.sw strobeOff) s).thenMore (fun t => t.atStep .write 34)
    | 34 => (sleep strobeMinUs strobeMaxUs s).thenMore (fun t => (t.atStep .write 4).withJ 0)
    | 4 => writeReturn s
    | _ => .stray
  | .read => .stray
  | .none => .stray

/-- A RAP step as the engine's step: `Ok` goes on with `onOk`, and an error owes BUS_IO_ERROR
(60_exceptions.md R194, R195). A silent environment leaves the engine where it is (60_exceptions.md R215). -/
def RapStep.outcome (x : RapStep) (s : State) (onOk : State → State) : Host.Outcome State Fault Refusal :=
  match x with
  | .silent => .next s
  | .more t => .next t
  | .ok t => .next (onOk t)
  | .err e t => .next (t.owe (busErrorReply e))
  | .stray => .fault .strayPosition

/-- The engine's next step for a request. IDLE accepts it, or refuses it while `E.BI` = 1 (60_exceptions.md R207, R196);
BUSY with this request delivers the response owed or performs the next primitive; in every other state the request
waits outside the engine (R207). After the REFUSED mark there is no step (R196). -/
def serve (r : Req) (begin : State → State) (work : State → Host.Outcome State Fault Refusal) (s : State) :
    Host.Outcome State Fault Refusal :=
  if s.refused then .refused .requestAfterBusError
  else
    match s.es with
    | .idle => if s.bi then .next s.refuse else .next (begin (s.accept r))
    | .busy =>
      if s.req = r then
        match s.due with
        | some rsp => .next (s.respond rsp)
        | none => work s
      else .next s
    | .uninit => .next s
    | .cfgfail => .next s

/-- RDREG (41_register_access.md R135): `RAP_Read(reg)`, and OK with the word. -/
def execRdreg (reg : RegIdx) (s : State) : Host.Outcome State Fault Refusal :=
  serve (reqOf (.rdreg reg)) State.startRead
    (fun s => (rapRead reg s).outcome s (fun t => t.owe (reply .ok t.sample))) s

/-- WRREG (41_register_access.md R136): `RAP_Write(reg, value)`, and OK with value `0x0000`. -/
def execWrreg (reg : RegIdx) (value : Word) (s : State) : Host.Outcome State Fault Refusal :=
  serve (reqOf (.wrreg reg value)) State.startWrite
    (fun s => (rapWrite reg value s).outcome s (fun t => t.owe (reply .ok 0x0000))) s

end Sys2Proof.Machine
end

