-- ==== Sys2Proof/Machine/Identify.lean ====
section
/-! DEFINITION. The IDENTIFY DEVICE sequencer (42_identify.md): its six stages, and the meanings of IDENT.FIX and
IDENT.POLL. -/

namespace Sys2Proof.Machine

/-- What every IDENTIFY request does when it is accepted, before stage 1 (42_identify.md R150, R151). -/
def State.startIdentify (s : State) : State :=
  (((s.withStw 0x0000).withWc 0).inStage .selectDrive).startWrite

/-- SELECT_DRIVE is done: CLEAR_PARAMS begins with index 0 (42_identify.md R152). -/
def afterSelectDrive (s : State) : State :=
  ((s.inStage .clearParams).withK 0).startWrite

/-- One parameter register is cleared: the next one, or ISSUE_COMMAND after the fourth (42_identify.md R152, R153). -/
def afterClear (s : State) : State :=
  if s.k = 3 then (s.inStage .issueCommand).startWrite
  else (s.withK (s.k + 1)).startWrite

/-- The command is written: CHECK_PRESENCE begins (42_identify.md R154). -/
def afterCommand (s : State) : State :=
  (s.inStage .checkPresence).startRead

/-- The presence read returned `E.SAMPLE`: ABSENT, or on to AWAIT_DATA_READY by the request's mode
(42_identify.md R154, R155, R158). -/
def afterPresence (s : State) : State :=
  if driveAbsent s.sample then (s.withStw s.sample).owe (reply .absent 0x0000)
  else if s.req.mode = 0 then ((s.withStw s.sample).inStage .awaitDataReady).startWait
  else (((s.withStw s.sample).inStage .awaitDataReady).withNp 0).startRead

/-- BURST_READ begins (42_identify.md R162). -/
def startBurst (s : State) : State := (s.inStage .burstRead).startRead

/-- A poll read returned `E.SAMPLE`: the tests of 42_identify.md R159, in their order. -/
def afterPoll (s : State) : State :=
  let t := (s.withNp (s.np + 1)).withStw s.sample
  if statusErr s.sample then t.owe (reply .deviceError s.sample)
  else if dataReady s.sample then startBurst t
  else if s.np + 1 = s.params.pollMaxReads then t.owe (reply .protocolTimeout s.sample)
  else t.startWait

/-- A Data read returned `E.SAMPLE`: both bytes are stored in this same step, and after the last word OK is owed
(42_identify.md R162, R163). -/
def afterData (s : State) : State :=
  let t := (s.storeWord s.sample).withWc (s.wc + 1)
  if (s.wc + 1).toNat = identWords then t.owe (reply .ok s.stw) else t.startRead

/-- The Sequencer's own wait: the fixed delay, then BURST_READ; or the gap between two poll reads
(42_identify.md R156, R158). -/
def awaitSleep (s : State) : Host.Outcome State Fault Refusal :=
  if s.req.mode = 0 then
    ((sleep identDelayMinUs s.params.identDelayMaxUs s).thenMore startBurst).outcome s id
  else
    ((sleep s.params.pollSleepMinUs s.params.pollSleepMaxUs s).thenMore State.startRead).outcome s id

/-- One engine step of an IDENTIFY request in service (42_identify.md R150 to R164). -/
def identifyStep (s : State) : Host.Outcome State Fault Refusal :=
  match s.seq with
  | .selectDrive => (rapWrite regLba3 devSelectValue s).outcome s afterSelectDrive
  | .clearParams => (rapWrite (clearReg s.k) clearValue s).outcome s afterClear
  | .issueCommand => (rapWrite regStatus identifyOpcode s).outcome s afterCommand
  | .checkPresence => (rapRead regStatus s).outcome s afterPresence
  | .awaitDataReady =>
    if s.rapop = .none then awaitSleep s
    else if s.req.mode = 0 then .fault .strayPosition
    else (rapRead regStatus s).outcome s afterPoll
  | .burstRead =>
    if s.wc.toNat < identWords then (rapRead regData s).outcome s afterData else .fault .strayPosition
  | .none => .fault .strayPosition

/-- IDENT.FIX (42_identify.md R166). -/
def execIdentFix (s : State) : Host.Outcome State Fault Refusal :=
  serve (reqOf .identFix) State.startIdentify identifyStep s

/-- IDENT.POLL (42_identify.md R167). -/
def execIdentPoll (s : State) : Host.Outcome State Fault Refusal :=
  serve (reqOf .identPoll) State.startIdentify identifyStep s

end Sys2Proof.Machine
end

