-- ==== Sys2Proof/Machine/Dispatch.lean ====
section
/-! DEFINITION. One engine step on behalf of a request: one arm per request (30_encoding.md R86). -/

namespace Sys2Proof.Machine

def exec (i : Instr) (s : State) : Host.Outcome State Fault Refusal :=
  match i with
  | .rdreg reg => Sys2Proof.Machine.execRdreg reg s
  | .wrreg reg value => Sys2Proof.Machine.execWrreg reg value s
  | .identFix => Sys2Proof.Machine.execIdentFix s
  | .identPoll => Sys2Proof.Machine.execIdentPoll s

end Sys2Proof.Machine
end

