-- ==== Sys2Proof/Machine/Engine.lean ====
section
/-! DEFINITION. One step of the machine, by the state the engine is in (00_scope.md R7, 10_state.md R21, R22), and what
the host sees of it (60_exceptions.md R208, 20_memory.md R67). -/

namespace Sys2Proof.Machine

/-- The moves that are still to come. -/
def State.withInbox (s : State) (moves : List Move) : State := { s with inbox := moves }

/-- The first reinit among the moves, with the moves that are left when it has been made: the words before it are those of
a host that waits, and they stay outside the engine in their order (60_exceptions.md R203, R207). -/
def firstReinit : List Move → Option (GroupClaim × List Move)
  | [] => none
  | .reinit c :: rest => some (c, rest)
  | .submit w :: rest => (firstReinit rest).map (fun x => (x.1, .submit w :: x.2))

/-- The host submits a word to an IDLE engine. While `E.BI` = 1 the run is marked REFUSED (60_exceptions.md R196);
otherwise the word is decoded, and a legal request is accepted by its meaning, an illegal word by R201. -/
def submitWord (w : Word32) (s : State) : Host.Outcome State Fault Refusal :=
  if s.bi then .next s.refuse
  else
    match decode w with
    | some i => exec i s
    | none => .next s.acceptIllegal

/-- A step in UNINIT: a reinit that is the next move (10_state.md R22, 70_reset_and_hazards.md R226), otherwise the
configuration check (R221); a submitted request waits (60_exceptions.md R207). DESIGN CHOICE (log 3): which of the two comes
first is the order of the moves. -/
def uninitStep (s : State) : Host.Outcome State Fault Refusal :=
  match s.inbox with
  | [] => .next s.configCheck
  | .submit _ :: _ => .next s.configCheck
  | .reinit c :: rest => .next ((s.withInbox rest).reinit c)

/-- A step while the engine is IDLE: the next move of host or platform, if there is one (60_exceptions.md R203). -/
def idleStep (s : State) : Host.Outcome State Fault Refusal :=
  match s.inbox with
  | [] => .next s
  | .submit w :: rest => submitWord w (s.withInbox rest)
  | .reinit c :: rest => .next ((s.withInbox rest).reinit c)

/-- A step in CFGFAIL: the platform's next reinit, whatever words the host waits with, which stay outside the engine; no
request is ever accepted (10_state.md R21, R22, 60_exceptions.md R197, R207, R208). -/
def cfgfailStep (s : State) : Host.Outcome State Fault Refusal :=
  match firstReinit s.inbox with
  | none => .next s
  | some (c, rest) => .next ((s.withInbox rest).reinit c)

/-- A step while the engine is BUSY: the response owed, or the next primitive of the latched request. Nothing in the
inbox is looked at: requests wait and no reinit is admitted (60_exceptions.md R207, 70_reset_and_hazards.md R226). -/
def busyStep (s : State) : Host.Outcome State Fault Refusal :=
  match s.due with
  | some rsp => .next (s.respond rsp)
  | none =>
    match s.req.instr with
    | some i => exec i s
    | none => .fault .strayPosition

/-- One step of the machine, by the state the engine is in (10_state.md R21, R22). A run whose REFUSED mark is set takes
none (60_exceptions.md R196). -/
def engineStep (s : State) : Host.Outcome State Fault Refusal :=
  if s.refused then .refused .requestAfterBusError
  else
    match s.es with
    | .uninit => uninitStep s
    | .cfgfail => cfgfailStep s
    | .idle => idleStep s
    | .busy => busyStep s

/-! ## Where the next request comes from -/

/-- An IDLE engine, free of the REFUSED mark and of `E.BI`, whose host submits the word next. -/
def State.submitNext (s : State) (w : Word32) : State :=
  { s with es := .idle, bi := false, refused := false, inbox := .submit w :: s.inbox }

/-! ## What the host sees -/

/-- The trace of the request in service, or of the last one (00_scope.md R14). -/
def State.requestTrace (s : State) : List TraceEntry := s.trace.drop s.traceMark

/-- The response, which the host reads while the engine is IDLE (60_exceptions.md R208, R204). -/
def State.hostResponse (s : State) : Option Response :=
  if s.es = .idle ∧ s.rspValid = true then some s.rsp else none

/-- `MemRead(IDBUF + k, 1)`, the host's read with the number `read` (20_memory.md R67): outside BUSY the byte written
last, or where nothing has been written a free byte that is the same at every read (log 11). While BUSY it is a free byte
of its own for each read, so two reads of one offset may differ, with or without a store between them
(70_reset_and_hazards.md R234). DESIGN CHOICE (log 12): the host's reads are numbered, and such a byte is any byte, not
only the old or the new one. -/
def State.hostReadByte (s : State) (read : Nat) (k : BitVec 9) : Byte :=
  if s.es = .busy then Config.busyByte read s.trace.length k.toNat
  else (Memory.get s.idbuf k.toNat).getD (Config.idbufInit k.toNat)

end Sys2Proof.Machine
end

