-- ==== Sys2Proof/Machine/Step.lean ====
section
/-! DEFINITION. The step of the machine, and how a request word is placed where the next step takes it. -/

namespace Sys2Proof.Machine

/-- One step: an engine step of 00_scope.md R7, or a move of the platform (70_reset_and_hazards.md R221, R225). -/
def step (s : State) : Host.Outcome State Fault Refusal := engineStep s

/-- The state whose very next step takes the request word `w` from the host and runs it (log 9). -/
def State.withFetchWord (s : State) (nbits w : Nat) : State :=
  s.submitNext (BitVec.ofNat 32 (w % 2 ^ nbits))

end Sys2Proof.Machine
end

