-- ==== Sys2Proof/Safety.lean ====
section
/-! DEFINITION. The terms in which claims are stated: runs, environments that answer, what a legal position is, what
the lines hold at each position, and what counts as a safe run (60_exceptions.md R209). -/

namespace Sys2Proof.Machine

/-! ## Runs -/

/-- `n` engine steps on behalf of one request, stopping at a fault or a refusal. -/
def execTimes (i : Instr) : Nat → State → Host.Outcome State Fault Refusal
  | 0, s => .next s
  | n + 1, s =>
    match exec i s with
    | .next t => execTimes i n t
    | .fault f => .fault f
    | .refused r => .refused r

/-- `n` steps of the machine, stopping at a fault or a refusal. -/
def stepTimes : Nat → State → Host.Outcome State Fault Refusal
  | 0, s => .next s
  | n + 1, s =>
    match step s with
    | .next t => stepTimes n t
    | .fault f => .fault f
    | .refused r => .refused r

/-- The end of a run (60_exceptions.md R209): the host has no request pending. A reinit that the platform may still make
is no request (00_scope.md R15). -/
def RunEnded (s : State) : Prop :=
  (s.es = .idle ∨ s.es = .cfgfail) ∧ (∀ w, Move.submit w ∉ s.inbox) ∧ s.refused = false

/-- The engine can accept a request (60_exceptions.md R207). -/
def CanAccept (s : State) : Prop := s.es = .idle ∧ s.bi = false ∧ s.refused = false

/-- The engine serves request `i` and owes no response yet. -/
def Serving (i : Instr) (s : State) : Prop :=
  s.refused = false ∧ s.es = .busy ∧ s.req = reqOf i ∧ s.due = none

/-! ## Environments -/

/-- Answers of an environment in which nothing fails; each word counts where a `GetLines` takes it. -/
def allOk (ws : List Word) : List (Option Draw) := ws.map (fun w => some ⟨none, w⟩)

/-- One failing answer. -/
def fails (e : AdapterError) : Option Draw := some ⟨some e, 0⟩

/-- The level of data line `i` that the last `SetDir(D[i], OUT(b))` answered `OK` drove, false if there is none: one
entry of the trace at a time (41_register_access.md R137). -/
def loopbackBit (i : BitVec 4) (old : Bool) (e : TraceEntry) : Bool :=
  match e with
  | ⟨.setDir l (.output b), .ok⟩ => if l = i then b else old
  | _ => old

/-- The word that the loopback environment answers to a `GetLines` after a trace (41_register_access.md R137). -/
def loopbackWord (tr : List TraceEntry) : Word :=
  BitVec.ofFnLE (fun i : Fin 16 => tr.foldl (loopbackBit (BitVec.ofFin i)) false)

/-- How many primitives a request has at most (70_reset_and_hazards.md R237, 41_register_access.md R141). -/
def primitiveBound (p : Params) : Instr → Nat
  | .rdreg _ => 22
  | .wrreg _ _ => 38
  | .identFix => 5883
  | .identPoll => 5904 + 23 * (p.pollMaxReads - 1)

/-! ## Traces of whole RAP operations (41_register_access.md R121, R125, R130) -/

/-- The events of a select whose answers are `OK`. -/
def selectEvents (r : RegIdx) : List TraceEntry :=
  [⟨.setLines (.cs 0b01), .ok⟩, ⟨.setLines (.ad r), .ok⟩]

/-- The sixteen events that set the data lines to input, line 0 first. -/
def releaseEvents : List TraceEntry :=
  (List.range 16).map (fun j => ⟨.setDir (BitVec.ofNat 4 j) .input, .ok⟩)

/-- The sixteen events that drive the bits of a word on the data lines, line 0 first. -/
def driveEvents (v : Word) : List TraceEntry :=
  (List.range 16).map (fun j => ⟨.setDir (BitVec.ofNat 4 j) (.output (v.getLsbD j)), .ok⟩)

/-- The 22 events of a read that samples `w`. -/
def readEvents (r : RegIdx) (w : Word) : List TraceEntry :=
  releaseEvents ++ selectEvents r ++
    [⟨.setLines (.sr 1), .ok⟩, ⟨.sleep 1 100, .done⟩, ⟨.getLines, .okv w⟩, ⟨.setLines (.sr 0), .ok⟩]

/-- The 38 events of a write. -/
def writeEvents (r : RegIdx) (v : Word) : List TraceEntry :=
  selectEvents r ++ driveEvents v ++
    [⟨.setLines (.sw 1), .ok⟩, ⟨.sleep 1 100, .done⟩, ⟨.setLines (.sw 0), .ok⟩, ⟨.sleep 1 100, .done⟩] ++
    releaseEvents

/-- The 250 events of the first four IDENTIFY stages, whose presence read samples `w` (42_identify.md R168). -/
def presenceEvents (w : Word) : List TraceEntry :=
  writeEvents 6 0x00A0 ++ writeEvents 2 0x0000 ++ writeEvents 3 0x0000 ++ writeEvents 4 0x0000 ++
    writeEvents 5 0x0000 ++ writeEvents 7 0x00EC ++ readEvents 7 w

/-- The word that a block of settled answers gives its `GetLines`, the 21st primitive of a read. -/
def sampled (block : List Word) : Word := block.getD 20 0

/-- Blocks of settled answers, one for each of a number of reads. -/
def readBlocks (n : Nat) (blocks : List (List Word)) : Prop :=
  blocks.length = n ∧ ∀ b ∈ blocks, b.length = 22

/-- Blocks of settled answers for poll reads that go on: each neither ready nor in error, and followed by a sleep
(42_identify.md R158, R159). -/
def pollingBlocks (polls : List (List Word)) : Prop :=
  ∀ b ∈ polls, b.length = 23 ∧ statusErr (sampled b) = false ∧ dataReady (sampled b) = false

/-- The events of poll reads that go on. -/
def pollingEvents (p : Params) (polls : List (List Word)) : List TraceEntry :=
  polls.flatMap (fun b => readEvents 7 (sampled b) ++ [⟨.sleep p.pollSleepMinUs p.pollSleepMaxUs, .done⟩])

/-- The events of the Data reads of BURST_READ. -/
def burstEvents (blocks : List (List Word)) : List TraceEntry :=
  blocks.flatMap (fun b => readEvents 0 (sampled b))

/-- The Identify Buffer holds the words read, high byte first (42_identify.md R163). -/
def bufferHolds (m : List Host.Cell) (blocks : List (List Word)) : Prop :=
  ∀ i, i < blocks.length →
    Memory.get m (2 * i) = some ((sampled (blocks.getD i [])).extractLsb' 8 8) ∧
    Memory.get m (2 * i + 1) = some ((sampled (blocks.getD i [])).extractLsb' 0 8)

/-- A word that is illegal as a request: one of the five conditions on its fields (30_encoding.md R90). -/
def illegalWord (w : Word32) : Prop :=
  w.extractLsb' 0 2 = 0b11 ∨ w.extractLsb' 6 10 ≠ 0 ∨
    ((w.extractLsb' 0 2 = 0b00 ∨ w.extractLsb' 0 2 = 0b01) ∧ w.extractLsb' 5 1 = 1) ∨
    (w.extractLsb' 0 2 = 0b00 ∧ w.extractLsb' 16 16 ≠ 0) ∨
    (w.extractLsb' 0 2 = 0b10 ∧ (w.extractLsb' 2 3 ≠ 0 ∨ w.extractLsb' 16 16 ≠ 0))

/-- The answers that are legal for an event (30_encoding.md R94). -/
def answerFits : Event → Answer → Prop
  | .setLines _, a => a = .ok ∨ ∃ e, a = .err e
  | .getLines, a => (∃ w, a = .okv w) ∨ ∃ e, a = .err e
  | .setDir _ _, a => a = .ok ∨ ∃ e, a = .err e
  | .sleep _ _, a => a = .done

/-- An answer that is an error. -/
def isError : Answer → Prop
  | .err _ => True
  | .ok => False
  | .okv _ => False
  | .done => False

/-- The offset at which the next engine step of an IDENTIFY request stores the two bytes of a Data word; none if that
step stores nothing (42_identify.md R163): the last primitive of a Data read of BURST_READ that nothing failed. -/
def storesAt (s : State) : Option Nat :=
  match s.answer with
  | some ⟨none, _⟩ =>
    if s.es = .busy ∧ s.due = none ∧ s.req.op = 0b10 ∧ s.seq = .burstRead ∧ s.rapop = .read ∧ s.rstep = 6 ∧
        s.perr = none then some (wordOffset s) else none
  | some ⟨some _, _⟩ => none
  | none => none

/-- Every byte of the Identify Buffer outside the bytes the step stores to is the same before and after. -/
def bufferKept (s t : State) : Prop :=
  ∀ k, (∀ a, storesAt s = some a → k ≠ a ∧ k ≠ a + 1) → Memory.get t.idbuf k = Memory.get s.idbuf k

/-- The outcome codes a request can end with (41_register_access.md R135, R136, 42_identify.md R166, R167). -/
def possibleCodes : Instr → List (BitVec 4)
  | .rdreg _ => [0, 2]
  | .wrreg _ _ => [0, 2]
  | .identFix => [0, 1, 2]
  | .identPoll => [0, 1, 2, 3, 4]

/-- The next step is a reinit with the report `c` and leaves the moves `rest`: a reinit that is the next move, in any
state but BUSY, and in CFGFAIL also one behind words that the host waits with (10_state.md R22, 60_exceptions.md R207,
70_reset_and_hazards.md R226). -/
def reinitNext (s : State) (c : GroupClaim) (rest : List Move) : Prop :=
  s.es ≠ .busy ∧ ∃ (words : List Word32) (after : List Move), (s.es = .cfgfail ∨ words = []) ∧
    s.inbox = words.map .submit ++ .reinit c :: after ∧ rest = words.map .submit ++ after

/-- The next step is a reinit. -/
def takesReinit (s : State) : Prop := ∃ c rest, reinitNext s c rest

/-- The table of 70_reset_and_hazards.md R221 over a report: the roles in their order, each with what the platform reports
and with its required count. -/
def roleTable (c : GroupClaim) : List (RoleClaim × Nat × Role) :=
  [(c.led, 4, .led), (c.databus, 16, .databus), (c.chipSelect, 2, .chipSelect), (c.address, 3, .address),
   (c.reset, 1, .reset), (c.strobeRead, 1, .strobeRead), (c.strobeWrite, 1, .strobeWrite)]

/-- A row of the table passes: claimed with exactly the required count (70_reset_and_hazards.md R221). -/
def rowPasses (x : RoleClaim × Nat × Role) : Prop := x.1.claimed = true ∧ x.1.lines = x.2.1

/-- The outcome of the configuration check over a report: IDLE and none if every row passes, otherwise CFGFAIL and the
first row, in the order of the table, that does not (70_reset_and_hazards.md R221, R222). -/
def checkOutcome (c : GroupClaim) (es : EngineState) (cfgerr : Option Role) : Prop :=
  ((∀ x ∈ roleTable c, rowPasses x) → es = .idle ∧ cfgerr = none) ∧
  ∀ before x after, roleTable c = before ++ x :: after → (∀ y ∈ before, rowPasses y) → ¬ rowPasses x →
    es = .cfgfail ∧ cfgerr = some x.2.2

/-- The lines of a bus left by a successful read of register 7 (60_exceptions.md R199). -/
def statusReadDone (l : Lines) : Prop :=
  (∀ i : Fin 16, l.d[i] = .input) ∧ l.sr = .zero ∧ l.cs = #v[.one, .zero] ∧ l.ad = #v[.one, .one, .one]

/-- The last primitive of a read that nothing failed so far (41_register_access.md R125). -/
def readEnds (s : State) : Prop := s.rapop = .read ∧ s.rstep = 6 ∧ s.perr = none

/-- The last primitive of a write (41_register_access.md R130, R133). -/
def writeEnds (s : State) : Prop := s.rapop = .write ∧ s.rstep = 4 ∧ s.j = 15

/-- The request in service owes no response yet, and its next primitive is answered without an error. -/
def goesOn (s : State) : Prop := s.es = .busy ∧ s.due = none ∧ ∃ w, s.answer = some ⟨none, w⟩

/-- The next step is the one in which a read succeeds (41_register_access.md R125). -/
def readSucceeds (s : State) : Prop := readEnds s ∧ goesOn s

/-- The next step is the one in which a write succeeds (41_register_access.md R130). -/
def writeSucceeds (s : State) : Prop := writeEnds s ∧ goesOn s

/-! ## Positions (10_state.md R39) -/

/-- A step of `RAP_Read` (41_register_access.md R121, R125). -/
def readPosition (s : State) : Prop :=
  (s.rapop = .read ∧ (s.rstep = 1 ∨ s.rstep = 3 ∨ s.rstep = 4 ∨ s.rstep = 5 ∨ s.rstep = 6))
  ∨ (s.rapop = .select ∧ (s.rstep = 1 ∨ s.rstep = 2))

/-- A step of `RAP_Write` (41_register_access.md R121, R130). -/
def writePosition (s : State) : Prop :=
  (s.rapop = .write ∧ (s.rstep = 2 ∨ s.rstep = 31 ∨ s.rstep = 32 ∨ s.rstep = 33 ∨ s.rstep = 34 ∨ s.rstep = 4))
  ∨ (s.rapop = .select ∧ (s.rstep = 1 ∨ s.rstep = 2))

/-- The Sequencer's own wait. -/
def waitPosition (s : State) : Prop := s.rapop = .none ∧ s.rstep = 0

/-- A position of an IDENTIFY request (42_identify.md R150), with the counters its stage allows: no Data word is read
before BURST_READ, and a poll read is left while AWAIT_DATA_READY polls (10_state.md R28). -/
def identifyPosition (s : State) : Prop :=
  match s.seq with
  | .selectDrive => writePosition s ∧ s.wc = 0
  | .clearParams => writePosition s ∧ s.wc = 0
  | .issueCommand => writePosition s ∧ s.wc = 0
  | .checkPresence => readPosition s ∧ s.wc = 0
  | .awaitDataReady =>
    s.wc = 0 ∧
      if s.req.mode = 0 then waitPosition s
      else (waitPosition s ∨ readPosition s) ∧ s.np < s.params.pollMaxReads
  | .burstRead => readPosition s ∧ s.wc.toNat < identWords
  | .none => False

/-- A position of the request that is latched. -/
def servicePosition (s : State) : Prop :=
  match s.req.instr with
  | some i =>
    s.req = reqOf i ∧
      match i with
      | .rdreg _ => readPosition s ∧ s.seq = .none
      | .wrreg _ _ => writePosition s ∧ s.seq = .none
      | .identFix => identifyPosition s
      | .identPoll => identifyPosition s
  | none => False

/-- The position is one of the sequences (10_state.md R29, R39): while BUSY a step of the latched request or a response
owed, otherwise `NONE`. -/
def PositionOk (s : State) : Prop :=
  if s.es = .busy then s.due = none → servicePosition s
  else s.seq = .none ∧ s.rapop = .none ∧ s.rstep = 0 ∧ s.due = none

/-- The counters keep their ranges (10_state.md R28). -/
def CountersOk (s : State) : Prop := s.wc.toNat ≤ identWords ∧ s.np ≤ s.params.pollMaxReads

/-! ## Responses -/

/-- The form of a response that is produced (30_encoding.md R92, R93, 10_state.md R24): one of the six codes, an adapter
error exactly with BUS_IO_ERROR, and the value zero where the table says so. -/
def responseForm (r : Response) : Prop :=
  r.code.toNat ≤ 5 ∧ (r.errv.isSome = true ↔ r.code = 2) ∧
    (r.code = 1 ∨ r.code = 2 ∨ r.code = 5 → r.value = 0)

/-- A valid response, and one that is owed, has that form. -/
def ResponseOk (s : State) : Prop :=
  (s.rspValid = true → responseForm s.rsp) ∧ (∀ r, s.due = some r → responseForm r)

/-- No bus error is swallowed and none is invented (60_exceptions.md R192, R195, R199): `E.BI` stands exactly from the
failing primitive on, through the cleanup of a read, the response owed, and the IDLE state after it. -/
def BusErrorOk (s : State) : Prop :=
  (s.perr.isSome = true → s.bi = true) ∧
    match s.es with
    | .busy =>
      match s.due with
      | none => s.bi = true → s.perr.isSome = true ∧ s.rapop = .read ∧ s.rstep = 6
      | some r => s.bi = true ↔ r.code = 2
    | .idle => s.bi = true ↔ s.rspValid = true ∧ s.rsp.code = 2
    | .uninit => s.bi = false ∧ s.rspValid = false
    | .cfgfail => s.bi = false ∧ s.rspValid = false

/-! ## Lines -/

/-- Every data line is an input: the bus is released (10_state.md R42). -/
def released (l : Lines) : Prop := ∀ i : Fin 16, l.d[i] = .input

/-- Every data line drives its bit of a word (41_register_access.md R131). -/
def drives (l : Lines) (v : Word) : Prop := ∀ i : Fin 16, l.d[i] = dOut (v.getLsbD i)

/-- Chip-select carries `0b01` and the address lines an index (41_register_access.md R121). -/
def selects (l : Lines) (r : RegIdx) : Prop := l.cs = csLevels csValue ∧ l.ad = adLevels r

/-- A call of the RAP. -/
inductive RapCall where
  | read (r : RegIdx)
  | write (r : RegIdx) (v : Word)
deriving DecidableEq, Repr

/-- The RAP call of an IDENTIFY stage; none while the Sequencer itself waits (42_identify.md R151 to R162). -/
def stageCall (s : State) : Option RapCall :=
  match s.seq with
  | .selectDrive => some (.write regLba3 devSelectValue)
  | .clearParams => some (.write (clearReg s.k) clearValue)
  | .issueCommand => some (.write regStatus identifyOpcode)
  | .checkPresence => some (.read regStatus)
  | .awaitDataReady => if s.rapop = .none then none else some (.read regStatus)
  | .burstRead => some (.read regData)
  | .none => none

/-- The RAP call in progress for the latched request. -/
def currentCall (s : State) : Option RapCall :=
  match s.req.instr with
  | some (.rdreg reg) => some (.read reg)
  | some (.wrreg reg value) => some (.write reg value)
  | some .identFix => stageCall s
  | some .identPoll => stageCall s
  | none => none

/-- What the lines hold at each step of `RAP_Read(r)` before anything failed (41_register_access.md R125). -/
def readLines (r : RegIdx) (s : State) : Prop :=
  match s.rapop with
  | .read =>
    if s.rstep = 1 then ∀ i : Fin 16, i.val < s.j.toNat → s.lines.d[i] = .input
    else released s.lines ∧ selects s.lines r ∧ (3 < s.rstep → s.lines.sr = .one)
  | .select => released s.lines ∧ (s.rstep = 2 → s.lines.cs = csLevels csValue)
  | .write => True
  | .none => True

/-- What the lines hold at each step of `RAP_Write(r, v)` before anything failed (41_register_access.md R130). -/
def writeLines (r : RegIdx) (v : Word) (s : State) : Prop :=
  match s.rapop with
  | .write =>
    selects s.lines r ∧
      (if s.rstep = 2 then ∀ i : Fin 16, i.val < s.j.toNat → s.lines.d[i] = dOut (v.getLsbD i)
      else if s.rstep = 4 then
        s.lines.sw = .zero ∧
          ∀ i : Fin 16, s.lines.d[i] = if i.val < s.j.toNat then .input else dOut (v.getLsbD i)
      else
        drives s.lines v ∧ (s.rstep = 32 ∨ s.rstep = 33 → s.lines.sw = .one) ∧
          (s.rstep = 34 → s.lines.sw = .zero))
  | .select => s.rstep = 2 → s.lines.cs = csLevels csValue
  | .read => True
  | .none => True

/-- What the lines hold during a RAP call, or while the Sequencer waits with the bus released. -/
def callLines (c : Option RapCall) (s : State) : Prop :=
  match c with
  | some (.read r) => readLines r s
  | some (.write r v) => writeLines r v s
  | none => released s.lines

/-- What the lines hold while no primitive has failed since the last reinit. After a request that performed a RAP
operation the bus is released (10_state.md R42); an ILLEGAL_REQUEST performs none. -/
def LinesOk (s : State) : Prop :=
  s.bi = false →
    match s.es with
    | .busy =>
      match s.due with
      | some r => r.code = 5 ∨ released s.lines
      | none => callLines (currentCall s) s
    | .idle => s.rspValid = true → s.rsp.code = 5 ∨ released s.lines
    | .uninit => True
    | .cfgfail => True

/-- A strobe is asserted only inside the RAP operation that pulses it: the read strobe from step 4 to step 6 of a read,
the write strobe in steps 3b and 3c of a write (70_reset_and_hazards.md R227, R230). -/
def StrobesOk (s : State) : Prop :=
  (s.lines.sr = .one → s.es = .busy ∧ s.due = none ∧ s.rapop = .read ∧
      (s.rstep = 4 ∨ s.rstep = 5 ∨ s.rstep = 6)) ∧
    (s.lines.sw = .one → s.es = .busy ∧ s.due = none ∧ s.rapop = .write ∧
      (s.rstep = 32 ∨ s.rstep = 33))

/-- The platform leaves both strobes deasserted, or at least not asserted (70_reset_and_hazards.md R227). -/
def PlatformStrobesOff (p : Params) : Prop := p.platInit.sr ≠ .one ∧ p.platInit.sw ≠ .one

/-! ## The invariant -/

/-- What holds in every state that a run reaches. -/
structure Inv (s : State) : Prop where
  params : s.params.wf = true
  buffer : Memory.wf s.idbuf = true
  position : PositionOk s
  counters : CountersOk s
  responses : ResponseOk s
  busErrors : BusErrorOk s
  lines : LinesOk s

end Sys2Proof.Machine
end

