-- ==== Sys2Proof/Certificates/Slice0/Obligations.lean ====
section
/-! DEFINITION. The statements for the provers. Each docstring names the rules of spec/ the statement formalises. A run
of a request is `execTimes i n`: `n` engine steps (00_scope.md R7) on behalf of request `i`. -/

open Sys2Proof Sys2Proof.Machine

/-! ## Encodings -/

/-- Decoding the word of a request gives that request, whatever its operands (30_encoding.md R85, R91, R97).
(R97 is the spec's own inference from R85 to R89.) -/
def Obligations.DecodeOfEncode : Prop :=
  ∀ i : Instr, i.wellFormed = true ∧ decode (encode i) = some i

/-- A word that decodes is the word of its request, so each legal request has exactly one word (30_encoding.md R90,
R91).
(Not a rule of its own: the spec's sentence is R90's "Every encoding is either one of the four legal forms ... or illegal".) -/
def Obligations.EncodeOfDecode : Prop :=
  ∀ (w : Word32) (i : Instr), decode w = some i → encode i = w

/-- The words that 30_encoding.md R97 writes out, the two ends of the register range, and words just outside each form
(R90).
(R97 is the spec's own inference from R85 to R89.) -/
def Obligations.SampleWordsDecode : Prop :=
  decode 0x0000001C = some (.rdreg 7) ∧ decode 0x00000000 = some (.rdreg 0) ∧
    decode 0xBEEF000D = some (.wrreg 3 0xBEEF) ∧ decode 0xFFFF001D = some (.wrreg 7 0xFFFF) ∧
    decode 0x00000002 = some .identFix ∧ decode 0x00000022 = some .identPoll ∧
    decode 0x00000003 = none ∧ decode 0x00000040 = none ∧ decode 0x00000020 = none ∧
    decode 0x00010000 = none ∧ decode 0x00000006 = none ∧ decode 0x00010022 = none

/-- 30_encoding.md R90: a word is illegal exactly if one of the five conditions holds; every other word is one of the
four forms. An illegal word is accepted, is answered ILLEGAL_REQUEST with value 0 in the next step, and the two steps
together perform no primitive and change no state but the response. (`inbox` and `traceMark` are the model's own; the
position is at NONE between requests, R193.) -/
def Obligations.IllegalWordIsAnswered : Prop :=
  (∀ w : Word32, (illegalWord w → decode w = none) ∧
    (¬ illegalWord w → ∃ i : Instr, decode w = some i ∧ encode i = w)) ∧
  ∀ (s : State) (w : Word32) (rest : List Move), CanAccept s → s.inbox = .submit w :: rest → illegalWord w →
    s.seq = .none → s.rapop = .none → s.rstep = 0 → s.due = none →
    ∃ t, stepTimes 2 s = .next t ∧ t.hostResponse = some ⟨5, 0x0000, none⟩ ∧
      t = { s with rsp := ⟨5, 0x0000, none⟩, rspValid := true, inbox := rest, traceMark := s.trace.length }

/-- 60_exceptions.md R201, from every state that can accept: the illegal word makes the engine BUSY, and the step after it
responds; `E.BI`, the lines, the counters and the Identify Buffer are unchanged. -/
def Obligations.IllegalWordIsAcceptedLikeALegalOne : Prop :=
  ∀ (s : State) (w : Word32) (rest : List Move), CanAccept s → s.inbox = .submit w :: rest → illegalWord w →
    ∃ u t, step s = .next u ∧ u.es = .busy ∧ u.trace = s.trace ∧ step u = .next t ∧ t.es = .idle ∧
      t.rsp = ⟨5, 0x0000, none⟩ ∧ t.rspValid = true ∧ t.trace = s.trace ∧ t.bi = s.bi ∧ t.lines = s.lines ∧
      t.k = s.k ∧ t.wc = s.wc ∧ t.np = s.np ∧ t.j = s.j ∧ t.stw = s.stw ∧ t.idbuf = s.idbuf

/-- 30_encoding.md R92: the layout of a response, and `ERRV` present exactly when `CODE` = 2. `ResponseOk` is part of the
invariant that `InvariantHoldsAtReset` and `InvariantIsKept` state. -/
def Obligations.ResponseWordLayout : Prop :=
  ∀ s : State, ResponseOk s → s.rspValid = true →
    s.rsp.word.extractLsb' 16 16 = s.rsp.value ∧ s.rsp.word.extractLsb' 4 12 = 0 ∧
      s.rsp.word.extractLsb' 0 4 = s.rsp.code ∧
      (s.rsp.errv.isSome = true ↔ s.rsp.word.extractLsb' 0 4 = 2)

/-- The assembler: the word of each form by plain arithmetic, a number out of range an error, the register names as
aliases accepted by both register requests, and the two pseudo-instructions (30_encoding.md R95 to R98).
(R97 is the spec's own inference from R85 to R89.) -/
def Obligations.AssembledWords : Prop :=
  (∀ n : Nat, assemble (.rdreg (.number n)) = if n ≤ 7 then some [BitVec.ofNat 32 (4 * n)] else none) ∧
  (∀ n v : Nat, assemble (.wrreg (.number n) v) =
    if n ≤ 7 ∧ v ≤ 0xFFFF then some [BitVec.ofNat 32 (65536 * v + 4 * n + 1)] else none) ∧
  assemble .identFix = some [2] ∧ assemble .identPoll = some [0x22] ∧
  (∀ p ∈ [(RegName.data, 0), (.error, 1), (.feature, 1), (.seccnt, 2), (.lba0, 3), (.lba1, 4), (.lba2, 5),
      (.lba3, 6), (.status, 7), (.command, 7)],
    assemble (.rdreg (.name p.1)) = assemble (.rdreg (.number p.2)) ∧
    ∀ v, assemble (.wrreg (.name p.1) v) = assemble (.wrreg (.number p.2) v)) ∧
  assemble .ident = assemble .identFix ∧
  assemble .dump = some ((List.range 8).map (fun k => BitVec.ofNat 32 (4 * k)))

/-! ## Reset and initialisation -/

/-- The first step from reset runs the configuration check, and leaves the values that 10_state.md R40 gives. That the
check is a step of its own, and that the lines start unknown, are the model's reading (log 9, log 7). -/
def Obligations.ResetValues : Prop :=
  State.reset.es = .uninit ∧
  ∃ t, step State.reset = .next t ∧ (t.es = .idle ∨ t.es = .cfgfail) ∧ (t.es = .idle ↔ t.cfgerr = none) ∧
    t.bi = false ∧ t.rspValid = false ∧ t.stw = 0x0000 ∧ t.k = 0 ∧ t.wc = 0 ∧ t.np = 0 ∧ t.j = 0 ∧
    t.seq = .none ∧ t.rapop = .none ∧ t.rstep = 0 ∧ t.perr = none ∧ t.lines = Lines.allUnknown ∧ t.trace = [] ∧
    t.refused = false

/-- The invariant holds at reset (10_state.md R40). -/
def Obligations.InvariantHoldsAtReset : Prop := Inv State.reset

/-- 70_reset_and_hazards.md R221, R222: the seven roles in order with their counts (`roleTable`); the first one that was
not claimed with exactly its count is recorded, and otherwise none is. The check performs no primitive (R223) and changes
nothing else. The state UNINIT before it is that of State.reset (log 9); a reinit that is the next move there is stated by
`ReinitReestablishesState`, with the check that belongs to it. -/
def Obligations.ConfigurationCheckFindsTheFirstBadRole : Prop :=
  ∀ s : State, s.refused = false → s.es = .uninit → ¬ takesReinit s →
    ∃ t, step s = .next t ∧ t = { s with es := t.es, cfgerr := t.cfgerr } ∧ checkOutcome s.claim t.es t.cfgerr

/-- 70_reset_and_hazards.md R225: what a reinit does, in one step with the check of R221 and R222 over the report it
carries, which records the first failing role in the order of the table. It is taken in UNINIT, CFGFAIL and IDLE
(10_state.md R22), and in CFGFAIL past the words that the host waits with, which stay (`reinitNext`). Which of several moves
comes first is the model's choice and no rule of the spec (log 3): so it is, too, that a reinit which is the next move in
UNINIT comes before the check that is pending there. Nothing is claimed of `E.REQ`, `E.RSP` and `E.SAMPLE`, which R225 leaves unspecified. -/
def Obligations.ReinitReestablishesState : Prop :=
  ∀ (s : State) (c : GroupClaim) (rest : List Move), s.refused = false → reinitNext s c rest →
    ∃ t, step s = .next t ∧ t.lines = s.params.platInit ∧ t.bi = false ∧ t.rspValid = false ∧ t.stw = 0x0000 ∧
      t.k = 0 ∧ t.wc = 0 ∧ t.np = 0 ∧ t.j = 0 ∧ t.rstep = 0 ∧ t.seq = .none ∧ t.rapop = .none ∧ t.perr = none ∧
      t.idbuf = s.idbuf ∧ t.trace = s.trace ∧ t.params = s.params ∧ t.inbox = rest ∧ t.claim = c ∧
      checkOutcome c t.es t.cfgerr

/-- 10_state.md R22: the only ways the engine state changes. A reinit and its check are one step here (R225), so UNINIT is
not seen between them. -/
def Obligations.EngineStateTransitions : Prop :=
  ∀ s t : State, step s = .next t → s.es ≠ t.es →
    (s.es = .uninit ∧ (t.es = .idle ∨ t.es = .cfgfail) ∧ t = s.configCheck) ∨
    (s.es = .idle ∧ t.es = .busy ∧ CanAccept s ∧ ∃ w rest, s.inbox = .submit w :: rest) ∨
    (s.es = .busy ∧ t.es = .idle ∧ t.rspValid = true ∧ s.due = some t.rsp) ∨
    (takesReinit s ∧ s.es ≠ .busy ∧ (t.es = .idle ∨ t.es = .cfgfail))

/-- In CFGFAIL no request is accepted, and nothing ends the state but a reinit (60_exceptions.md R197, R215): while none is
to come, no step changes anything. A reinit that is to come is taken in the next step, whatever words the host waits with,
and those stay outside the engine (R207, R208). That a step with nothing to take answers the same state is the model's
form (log 25). -/
def Obligations.CfgfailAcceptsNothing : Prop :=
  ∀ s : State, s.refused = false → s.es = .cfgfail →
    (∀ i, exec i s = .next s) ∧
    ((∀ c, Move.reinit c ∉ s.inbox) → ∀ n, stepTimes n s = .next s) ∧
    ∀ c, Move.reinit c ∈ s.inbox →
      ∃ t, takesReinit s ∧ step s = .next t ∧ (t.es = .idle ∨ t.es = .cfgfail) ∧ t.trace = s.trace ∧
        ∀ w, Move.submit w ∈ s.inbox → Move.submit w ∈ t.inbox

/-- 60_exceptions.md R209: with no request pending, an IDLE or CFGFAIL engine is at the end of its run. Nothing happens
there but a reinit of the platform, which performs no primitive and after which the run is again ended. With none to come a
step answers the same state, which is the model's form (log 25). -/
def Obligations.EndedRunOnlyRestarts : Prop :=
  ∀ s : State, RunEnded s →
    (s.inbox = [] ∧ ∀ n, stepTimes n s = .next s) ∨
    (takesReinit s ∧ ∃ t, step s = .next t ∧ RunEnded t ∧ t.trace = s.trace)

/-! ## How a request is accepted and answered -/

/-- 60_exceptions.md R207, with the fields of 30_encoding.md R87 to R89: a legal word is decoded, latched and served; while
the engine is in any other state than IDLE a submitted word stays outside and nothing is latched, though a reinit may come
before it; and IDLE with `E.BI` = 1 takes nothing but sets the REFUSED mark (R196). -/
def Obligations.RequestIsAcceptedOnlyWhenIdle : Prop :=
  (∀ (s : State) (w : Word32) (rest : List Move) (i : Instr), CanAccept s → s.inbox = .submit w :: rest →
    decode w = some i →
    ∃ t, step s = .next t ∧ t.es = .busy ∧ t.inbox = rest ∧ t.req.op = w.extractLsb' 0 2 ∧
      t.req.reg = w.extractLsb' 2 3 ∧ t.req.mode = w.extractLsb' 5 1 ∧ t.req.value = w.extractLsb' 16 16 ∧
      t.req = reqOf i) ∧
  (∀ (s t : State) (w : Word32) (rest : List Move), s.inbox = .submit w :: rest → s.es ≠ .idle →
    step s = .next t →
    (t.inbox = s.inbox ∧ t.req = s.req ∧ (t.es = .busy → s.es = .busy)) ∨
    ∃ c moves, reinitNext s c (.submit w :: moves) ∧ t.inbox = .submit w :: moves ∧ t.es ≠ .busy) ∧
  ∀ (s t : State) (w : Word32) (rest : List Move), s.inbox = .submit w :: rest → s.es = .idle → s.bi = true →
    step s = .next t → t = { s with refused := true, inbox := rest }

/-- Every request, of whatever form, is accepted by an engine that can accept: its own first step, with the whole next
state. An IDENTIFY request clears `E.STW` and `E.WC` (42_identify.md R150, 10_state.md R27). The position is the model's
(log 15, log 16). -/
def Obligations.EveryRequestBegins : Prop :=
  ∀ s : State, CanAccept s →
    (∀ reg, exec (.rdreg reg) s = .next { s with
      es := .busy, req := ⟨0b00, reg, 0, 0⟩, due := none, traceMark := s.trace.length
      rapop := .read, rstep := 1, j := 0, perr := none }) ∧
    (∀ reg value, exec (.wrreg reg value) s = .next { s with
      es := .busy, req := ⟨0b01, reg, 0, value⟩, due := none, traceMark := s.trace.length
      rapop := .select, rstep := 1 }) ∧
    exec .identFix s = .next { s with
      es := .busy, req := ⟨0b10, 0, 0, 0⟩, due := none, traceMark := s.trace.length
      stw := 0x0000, wc := 0, seq := .selectDrive, rapop := .select, rstep := 1 } ∧
    exec .identPoll s = .next { s with
      es := .busy, req := ⟨0b10, 0, 1, 0⟩, due := none, traceMark := s.trace.length
      stw := 0x0000, wc := 0, seq := .selectDrive, rapop := .select, rstep := 1 }

/-- 60_exceptions.md R193: delivering a response, for every request, and for a response that belongs to no latched request
(an illegal word's). -/
def Obligations.ResponseIsDelivered : Prop :=
  ∀ (s : State) (r : Response), s.refused = false → s.es = .busy → s.due = some r →
    step s = .next { s with
      rsp := r, rspValid := true, seq := .none, rapop := .none, rstep := 0, es := .idle, due := none } ∧
    ∀ i, s.req = reqOf i → exec i s = step s

/-- 60_exceptions.md R196: a request submitted while `E.BI` = 1 sets the REFUSED mark, and no engine step follows, which the
model shows as a refusal (log 13). -/
def Obligations.RequestAfterBusErrorIsRefused : Prop :=
  (∀ (s : State) (w : Word32) (rest : List Move), s.es = .idle → s.bi = true → s.refused = false →
    s.inbox = .submit w :: rest →
    ∃ t, step s = .next t ∧ t.refused = true ∧ ∀ n, stepTimes (n + 1) t = .refused .requestAfterBusError) ∧
  ∀ (i : Instr) (s : State), s.es = .idle → s.bi = true → s.refused = false →
    exec i s = .next { s with refused := true } ∧ exec i { s with refused := true } = .refused .requestAfterBusError

/-- One step takes the next word from the host, and runs the request it decodes to (60_exceptions.md R207). -/
def Obligations.StepRunsTheDecodedRequest : Prop :=
  ∀ (s : State) (w : Word32) (rest : List Move) (i : Instr), CanAccept s → s.inbox = .submit w :: rest →
    decode w = some i → step s = exec i { s with inbox := rest }

/-- While BUSY, a step is the next step of the latched request (00_scope.md R7, 10_state.md R23). -/
def Obligations.BusyStepServesTheLatchedRequest : Prop :=
  ∀ (s : State) (i : Instr), s.refused = false → s.es = .busy → s.req = reqOf i → step s = exec i s

/-- While BUSY, what host and platform would do next makes no difference: requests wait and no reinit is admitted
(60_exceptions.md R207, 70_reset_and_hazards.md R226). -/
def Obligations.BusyEngineIgnoresHostAndPlatform : Prop :=
  ∀ (s : State) (moves : List Move), s.es = .busy →
    (∀ t, step s = .next t → step { s with inbox := moves } = .next { t with inbox := moves }) ∧
    (∀ f, step s = .fault f → step { s with inbox := moves } = .fault f) ∧
    ∀ r, step s = .refused r → step { s with inbox := moves } = .refused r

/-- Which outcomes a request can have (41_register_access.md R135, R136, 42_identify.md R166, R167; 60_exceptions.md
R202). -/
def Obligations.OutcomesOfEachRequest : Prop :=
  ∀ (i : Instr) (s t : State) (r : Response), Serving i s → exec i s = .next t → t.due = some r →
    r.code ∈ possibleCodes i ∧ (r.code = 3 ∨ r.code = 4 → s.seq = .awaitDataReady) ∧
      (r.code = 1 → s.seq = .checkPresence) ∧
      (r.code = 0 → i = .identFix ∨ i = .identPoll → s.seq = .burstRead)

/-! ## The adapter primitives -/

/-- 40_bus_primitives.md R103: `SetLines` answered `OK` sets every line of the group to its bit, answered `ERR(e)` sets
every line of it to unknown, sets `E.BI` and hands e on. No other line changes, and nothing else but the trace and the
environment's answers. -/
def Obligations.SetLinesDrivesItsGroup : Prop :=
  ∀ (s : State) (g : GroupWrite) (w : Word),
    (s.answer = some ⟨none, w⟩ →
      ∃ t, setLines g s = .ok t ∧ t = { s with
        trace := s.trace ++ [⟨.setLines g, .ok⟩], answers := t.answers, draws := t.draws
        lines := match g with
          | .cs v => { s.lines with cs := #v[triOut v[0], triOut v[1]] }
          | .ad v => { s.lines with ad := #v[triOut v[0], triOut v[1], triOut v[2]] }
          | .sr v => { s.lines with sr := triOut v[0] }
          | .sw v => { s.lines with sw := triOut v[0] } }) ∧
    ∀ e, s.answer = some ⟨some e, w⟩ →
      ∃ t, setLines g s = .err e t ∧ t = { s with
        bi := true, trace := s.trace ++ [⟨.setLines g, .err e⟩], answers := t.answers, draws := t.draws
        lines := match g with
          | .cs _ => { s.lines with cs := #v[.u, .u] }
          | .ad _ => { s.lines with ad := #v[.u, .u, .u] }
          | .sr _ => { s.lines with sr := .u }
          | .sw _ => { s.lines with sw := .u } }

/-- 40_bus_primitives.md R105: `GetLines` answered `OKV(w)` samples w, answered `ERR(e)` sets `E.BI`; it changes no line;
and it is performed only with all sixteen data lines at input. -/
def Obligations.GetLinesSamplesAReleasedBus : Prop :=
  (∀ (s : State) (w : Word),
    (s.answer = some ⟨none, w⟩ →
      ∃ t, getLines s = .ok t ∧ t.sample = w ∧ t.bi = s.bi ∧ t.lines = s.lines ∧
        t.trace = s.trace ++ [⟨.getLines, .okv w⟩]) ∧
    ∀ e, s.answer = some ⟨some e, w⟩ →
      ∃ t, getLines s = .err e t ∧ t.sample = s.sample ∧ t.bi = true ∧ t.lines = s.lines ∧
        t.trace = s.trace ++ [⟨.getLines, .err e⟩]) ∧
  ∀ (s t : State) (a : Answer), Inv s → step s = .next t → t.trace = s.trace ++ [⟨.getLines, a⟩] →
    ∀ k : Fin 16, s.lines.d[k] = .input

/-- 40_bus_primitives.md R107: `SetDir` moves line i alone, to input, to a driven level, or on an error to unknown. -/
def Obligations.SetDirMovesOneLine : Prop :=
  ∀ (s : State) (i : BitVec 4) (d : DirCmd) (w : Word),
    (s.answer = some ⟨none, w⟩ →
      ∃ t, setDir i d s = .ok t ∧ t.bi = s.bi ∧ t.trace = s.trace ++ [⟨.setDir i d, .ok⟩] ∧
        (∀ k : Fin 16, t.lines.d[k] = if k.val = i.toNat then
          (match d with | .input => .input | .output false => .out0 | .output true => .out1) else s.lines.d[k]) ∧
        { t.lines with d := s.lines.d } = s.lines) ∧
    ∀ e, s.answer = some ⟨some e, w⟩ →
      ∃ t, setDir i d s = .err e t ∧ t.bi = true ∧ t.trace = s.trace ++ [⟨.setDir i d, .err e⟩] ∧
        (∀ k : Fin 16, t.lines.d[k] = if k.val = i.toNat then .u else s.lines.d[k]) ∧
        { t.lines with d := s.lines.d } = s.lines

/-- 40_bus_primitives.md R109: a `Sleep` appends its event and changes no register and no line; it has no error. -/
def Obligations.SleepOnlyTakesTime : Prop :=
  ∀ (s : State) (a : Draw) (lo hi : Nat), s.answer = some a →
    ∃ t, sleep lo hi s = .ok t ∧
      t = { s with trace := s.trace ++ [⟨.sleep lo hi, .done⟩], answers := t.answers, draws := t.draws }

/-! ## The Register Access Protocol -/

/-- A whole RDREG that nothing fails: accepted, 22 primitives, answered (41_register_access.md R125, R135, R141). The words
`ws` are the environment's; only the one a `GetLines` takes counts.
(R141, the count, is the spec's own inference.) -/
def Obligations.RdregCompletes : Prop :=
  ∀ (reg : RegIdx) (s : State) (ws : List Word) (rest : List (Option Draw)), CanAccept s →
    s.answers = allOk ws ++ rest → ws.length = 22 →
    ∃ t, execTimes (.rdreg reg) 24 s = .next t ∧ CanAccept t ∧ t.hostResponse = some ⟨0, sampled ws, none⟩ ∧
      t.requestTrace = readEvents reg (sampled ws) ∧ t.trace = s.trace ++ readEvents reg (sampled ws) ∧
      t.bi = false ∧ t.sample = sampled ws ∧
      t.lines.cs = #v[.one, .zero] ∧ t.lines.ad = #v[triOut reg[0], triOut reg[1], triOut reg[2]] ∧
      t.lines.sr = .zero ∧ t.lines.sw = s.lines.sw ∧ released t.lines ∧
      t.lines.led = s.lines.led ∧ t.lines.rst = s.lines.rst ∧
      t.idbuf = s.idbuf ∧ t.stw = s.stw ∧ t.k = s.k ∧ t.wc = s.wc ∧ t.np = s.np ∧ t.cfgerr = s.cfgerr ∧
      t.inbox = s.inbox ∧ t.answers = rest

/-- A whole WRREG that nothing fails: accepted, 38 primitives, answered OK with value 0 (41_register_access.md R130, R136,
R141).
(R141, the count, is the spec's own inference.) -/
def Obligations.WrregCompletes : Prop :=
  ∀ (reg : RegIdx) (value : Word) (s : State) (ws : List Word) (rest : List (Option Draw)), CanAccept s →
    s.answers = allOk ws ++ rest → ws.length = 38 →
    ∃ t, execTimes (.wrreg reg value) 40 s = .next t ∧ CanAccept t ∧ t.hostResponse = some ⟨0, 0x0000, none⟩ ∧
      t.requestTrace = writeEvents reg value ∧ t.trace = s.trace ++ writeEvents reg value ∧
      t.bi = false ∧ t.sample = s.sample ∧
      t.lines.cs = #v[.one, .zero] ∧ t.lines.ad = #v[triOut reg[0], triOut reg[1], triOut reg[2]] ∧
      t.lines.sw = .zero ∧ t.lines.sr = s.lines.sr ∧ released t.lines ∧
      t.lines.led = s.lines.led ∧ t.lines.rst = s.lines.rst ∧
      t.idbuf = s.idbuf ∧ t.stw = s.stw ∧ t.k = s.k ∧ t.wc = s.wc ∧ t.np = s.np ∧ t.cfgerr = s.cfgerr ∧
      t.inbox = s.inbox ∧ t.answers = rest

/-- 41_register_access.md R137: in the loopback environment a write followed at once by a read of the same register
answers the value written. The environment is loopback: the `GetLines` of the read, which comes after its acceptance and
20 primitives, is answered with what the trace so far drove on the lines; and nothing fails.
(R137 is the spec's own inference from R125, R130 and R131.) -/
def Obligations.LoopbackRoundTrip : Prop :=
  ∀ (reg : RegIdx) (v : Word) (s : State) (ws ws' : List Word) (rest : List (Option Draw)), CanAccept s →
    s.answers = allOk ws ++ (allOk ws' ++ rest) → ws.length = 38 → ws'.length = 22 →
    ∃ t m, execTimes (.wrreg reg v) 40 s = .next t ∧ t.hostResponse = some ⟨0, 0x0000, none⟩ ∧
      execTimes (.rdreg reg) 21 t = .next m ∧ m.answers.head? = some (some ⟨none, sampled ws'⟩) ∧
      (sampled ws' = loopbackWord m.trace →
        ∃ u, execTimes (.rdreg reg) 24 t = .next u ∧ u.hostResponse = some ⟨0, v, none⟩)

/-- 41_register_access.md R129: the result of a read and the read strobe after it, by the primitives that failed, for the
RDREG request and for every read inside IDENTIFY (42_identify.md R164). `E.PERR` is none and `E.BI` is 0 until a
primitive fails (the invariant). -/
def Obligations.ReadErrorPrecedence : Prop :=
  ∀ (i : Instr) (r : RegIdx) (s : State), Inv s → Serving i s → currentCall s = some (.read r) →
    -- a data line or a select primitive fails: that error, nothing further, the strobe unchanged
    (∀ e rest, s.answers = fails e :: rest → s.rapop = .read ∧ s.rstep = 1 ∨ s.rapop = .select →
      ∃ t, exec i s = .next t ∧ t.due = some ⟨2, 0x0000, some e⟩ ∧ t.lines.sr = s.lines.sr) ∧
    -- the assert fails: its error, after one deassert as cleanup
    (∀ e x rest, s.answers = fails e :: some x :: rest → s.rapop = .read → s.rstep = 3 →
      ∃ t, execTimes i 2 s = .next t ∧ t.due = some ⟨2, 0x0000, some e⟩ ∧
        t.lines.sr = (if x.err = none then .zero else .u) ∧
        ∃ a, t.trace = s.trace ++ [⟨.setLines (.sr 1), .err e⟩, ⟨.setLines (.sr 0), a⟩]) ∧
    -- the sample fails: its error, whatever the deassert comes to
    (∀ e x rest, s.answers = fails e :: some x :: rest → s.rapop = .read → s.rstep = 5 →
      ∃ t, execTimes i 2 s = .next t ∧ t.due = some ⟨2, 0x0000, some e⟩ ∧
        t.lines.sr = (if x.err = none then .zero else .u)) ∧
    -- only the deassert fails: its error, the sampled word dropped
    (∀ e rest, s.answers = fails e :: rest → s.rapop = .read → s.rstep = 6 → s.perr = none →
      ∃ t, exec i s = .next t ∧ t.due = some ⟨2, 0x0000, some e⟩ ∧ t.lines.sr = .u) ∧
    -- the word is returned only if nothing failed
    ∀ (t : State) (resp : Response), exec i s = .next t → t.due = some resp → resp.code ≠ 2 →
      s.bi = false ∧ t.bi = false ∧ s.perr = none ∧ t.lines.sr = .zero

/-- RDREG answers OK with the word sampled, as soon as the strobe is deasserted (41_register_access.md R125, R135). -/
def Obligations.RdregAnswersTheSample : Prop :=
  ∀ (reg : RegIdx) (s : State) (w : Word), Serving (.rdreg reg) s → s.rapop = .read → s.rstep = 6 → s.perr = none →
    s.answer = some ⟨none, w⟩ →
    ∃ t, exec (.rdreg reg) s = .next t ∧ t.due = some ⟨0, s.sample, none⟩ ∧ t.lines = { s.lines with sr := .zero } ∧
      t.bi = s.bi ∧ t.trace = s.trace ++ [⟨.setLines (.sr 0), .ok⟩]

/-- WRREG answers OK with value 0 as soon as line 15 is back at input, and this last step changes no other line
(41_register_access.md R130, R133, R136). -/
def Obligations.WrregAnswersOk : Prop :=
  ∀ (reg : RegIdx) (value : Word) (s : State) (w : Word), Serving (.wrreg reg value) s → s.rapop = .write →
    s.rstep = 4 → s.j = 15 → s.answer = some ⟨none, w⟩ →
    ∃ t, exec (.wrreg reg value) s = .next t ∧ t.due = some ⟨0, 0x0000, none⟩ ∧
      t.lines = { s.lines with d := s.lines.d.set 15 .input } ∧ t.bi = s.bi ∧
      t.trace = s.trace ++ [⟨.setDir 15 .input, .ok⟩]

/-- 41_register_access.md R140: a read or a write that returns `Ok` leaves every data line at input. A failing write leaves
them as its step says, with nothing undone (R134). A read that fails in step 1 at line j leaves the lines below j at
input and line j unknown (R126, 40_bus_primitives.md R107), and one that fails later leaves all of them at input.
(R140 is the spec's own inference from R130, R133 and R134.) -/
def Obligations.DataLinesAfterARapOperation : Prop :=
  ∀ (i : Instr) (s : State), Inv s → Serving i s → s.bi = false →
    -- a read returns Ok
    (∀ r w, currentCall s = some (.read r) → s.rapop = .read → s.rstep = 6 → s.answer = some ⟨none, w⟩ →
      ∃ t, exec i s = .next t ∧ released t.lines) ∧
    -- a read fails
    (∀ r e w, currentCall s = some (.read r) → s.answer = some ⟨some e, w⟩ →
      (s.rapop = .read → s.rstep = 1 →
        ∃ t, exec i s = .next t ∧ t.due = some ⟨2, 0x0000, some e⟩ ∧ ∀ k : Fin 16, t.lines.d[k] =
          if k.val < s.j.toNat then .input else if k.val = s.j.toNat then .u else s.lines.d[k]) ∧
      (s.rapop = .select ∨ s.rapop = .read ∧ s.rstep = 6 →
        ∃ t, exec i s = .next t ∧ t.due = some ⟨2, 0x0000, some e⟩ ∧ released t.lines) ∧
      (s.rapop = .read → s.rstep = 3 ∨ s.rstep = 5 →
        ∃ t, exec i s = .next t ∧ t.due = none ∧ released t.lines ∧
          ∀ x, t.answer = some x → ∃ u, exec i t = .next u ∧ u.due = some ⟨2, 0x0000, some e⟩ ∧ released u.lines)) ∧
    ∀ r v, currentCall s = some (.write r v) →
      -- a write returns Ok
      (∀ w, s.rapop = .write → s.rstep = 4 → s.j = 15 → s.answer = some ⟨none, w⟩ →
        ∃ t, exec i s = .next t ∧ released t.lines) ∧
      ∀ e w, s.answer = some ⟨some e, w⟩ →
        (s.rapop = .write → s.rstep = 2 →
          ∃ t, exec i s = .next t ∧ t.due = some ⟨2, 0x0000, some e⟩ ∧ ∀ k : Fin 16, t.lines.d[k] =
            if k.val < s.j.toNat then dOut (v.getLsbD k) else if k.val = s.j.toNat then .u else s.lines.d[k]) ∧
        (s.rapop = .write → s.rstep = 31 ∨ s.rstep = 33 →
          ∃ t, exec i s = .next t ∧ t.due = some ⟨2, 0x0000, some e⟩ ∧
            ∀ k : Fin 16, t.lines.d[k] = dOut (v.getLsbD k)) ∧
        (s.rapop = .write → s.rstep = 4 →
          ∃ t, exec i s = .next t ∧ t.due = some ⟨2, 0x0000, some e⟩ ∧ ∀ k : Fin 16, t.lines.d[k] =
            if k.val < s.j.toNat then .input else if k.val = s.j.toNat then .u else dOut (v.getLsbD k)) ∧
        (s.rapop = .select →
          ∃ t, exec i s = .next t ∧ t.due = some ⟨2, 0x0000, some e⟩ ∧ t.lines.d = s.lines.d)

/-- A strobe is asserted only while chip-select carries `01` and the address lines the index of that same operation
(41_register_access.md R138).
(R138 is the spec's own inference from R121, R124, R125 and R130.) -/
def Obligations.SelectBeforeStrobe : Prop :=
  ∀ (i : Instr) (s t : State) (a : Answer), Inv s → Serving i s → exec i s = .next t →
    t.trace = s.trace ++ [⟨.setLines (.sr 1), a⟩] ∨ t.trace = s.trace ++ [⟨.setLines (.sw 1), a⟩] →
    ∃ r : RegIdx, (currentCall s = some (.read r) ∨ ∃ v, currentCall s = some (.write r v)) ∧
      s.lines.cs = #v[.one, .zero] ∧ s.lines.ad = #v[triOut r[0], triOut r[1], triOut r[2]]

/-- No bus error is swallowed: the step that meets the first one either owes BUS_IO_ERROR with that same error, or, for
the two primitives of a read whose cleanup comes first, the next step that the environment answers does
(60_exceptions.md R192, R194, R195, 42_identify.md R164). -/
def Obligations.BusErrorEndsTheRequest : Prop :=
  ∀ (i : Instr) (s : State) (e : AdapterError) (w : Word), Inv s → Serving i s → s.bi = false →
    s.answer = some ⟨some e, w⟩ →
    ∃ t, exec i s = .next t ∧
      (t.bi = false ∧ (∃ lo hi, t.trace = s.trace ++ [⟨.sleep lo hi, .done⟩]) ∨
       t.bi = true ∧ t.due = some ⟨2, 0x0000, some e⟩ ∨
       t.bi = true ∧ t.due = none ∧
         ∀ x, t.answer = some x → ∃ u, exec i t = .next u ∧ u.due = some ⟨2, 0x0000, some e⟩ ∧
           ∃ a, u.trace = t.trace ++ [⟨.setLines (.sr 0), a⟩])

/-! ## IDENTIFY DEVICE -/

/-- 42_identify.md R170: an IDENTIFY whose presence read samples 0 responds ABSENT, after 250 primitives of which the last
are that read; nothing follows, and no byte of the buffer is written. Both modes.
(R170 is the spec's own inference from R154.) -/
def Obligations.IdentifyAbsentDrive : Prop :=
  ∀ (i : Instr) (s : State) (pre pres : List Word) (rest : List (Option Draw)), i = .identFix ∨ i = .identPoll →
    CanAccept s → s.answers = allOk (pre ++ pres) ++ rest → pre.length = 228 → pres.length = 22 →
    sampled pres = 0x0000 →
    ∃ t, execTimes i 252 s = .next t ∧ CanAccept t ∧ t.hostResponse = some ⟨1, 0x0000, none⟩ ∧
      t.requestTrace = presenceEvents 0x0000 ∧ t.idbuf = s.idbuf ∧ t.bi = false ∧ released t.lines ∧
      t.answers = rest

/-- A whole IDENT.FIX that nothing fails and whose drive is present: 5883 primitives in their order, the buffer filled
high byte first, and OK with the presence status (42_identify.md R150 to R156, R162, R163, R166, R168).
(R168, the count, is the spec's own inference.) -/
def Obligations.IdentFixCompletes : Prop :=
  ∀ (s : State) (pre pres : List Word) (d : Word) (blocks : List (List Word)) (rest : List (Option Draw)),
    CanAccept s → s.answers = allOk (pre ++ pres ++ [d] ++ blocks.flatten) ++ rest →
    pre.length = 228 → pres.length = 22 → sampled pres ≠ 0x0000 → readBlocks 256 blocks →
    ∃ t, execTimes .identFix 5885 s = .next t ∧ CanAccept t ∧ t.hostResponse = some ⟨0, sampled pres, none⟩ ∧
      t.requestTrace = presenceEvents (sampled pres) ++
        [⟨.sleep 1000000 s.params.identDelayMaxUs, .done⟩] ++ burstEvents blocks ∧
      bufferHolds t.idbuf blocks ∧ t.wc = 256 ∧ t.stw = sampled pres ∧ t.bi = false ∧ released t.lines ∧
      t.answers = rest

/-- A whole IDENT.POLL that nothing fails and whose drive comes to be ready: the poll reads that go on, the one that is
ready, then the burst; OK with the last status word (42_identify.md R158, R159, R162, R163, R167, R168).
(R168, the count, is the spec's own inference.) -/
def Obligations.IdentPollCompletes : Prop :=
  ∀ (s : State) (pre pres : List Word) (polls : List (List Word)) (ready : List Word) (blocks : List (List Word))
    (rest : List (Option Draw)),
    CanAccept s → s.answers = allOk (pre ++ pres ++ polls.flatten ++ ready ++ blocks.flatten) ++ rest →
    pre.length = 228 → pres.length = 22 → sampled pres ≠ 0x0000 → pollingBlocks polls →
    polls.length + 1 ≤ s.params.pollMaxReads → ready.length = 22 →
    (sampled ready)[0] = false → (sampled ready)[7] = false → (sampled ready)[3] = true → readBlocks 256 blocks →
    ∃ t, execTimes .identPoll (5906 + 23 * polls.length) s = .next t ∧ CanAccept t ∧
      t.hostResponse = some ⟨0, sampled ready, none⟩ ∧
      t.requestTrace = presenceEvents (sampled pres) ++ pollingEvents s.params polls ++
        readEvents 7 (sampled ready) ++ burstEvents blocks ∧
      bufferHolds t.idbuf blocks ∧ t.wc = 256 ∧ t.np = polls.length + 1 ∧ t.stw = sampled ready ∧ t.bi = false ∧
      released t.lines ∧ t.answers = rest

/-- 42_identify.md R160: `POLL_MAX_READS` poll reads that show neither ERR nor readiness end in PROTOCOL_TIMEOUT with the
last status word; `E.BI` stays 0, no Data read is made and the buffer is not written. -/
def Obligations.PollTimeout : Prop :=
  ∀ (s : State) (pre pres : List Word) (polls : List (List Word)) (last : List Word) (rest : List (Option Draw)),
    CanAccept s → s.answers = allOk (pre ++ pres ++ polls.flatten ++ last) ++ rest →
    pre.length = 228 → pres.length = 22 → sampled pres ≠ 0x0000 → pollingBlocks polls →
    polls.length + 1 = s.params.pollMaxReads → last.length = 22 →
    (sampled last)[0] = false → ¬ ((sampled last)[7] = false ∧ (sampled last)[3] = true) →
    ∃ t, execTimes .identPoll (274 + 23 * polls.length) s = .next t ∧ CanAccept t ∧
      t.hostResponse = some ⟨3, sampled last, none⟩ ∧
      t.requestTrace = presenceEvents (sampled pres) ++ pollingEvents s.params polls ++ readEvents 7 (sampled last) ∧
      t.idbuf = s.idbuf ∧ t.bi = false ∧ t.np = s.params.pollMaxReads ∧ t.answers = rest

/-- 42_identify.md R161: a poll read with ERR = 1 ends in DEVICE_ERROR with that status word, whatever BSY and DRQ are;
`E.BI` stays 0, no Data read is made and the buffer is not written. -/
def Obligations.PollDeviceError : Prop :=
  ∀ (s : State) (pre pres : List Word) (polls : List (List Word)) (last : List Word) (rest : List (Option Draw)),
    CanAccept s → s.answers = allOk (pre ++ pres ++ polls.flatten ++ last) ++ rest →
    pre.length = 228 → pres.length = 22 → sampled pres ≠ 0x0000 → pollingBlocks polls →
    polls.length + 1 ≤ s.params.pollMaxReads → last.length = 22 → (sampled last)[0] = true →
    ∃ t, execTimes .identPoll (274 + 23 * polls.length) s = .next t ∧ CanAccept t ∧
      t.hostResponse = some ⟨4, sampled last, none⟩ ∧
      t.requestTrace = presenceEvents (sampled pres) ++ pollingEvents s.params polls ++ readEvents 7 (sampled last) ∧
      t.idbuf = s.idbuf ∧ t.bi = false ∧ t.answers = rest

/-- After PROTOCOL_TIMEOUT or DEVICE_ERROR the lines are those of a successful read of register 7 and `E.BI` is 0, when the
response is owed and when it has been delivered (60_exceptions.md R199).
(R199 is the spec's own inference.) -/
def Obligations.LinesAfterAPollFailure : Prop :=
  ∀ (s t u : State) (r : Response), Inv s → Serving .identPoll s → exec .identPoll s = .next t → t.due = some r →
    r.code = 3 ∨ r.code = 4 → exec .identPoll t = .next u →
    t.bi = false ∧ statusReadDone t.lines ∧
      u.es = .idle ∧ u.rsp = r ∧ u.bi = false ∧ statusReadDone u.lines

/-- 42_identify.md R156: the mode-0 wait is one sleep of at least a second, and BURST_READ follows it: nothing else changes but
the position, which names the first primitive of the next read (log 15, log 16). -/
def Obligations.FixedWaitIsOneSleep : Prop :=
  ∀ (s : State) (a : Draw), Serving .identFix s → s.seq = .awaitDataReady → s.rapop = .none → s.answer = some a →
    ∃ t, exec .identFix s = .next t ∧
      t = { s with
        trace := s.trace ++ [⟨.sleep 1000000 s.params.identDelayMaxUs, .done⟩], seq := .burstRead, rapop := .read
        rstep := 1, j := 0, perr := none, answers := t.answers, draws := t.draws }

/-- The presence test compares the whole word with 0, and the poll counts from 0 (42_identify.md R154, R155, R158). -/
def Obligations.PresenceTestIsOnTheWholeWord : Prop :=
  ∀ (i : Instr) (s : State) (w : Word), i = .identFix ∨ i = .identPoll → Serving i s → s.seq = .checkPresence →
    s.rapop = .read → s.rstep = 6 → s.perr = none → s.answer = some ⟨none, w⟩ →
    ∃ t, exec i s = .next t ∧ t.stw = s.sample ∧
      (s.sample = 0x0000 → t.due = some ⟨1, 0x0000, none⟩) ∧
      (s.sample ≠ 0x0000 → t.due = none ∧ t.seq = .awaitDataReady ∧
        (i = .identFix → t.rapop = .none) ∧ (i = .identPoll → t.rapop = .read ∧ t.rstep = 1 ∧ t.np = 0))

/-- 42_identify.md R159: the tests of a poll read's word s, in their order. -/
def Obligations.PollTestsInOrder : Prop :=
  ∀ (s : State) (w : Word), Serving .identPoll s → s.seq = .awaitDataReady → s.rapop = .read → s.rstep = 6 →
    s.perr = none → s.answer = some ⟨none, w⟩ →
    ∃ t, exec .identPoll s = .next t ∧ t.np = s.np + 1 ∧ t.stw = s.sample ∧
      if s.sample[0] = true then t.due = some ⟨4, s.sample, none⟩
      else if s.sample[7] = false ∧ s.sample[3] = true then
        t.due = none ∧ t.seq = .burstRead ∧ t.rapop = .read ∧ t.rstep = 1
      else if s.np + 1 = s.params.pollMaxReads then t.due = some ⟨3, s.sample, none⟩
      else t.due = none ∧ t.seq = .awaitDataReady ∧
        (∀ x, t.answer = some x → ∃ u, exec .identPoll t = .next u ∧
          u.trace = t.trace ++ [⟨.sleep s.params.pollSleepMinUs s.params.pollSleepMaxUs, .done⟩] ∧
          u.rapop = .read ∧ u.rstep = 1 ∧ u.seq = .awaitDataReady)

/-- 20_memory.md R68, 42_identify.md R162: the step in which a Data read succeeds stores its word high byte first at
offsets 2i and 2i + 1, counts it, and after word 255 owes OK with `E.STW`. -/
def Obligations.DataWordIsStoredHighByteFirst : Prop :=
  ∀ (i : Instr) (s : State) (w : Word), i = .identFix ∨ i = .identPoll → Serving i s → s.seq = .burstRead →
    s.rapop = .read → s.rstep = 6 → s.perr = none → s.wc.toNat < 256 → s.answer = some ⟨none, w⟩ →
    ∃ t, exec i s = .next t ∧ t.wc.toNat = s.wc.toNat + 1 ∧
      Memory.get t.idbuf (2 * s.wc.toNat) = some (s.sample.extractLsb' 8 8) ∧
      Memory.get t.idbuf (2 * s.wc.toNat + 1) = some (s.sample.extractLsb' 0 8) ∧
      (∀ k, k ≠ 2 * s.wc.toNat → k ≠ 2 * s.wc.toNat + 1 → Memory.get t.idbuf k = Memory.get s.idbuf k) ∧
      if s.wc.toNat = 255 then t.due = some ⟨0, s.stw, none⟩
      else t.due = none ∧ t.seq = .burstRead ∧ t.rapop = .read ∧ t.rstep = 1

/-- The stages come in their order, and none comes twice (10_state.md R29, 42_identify.md R150). -/
def Obligations.StagesAreLinear : Prop :=
  ∀ (i : Instr) (s t : State), i = .identFix ∨ i = .identPoll → Serving i s → exec i s = .next t → t.seq ≠ s.seq →
    (s.seq = .selectDrive ∧ t.seq = .clearParams ∧ t.k = 0) ∨
    (s.seq = .clearParams ∧ t.seq = .issueCommand ∧ s.k = 3) ∨
    (s.seq = .issueCommand ∧ t.seq = .checkPresence) ∨
    (s.seq = .checkPresence ∧ t.seq = .awaitDataReady) ∨
    (s.seq = .awaitDataReady ∧ t.seq = .burstRead)

/-! ## What each request leaves unchanged -/

/-- The frame of RDREG, over every step of it: beyond the registers of the RAP, the lines it drives, `E.BI`, the trace and
the answers, only acceptance latches the request and only delivery writes the response; no byte of the buffer, no
counter of the Sequencer and no line but CS, AD, SR and D changes (41_register_access.md R135, 10_state.md R33,
R38). -/
def Obligations.RdregFrame : Prop :=
  ∀ (reg : RegIdx) (s t : State), exec (.rdreg reg) s = .next t →
    t.stw = s.stw ∧ t.k = s.k ∧ t.wc = s.wc ∧ t.np = s.np ∧ t.cfgerr = s.cfgerr ∧ t.params = s.params ∧
      t.claim = s.claim ∧ t.inbox = s.inbox ∧ t.lines.sw = s.lines.sw ∧ t.lines.led = s.lines.led ∧
      t.lines.rst = s.lines.rst ∧ (∀ k, Memory.get t.idbuf k = Memory.get s.idbuf k) ∧
      (s.bi = true → t.bi = true) ∧ (t.seq = s.seq ∨ t.seq = .none ∧ s.due ≠ none) ∧
      (s.due = none → t.rsp = s.rsp ∧ t.rspValid = s.rspValid) ∧
      (t.refused = s.refused ∨ s.es = .idle ∧ s.bi = true) ∧
      (s.es ≠ .idle → t.req = s.req ∧ t.traceMark = s.traceMark)

/-- The frame of WRREG, in the same form; neither `L.SR` nor the latches of a read change (41_register_access.md R136,
10_state.md R33, R38). -/
def Obligations.WrregFrame : Prop :=
  ∀ (reg : RegIdx) (value : Word) (s t : State), exec (.wrreg reg value) s = .next t →
    t.stw = s.stw ∧ t.k = s.k ∧ t.wc = s.wc ∧ t.np = s.np ∧ t.cfgerr = s.cfgerr ∧ t.params = s.params ∧
      t.claim = s.claim ∧ t.inbox = s.inbox ∧ t.lines.sr = s.lines.sr ∧ t.lines.led = s.lines.led ∧
      t.lines.rst = s.lines.rst ∧ t.sample = s.sample ∧ t.perr = s.perr ∧
      (∀ k, Memory.get t.idbuf k = Memory.get s.idbuf k) ∧
      (s.bi = true → t.bi = true) ∧ (t.seq = s.seq ∨ t.seq = .none ∧ s.due ≠ none) ∧
      (s.due = none → t.rsp = s.rsp ∧ t.rspValid = s.rspValid) ∧
      (t.refused = s.refused ∨ s.es = .idle ∧ s.bi = true) ∧
      (s.es ≠ .idle → t.req = s.req ∧ t.traceMark = s.traceMark)

/-- The frame of the two IDENTIFY requests: the bytes they store are the two at `storesAt`, and every other byte is kept
(42_identify.md R163, R166, R167, R169); `E.STW` changes only at acceptance and in the step in which a status read
succeeds, `E.WC` only at acceptance and in the step in which a Data read succeeds, `E.NP` only in the step in which a
status read succeeds in poll mode, and `E.K` only in the step in which a write of the first two stages succeeds. So a
primitive answered `ERR` changes none of the four.
(R169 is the spec's own inference.) -/
def Obligations.IdentifyFrame : Prop :=
  ∀ (i : Instr) (s t : State), i = .identFix ∨ i = .identPoll → exec i s = .next t →
    t.cfgerr = s.cfgerr ∧ t.params = s.params ∧ t.claim = s.claim ∧ t.inbox = s.inbox ∧
      t.lines.led = s.lines.led ∧ t.lines.rst = s.lines.rst ∧ bufferKept s t ∧
      (s.bi = true → t.bi = true) ∧
      (s.due = none → t.rsp = s.rsp ∧ t.rspValid = s.rspValid) ∧
      (t.refused = s.refused ∨ s.es = .idle ∧ s.bi = true) ∧
      (s.es ≠ .idle → t.req = s.req ∧ t.traceMark = s.traceMark) ∧
      (t.stw = s.stw ∨ CanAccept s ∨ (s.seq = .checkPresence ∨ s.seq = .awaitDataReady) ∧ readSucceeds s) ∧
      (t.wc = s.wc ∨ CanAccept s ∨ s.seq = .burstRead ∧ readSucceeds s) ∧
      (t.np = s.np ∨ i = .identPoll ∧ (s.seq = .checkPresence ∨ s.seq = .awaitDataReady) ∧ readSucceeds s) ∧
      (t.k = s.k ∨ (s.seq = .selectDrive ∨ s.seq = .clearParams) ∧ writeSucceeds s)

/-! ## Rules of the whole machine -/

/-- Every step keeps the invariant: the parameters in range, the buffer canonical, the position one of the sequences, the
counters in range, responses well formed, no bus error swallowed or invented, and the lines as the steps left them
(10_state.md R28, R39, 30_encoding.md R92, 41_register_access.md R140, 60_exceptions.md R192).
(R140 is the spec's own inference.) -/
def Obligations.InvariantIsKept : Prop :=
  ∀ s t : State, Inv s → step s = .next t → Inv t

/-- A state of the invariant never stops with a fault; only a run marked REFUSED takes no step (10_state.md R39,
60_exceptions.md R196). -/
def Obligations.OnlyARefusedRunStops : Prop :=
  ∀ s : State, Inv s →
    (s.refused = false → ∃ t, step s = .next t) ∧ (s.refused = true → step s = .refused .requestAfterBusError)

/-- 10_state.md R33: no step drives `L.LED` or `L.RST`; they keep their values until a reinit sets them to `PLAT_INIT`. -/
def Obligations.LedAndResetLinesAreNeverDriven : Prop :=
  ∀ s t : State, step s = .next t →
    (t.lines.led = s.lines.led ∧ t.lines.rst = s.lines.rst) ∨
    (takesReinit s ∧ t.lines.led = s.params.platInit.led ∧ t.lines.rst = s.params.platInit.rst)

/-- `E.BI` is set by exactly the primitives answered `ERR`, and only a reinit clears it (10_state.md R26, R38). -/
def Obligations.BusIndeterminateIsSticky : Prop :=
  ∀ s t : State, step s = .next t →
    (takesReinit s ∧ t.bi = false) ∨
    (t.bi = true ↔ s.bi = true ∨ ∃ ev a, t.trace = s.trace ++ [⟨ev, a⟩] ∧ isError a)

/-- 10_state.md R24, R25: the response is valid from the first one until the next reinit, and keeps its value until the
next one overwrites it. At reset none is valid. -/
def Obligations.ResponseIsHeld : Prop :=
  State.reset.rspValid = false ∧
  ∀ s t : State, step s = .next t →
    (takesReinit s ∧ t.rspValid = false) ∨
    (s.es = .busy ∧ t.es = .idle ∧ s.due = some t.rsp ∧ t.rspValid = true) ∨
    (t.rsp = s.rsp ∧ t.rspValid = s.rspValid)

/-- A step performs at most one primitive, while BUSY, and its answer is a legal one; the lines of the bus change in no
other step but a reinit (00_scope.md R7, R14, 20_memory.md R76, 30_encoding.md R94, 10_state.md R32). -/
def Obligations.OnePrimitiveAtATime : Prop :=
  ∀ s t : State, step s = .next t →
    (∃ ev a, s.es = .busy ∧ t.trace = s.trace ++ [⟨ev, a⟩] ∧ answerFits ev a) ∨
    (t.trace = s.trace ∧ (t.lines = s.lines ∨ takesReinit s ∧ t.lines = s.params.platInit))

/-- The strobes: neither is asserted except inside the RAP operation that pulses it, on a platform that leaves them
deasserted (70_reset_and_hazards.md R227, R230, 41_register_access.md R139). That the strobe lines start unknown is the
model's choice of the default (log 7); the premise names what is needed.
(R139 is the spec's own inference.) -/
def Obligations.StrobesOnlyPulse : Prop :=
  ∀ s t : State, PlatformStrobesOff s.params → StrobesOk s → step s = .next t →
    PlatformStrobesOff t.params ∧ StrobesOk t

/-- The host reads a byte that has been written, while the engine is not BUSY (20_memory.md R67); the response only while
it is IDLE (60_exceptions.md R208). -/
def Obligations.HostReadsWhatWasWritten : Prop :=
  ∀ s : State, s.es ≠ .busy →
    (∀ (read : Nat) (k : BitVec 9) (b : Byte), Memory.get s.idbuf k.toNat = some b → s.hostReadByte read k = b) ∧
    (s.hostResponse = if s.es = .idle ∧ s.rspValid = true then some s.rsp else none)

/-- No step reads the Identify Buffer: with other contents the run is the same in everything else (10_state.md R31,
20_memory.md R66). -/
def Obligations.BufferIsNeverRead : Prop :=
  ∀ (s : State) (m : List Host.Cell),
    (∀ t, step s = .next t → ∃ t', step { s with idbuf := m } = .next t' ∧ { t' with idbuf := t.idbuf } = t) ∧
    (∀ f, step s = .fault f → step { s with idbuf := m } = .fault f) ∧
    ∀ r, step s = .refused r → step { s with idbuf := m } = .refused r

/-- While the environment does not answer, the engine stays where it is (60_exceptions.md R209, R215). -/
def Obligations.SilentEnvironmentLeavesTheEngineBusy : Prop :=
  ∀ (i : Instr) (s : State), Inv s → Serving i s → s.answer = none →
    exec i s = .next s ∧ ∀ n, stepTimes n s = .next s

/-- 70_reset_and_hazards.md R237: if the environment answers every primitive, every request ends, after at most its bound
of primitives (and its acceptance and its response).
(R237 and the counts of R141 and R168 are the spec's own inferences.) -/
def Obligations.EveryRequestEnds : Prop :=
  ∀ (i : Instr) (s : State) (ds : List Draw) (rest : List (Option Draw)), CanAccept s → 1 ≤ s.params.pollMaxReads →
    s.answers = ds.map some ++ rest → primitiveBound s.params i ≤ ds.length →
    ∃ n t, n ≤ primitiveBound s.params i + 2 ∧ execTimes i n s = .next t ∧ t.es = .idle ∧ t.rspValid = true ∧
      t.requestTrace.length + 2 = n
end

