-- ==== Sys2Proof/Laws/State.lean ====
section
/-! SUPPORT. One lemma per field per update of the state, so that no proof unfolds a record update. -/

namespace Sys2Proof.Machine

variable (s : State)

/-! ### withLines -/

@[simp] theorem withLines_es (l : Lines) : (s.withLines l).es = s.es := rfl
@[simp] theorem withLines_req (l : Lines) : (s.withLines l).req = s.req := rfl
@[simp] theorem withLines_rsp (l : Lines) : (s.withLines l).rsp = s.rsp := rfl
@[simp] theorem withLines_rspValid (l : Lines) : (s.withLines l).rspValid = s.rspValid := rfl
@[simp] theorem withLines_bi (l : Lines) : (s.withLines l).bi = s.bi := rfl
@[simp] theorem withLines_stw (l : Lines) : (s.withLines l).stw = s.stw := rfl
@[simp] theorem withLines_k (l : Lines) : (s.withLines l).k = s.k := rfl
@[simp] theorem withLines_wc (l : Lines) : (s.withLines l).wc = s.wc := rfl
@[simp] theorem withLines_np (l : Lines) : (s.withLines l).np = s.np := rfl
@[simp] theorem withLines_seq (l : Lines) : (s.withLines l).seq = s.seq := rfl
@[simp] theorem withLines_rapop (l : Lines) : (s.withLines l).rapop = s.rapop := rfl
@[simp] theorem withLines_rstep (l : Lines) : (s.withLines l).rstep = s.rstep := rfl
@[simp] theorem withLines_j (l : Lines) : (s.withLines l).j = s.j := rfl
@[simp] theorem withLines_sample (l : Lines) : (s.withLines l).sample = s.sample := rfl
@[simp] theorem withLines_perr (l : Lines) : (s.withLines l).perr = s.perr := rfl
@[simp] theorem withLines_cfgerr (l : Lines) : (s.withLines l).cfgerr = s.cfgerr := rfl
@[simp] theorem withLines_idbuf (l : Lines) : (s.withLines l).idbuf = s.idbuf := rfl
@[simp] theorem withLines_lines (l : Lines) : (s.withLines l).lines = l := rfl
@[simp] theorem withLines_trace (l : Lines) : (s.withLines l).trace = s.trace := rfl
@[simp] theorem withLines_refused (l : Lines) : (s.withLines l).refused = s.refused := rfl
@[simp] theorem withLines_params (l : Lines) : (s.withLines l).params = s.params := rfl
@[simp] theorem withLines_claim (l : Lines) : (s.withLines l).claim = s.claim := rfl
@[simp] theorem withLines_due (l : Lines) : (s.withLines l).due = s.due := rfl
@[simp] theorem withLines_inbox (l : Lines) : (s.withLines l).inbox = s.inbox := rfl
@[simp] theorem withLines_answers (l : Lines) : (s.withLines l).answers = s.answers := rfl
@[simp] theorem withLines_draws (l : Lines) : (s.withLines l).draws = s.draws := rfl
@[simp] theorem withLines_traceMark (l : Lines) : (s.withLines l).traceMark = s.traceMark := rfl

/-! ### withSample -/

@[simp] theorem withSample_es (w : Word) : (s.withSample w).es = s.es := rfl
@[simp] theorem withSample_req (w : Word) : (s.withSample w).req = s.req := rfl
@[simp] theorem withSample_rsp (w : Word) : (s.withSample w).rsp = s.rsp := rfl
@[simp] theorem withSample_rspValid (w : Word) : (s.withSample w).rspValid = s.rspValid := rfl
@[simp] theorem withSample_bi (w : Word) : (s.withSample w).bi = s.bi := rfl
@[simp] theorem withSample_stw (w : Word) : (s.withSample w).stw = s.stw := rfl
@[simp] theorem withSample_k (w : Word) : (s.withSample w).k = s.k := rfl
@[simp] theorem withSample_wc (w : Word) : (s.withSample w).wc = s.wc := rfl
@[simp] theorem withSample_np (w : Word) : (s.withSample w).np = s.np := rfl
@[simp] theorem withSample_seq (w : Word) : (s.withSample w).seq = s.seq := rfl
@[simp] theorem withSample_rapop (w : Word) : (s.withSample w).rapop = s.rapop := rfl
@[simp] theorem withSample_rstep (w : Word) : (s.withSample w).rstep = s.rstep := rfl
@[simp] theorem withSample_j (w : Word) : (s.withSample w).j = s.j := rfl
@[simp] theorem withSample_sample (w : Word) : (s.withSample w).sample = w := rfl
@[simp] theorem withSample_perr (w : Word) : (s.withSample w).perr = s.perr := rfl
@[simp] theorem withSample_cfgerr (w : Word) : (s.withSample w).cfgerr = s.cfgerr := rfl
@[simp] theorem withSample_idbuf (w : Word) : (s.withSample w).idbuf = s.idbuf := rfl
@[simp] theorem withSample_lines (w : Word) : (s.withSample w).lines = s.lines := rfl
@[simp] theorem withSample_trace (w : Word) : (s.withSample w).trace = s.trace := rfl
@[simp] theorem withSample_refused (w : Word) : (s.withSample w).refused = s.refused := rfl
@[simp] theorem withSample_params (w : Word) : (s.withSample w).params = s.params := rfl
@[simp] theorem withSample_claim (w : Word) : (s.withSample w).claim = s.claim := rfl
@[simp] theorem withSample_due (w : Word) : (s.withSample w).due = s.due := rfl
@[simp] theorem withSample_inbox (w : Word) : (s.withSample w).inbox = s.inbox := rfl
@[simp] theorem withSample_answers (w : Word) : (s.withSample w).answers = s.answers := rfl
@[simp] theorem withSample_draws (w : Word) : (s.withSample w).draws = s.draws := rfl
@[simp] theorem withSample_traceMark (w : Word) : (s.withSample w).traceMark = s.traceMark := rfl

/-! ### atStep -/

@[simp] theorem atStep_es (op : RapOp) (n : Nat) : (s.atStep op n).es = s.es := rfl
@[simp] theorem atStep_req (op : RapOp) (n : Nat) : (s.atStep op n).req = s.req := rfl
@[simp] theorem atStep_rsp (op : RapOp) (n : Nat) : (s.atStep op n).rsp = s.rsp := rfl
@[simp] theorem atStep_rspValid (op : RapOp) (n : Nat) : (s.atStep op n).rspValid = s.rspValid := rfl
@[simp] theorem atStep_bi (op : RapOp) (n : Nat) : (s.atStep op n).bi = s.bi := rfl
@[simp] theorem atStep_stw (op : RapOp) (n : Nat) : (s.atStep op n).stw = s.stw := rfl
@[simp] theorem atStep_k (op : RapOp) (n : Nat) : (s.atStep op n).k = s.k := rfl
@[simp] theorem atStep_wc (op : RapOp) (n : Nat) : (s.atStep op n).wc = s.wc := rfl
@[simp] theorem atStep_np (op : RapOp) (n : Nat) : (s.atStep op n).np = s.np := rfl
@[simp] theorem atStep_seq (op : RapOp) (n : Nat) : (s.atStep op n).seq = s.seq := rfl
@[simp] theorem atStep_rapop (op : RapOp) (n : Nat) : (s.atStep op n).rapop = op := rfl
@[simp] theorem atStep_rstep (op : RapOp) (n : Nat) : (s.atStep op n).rstep = n := rfl
@[simp] theorem atStep_j (op : RapOp) (n : Nat) : (s.atStep op n).j = s.j := rfl
@[simp] theorem atStep_sample (op : RapOp) (n : Nat) : (s.atStep op n).sample = s.sample := rfl
@[simp] theorem atStep_perr (op : RapOp) (n : Nat) : (s.atStep op n).perr = s.perr := rfl
@[simp] theorem atStep_cfgerr (op : RapOp) (n : Nat) : (s.atStep op n).cfgerr = s.cfgerr := rfl
@[simp] theorem atStep_idbuf (op : RapOp) (n : Nat) : (s.atStep op n).idbuf = s.idbuf := rfl
@[simp] theorem atStep_lines (op : RapOp) (n : Nat) : (s.atStep op n).lines = s.lines := rfl
@[simp] theorem atStep_trace (op : RapOp) (n : Nat) : (s.atStep op n).trace = s.trace := rfl
@[simp] theorem atStep_refused (op : RapOp) (n : Nat) : (s.atStep op n).refused = s.refused := rfl
@[simp] theorem atStep_params (op : RapOp) (n : Nat) : (s.atStep op n).params = s.params := rfl
@[simp] theorem atStep_claim (op : RapOp) (n : Nat) : (s.atStep op n).claim = s.claim := rfl
@[simp] theorem atStep_due (op : RapOp) (n : Nat) : (s.atStep op n).due = s.due := rfl
@[simp] theorem atStep_inbox (op : RapOp) (n : Nat) : (s.atStep op n).inbox = s.inbox := rfl
@[simp] theorem atStep_answers (op : RapOp) (n : Nat) : (s.atStep op n).answers = s.answers := rfl
@[simp] theorem atStep_draws (op : RapOp) (n : Nat) : (s.atStep op n).draws = s.draws := rfl
@[simp] theorem atStep_traceMark (op : RapOp) (n : Nat) : (s.atStep op n).traceMark = s.traceMark := rfl

/-! ### withJ -/

@[simp] theorem withJ_es (j : BitVec 4) : (s.withJ j).es = s.es := rfl
@[simp] theorem withJ_req (j : BitVec 4) : (s.withJ j).req = s.req := rfl
@[simp] theorem withJ_rsp (j : BitVec 4) : (s.withJ j).rsp = s.rsp := rfl
@[simp] theorem withJ_rspValid (j : BitVec 4) : (s.withJ j).rspValid = s.rspValid := rfl
@[simp] theorem withJ_bi (j : BitVec 4) : (s.withJ j).bi = s.bi := rfl
@[simp] theorem withJ_stw (j : BitVec 4) : (s.withJ j).stw = s.stw := rfl
@[simp] theorem withJ_k (j : BitVec 4) : (s.withJ j).k = s.k := rfl
@[simp] theorem withJ_wc (j : BitVec 4) : (s.withJ j).wc = s.wc := rfl
@[simp] theorem withJ_np (j : BitVec 4) : (s.withJ j).np = s.np := rfl
@[simp] theorem withJ_seq (j : BitVec 4) : (s.withJ j).seq = s.seq := rfl
@[simp] theorem withJ_rapop (j : BitVec 4) : (s.withJ j).rapop = s.rapop := rfl
@[simp] theorem withJ_rstep (j : BitVec 4) : (s.withJ j).rstep = s.rstep := rfl
@[simp] theorem withJ_j (j : BitVec 4) : (s.withJ j).j = j := rfl
@[simp] theorem withJ_sample (j : BitVec 4) : (s.withJ j).sample = s.sample := rfl
@[simp] theorem withJ_perr (j : BitVec 4) : (s.withJ j).perr = s.perr := rfl
@[simp] theorem withJ_cfgerr (j : BitVec 4) : (s.withJ j).cfgerr = s.cfgerr := rfl
@[simp] theorem withJ_idbuf (j : BitVec 4) : (s.withJ j).idbuf = s.idbuf := rfl
@[simp] theorem withJ_lines (j : BitVec 4) : (s.withJ j).lines = s.lines := rfl
@[simp] theorem withJ_trace (j : BitVec 4) : (s.withJ j).trace = s.trace := rfl
@[simp] theorem withJ_refused (j : BitVec 4) : (s.withJ j).refused = s.refused := rfl
@[simp] theorem withJ_params (j : BitVec 4) : (s.withJ j).params = s.params := rfl
@[simp] theorem withJ_claim (j : BitVec 4) : (s.withJ j).claim = s.claim := rfl
@[simp] theorem withJ_due (j : BitVec 4) : (s.withJ j).due = s.due := rfl
@[simp] theorem withJ_inbox (j : BitVec 4) : (s.withJ j).inbox = s.inbox := rfl
@[simp] theorem withJ_answers (j : BitVec 4) : (s.withJ j).answers = s.answers := rfl
@[simp] theorem withJ_draws (j : BitVec 4) : (s.withJ j).draws = s.draws := rfl
@[simp] theorem withJ_traceMark (j : BitVec 4) : (s.withJ j).traceMark = s.traceMark := rfl

/-! ### withPerr -/

@[simp] theorem withPerr_es (e : Option AdapterError) : (s.withPerr e).es = s.es := rfl
@[simp] theorem withPerr_req (e : Option AdapterError) : (s.withPerr e).req = s.req := rfl
@[simp] theorem withPerr_rsp (e : Option AdapterError) : (s.withPerr e).rsp = s.rsp := rfl
@[simp] theorem withPerr_rspValid (e : Option AdapterError) : (s.withPerr e).rspValid = s.rspValid := rfl
@[simp] theorem withPerr_bi (e : Option AdapterError) : (s.withPerr e).bi = s.bi := rfl
@[simp] theorem withPerr_stw (e : Option AdapterError) : (s.withPerr e).stw = s.stw := rfl
@[simp] theorem withPerr_k (e : Option AdapterError) : (s.withPerr e).k = s.k := rfl
@[simp] theorem withPerr_wc (e : Option AdapterError) : (s.withPerr e).wc = s.wc := rfl
@[simp] theorem withPerr_np (e : Option AdapterError) : (s.withPerr e).np = s.np := rfl
@[simp] theorem withPerr_seq (e : Option AdapterError) : (s.withPerr e).seq = s.seq := rfl
@[simp] theorem withPerr_rapop (e : Option AdapterError) : (s.withPerr e).rapop = s.rapop := rfl
@[simp] theorem withPerr_rstep (e : Option AdapterError) : (s.withPerr e).rstep = s.rstep := rfl
@[simp] theorem withPerr_j (e : Option AdapterError) : (s.withPerr e).j = s.j := rfl
@[simp] theorem withPerr_sample (e : Option AdapterError) : (s.withPerr e).sample = s.sample := rfl
@[simp] theorem withPerr_perr (e : Option AdapterError) : (s.withPerr e).perr = e := rfl
@[simp] theorem withPerr_cfgerr (e : Option AdapterError) : (s.withPerr e).cfgerr = s.cfgerr := rfl
@[simp] theorem withPerr_idbuf (e : Option AdapterError) : (s.withPerr e).idbuf = s.idbuf := rfl
@[simp] theorem withPerr_lines (e : Option AdapterError) : (s.withPerr e).lines = s.lines := rfl
@[simp] theorem withPerr_trace (e : Option AdapterError) : (s.withPerr e).trace = s.trace := rfl
@[simp] theorem withPerr_refused (e : Option AdapterError) : (s.withPerr e).refused = s.refused := rfl
@[simp] theorem withPerr_params (e : Option AdapterError) : (s.withPerr e).params = s.params := rfl
@[simp] theorem withPerr_claim (e : Option AdapterError) : (s.withPerr e).claim = s.claim := rfl
@[simp] theorem withPerr_due (e : Option AdapterError) : (s.withPerr e).due = s.due := rfl
@[simp] theorem withPerr_inbox (e : Option AdapterError) : (s.withPerr e).inbox = s.inbox := rfl
@[simp] theorem withPerr_answers (e : Option AdapterError) : (s.withPerr e).answers = s.answers := rfl
@[simp] theorem withPerr_draws (e : Option AdapterError) : (s.withPerr e).draws = s.draws := rfl
@[simp] theorem withPerr_traceMark (e : Option AdapterError) : (s.withPerr e).traceMark = s.traceMark := rfl

/-! ### inStage -/

@[simp] theorem inStage_es (st : Stage) : (s.inStage st).es = s.es := rfl
@[simp] theorem inStage_req (st : Stage) : (s.inStage st).req = s.req := rfl
@[simp] theorem inStage_rsp (st : Stage) : (s.inStage st).rsp = s.rsp := rfl
@[simp] theorem inStage_rspValid (st : Stage) : (s.inStage st).rspValid = s.rspValid := rfl
@[simp] theorem inStage_bi (st : Stage) : (s.inStage st).bi = s.bi := rfl
@[simp] theorem inStage_stw (st : Stage) : (s.inStage st).stw = s.stw := rfl
@[simp] theorem inStage_k (st : Stage) : (s.inStage st).k = s.k := rfl
@[simp] theorem inStage_wc (st : Stage) : (s.inStage st).wc = s.wc := rfl
@[simp] theorem inStage_np (st : Stage) : (s.inStage st).np = s.np := rfl
@[simp] theorem inStage_seq (st : Stage) : (s.inStage st).seq = st := rfl
@[simp] theorem inStage_rapop (st : Stage) : (s.inStage st).rapop = s.rapop := rfl
@[simp] theorem inStage_rstep (st : Stage) : (s.inStage st).rstep = s.rstep := rfl
@[simp] theorem inStage_j (st : Stage) : (s.inStage st).j = s.j := rfl
@[simp] theorem inStage_sample (st : Stage) : (s.inStage st).sample = s.sample := rfl
@[simp] theorem inStage_perr (st : Stage) : (s.inStage st).perr = s.perr := rfl
@[simp] theorem inStage_cfgerr (st : Stage) : (s.inStage st).cfgerr = s.cfgerr := rfl
@[simp] theorem inStage_idbuf (st : Stage) : (s.inStage st).idbuf = s.idbuf := rfl
@[simp] theorem inStage_lines (st : Stage) : (s.inStage st).lines = s.lines := rfl
@[simp] theorem inStage_trace (st : Stage) : (s.inStage st).trace = s.trace := rfl
@[simp] theorem inStage_refused (st : Stage) : (s.inStage st).refused = s.refused := rfl
@[simp] theorem inStage_params (st : Stage) : (s.inStage st).params = s.params := rfl
@[simp] theorem inStage_claim (st : Stage) : (s.inStage st).claim = s.claim := rfl
@[simp] theorem inStage_due (st : Stage) : (s.inStage st).due = s.due := rfl
@[simp] theorem inStage_inbox (st : Stage) : (s.inStage st).inbox = s.inbox := rfl
@[simp] theorem inStage_answers (st : Stage) : (s.inStage st).answers = s.answers := rfl
@[simp] theorem inStage_draws (st : Stage) : (s.inStage st).draws = s.draws := rfl
@[simp] theorem inStage_traceMark (st : Stage) : (s.inStage st).traceMark = s.traceMark := rfl

/-! ### withStw -/

@[simp] theorem withStw_es (w : Word) : (s.withStw w).es = s.es := rfl
@[simp] theorem withStw_req (w : Word) : (s.withStw w).req = s.req := rfl
@[simp] theorem withStw_rsp (w : Word) : (s.withStw w).rsp = s.rsp := rfl
@[simp] theorem withStw_rspValid (w : Word) : (s.withStw w).rspValid = s.rspValid := rfl
@[simp] theorem withStw_bi (w : Word) : (s.withStw w).bi = s.bi := rfl
@[simp] theorem withStw_stw (w : Word) : (s.withStw w).stw = w := rfl
@[simp] theorem withStw_k (w : Word) : (s.withStw w).k = s.k := rfl
@[simp] theorem withStw_wc (w : Word) : (s.withStw w).wc = s.wc := rfl
@[simp] theorem withStw_np (w : Word) : (s.withStw w).np = s.np := rfl
@[simp] theorem withStw_seq (w : Word) : (s.withStw w).seq = s.seq := rfl
@[simp] theorem withStw_rapop (w : Word) : (s.withStw w).rapop = s.rapop := rfl
@[simp] theorem withStw_rstep (w : Word) : (s.withStw w).rstep = s.rstep := rfl
@[simp] theorem withStw_j (w : Word) : (s.withStw w).j = s.j := rfl
@[simp] theorem withStw_sample (w : Word) : (s.withStw w).sample = s.sample := rfl
@[simp] theorem withStw_perr (w : Word) : (s.withStw w).perr = s.perr := rfl
@[simp] theorem withStw_cfgerr (w : Word) : (s.withStw w).cfgerr = s.cfgerr := rfl
@[simp] theorem withStw_idbuf (w : Word) : (s.withStw w).idbuf = s.idbuf := rfl
@[simp] theorem withStw_lines (w : Word) : (s.withStw w).lines = s.lines := rfl
@[simp] theorem withStw_trace (w : Word) : (s.withStw w).trace = s.trace := rfl
@[simp] theorem withStw_refused (w : Word) : (s.withStw w).refused = s.refused := rfl
@[simp] theorem withStw_params (w : Word) : (s.withStw w).params = s.params := rfl
@[simp] theorem withStw_claim (w : Word) : (s.withStw w).claim = s.claim := rfl
@[simp] theorem withStw_due (w : Word) : (s.withStw w).due = s.due := rfl
@[simp] theorem withStw_inbox (w : Word) : (s.withStw w).inbox = s.inbox := rfl
@[simp] theorem withStw_answers (w : Word) : (s.withStw w).answers = s.answers := rfl
@[simp] theorem withStw_draws (w : Word) : (s.withStw w).draws = s.draws := rfl
@[simp] theorem withStw_traceMark (w : Word) : (s.withStw w).traceMark = s.traceMark := rfl

/-! ### withK -/

@[simp] theorem withK_es (k : BitVec 2) : (s.withK k).es = s.es := rfl
@[simp] theorem withK_req (k : BitVec 2) : (s.withK k).req = s.req := rfl
@[simp] theorem withK_rsp (k : BitVec 2) : (s.withK k).rsp = s.rsp := rfl
@[simp] theorem withK_rspValid (k : BitVec 2) : (s.withK k).rspValid = s.rspValid := rfl
@[simp] theorem withK_bi (k : BitVec 2) : (s.withK k).bi = s.bi := rfl
@[simp] theorem withK_stw (k : BitVec 2) : (s.withK k).stw = s.stw := rfl
@[simp] theorem withK_k (k : BitVec 2) : (s.withK k).k = k := rfl
@[simp] theorem withK_wc (k : BitVec 2) : (s.withK k).wc = s.wc := rfl
@[simp] theorem withK_np (k : BitVec 2) : (s.withK k).np = s.np := rfl
@[simp] theorem withK_seq (k : BitVec 2) : (s.withK k).seq = s.seq := rfl
@[simp] theorem withK_rapop (k : BitVec 2) : (s.withK k).rapop = s.rapop := rfl
@[simp] theorem withK_rstep (k : BitVec 2) : (s.withK k).rstep = s.rstep := rfl
@[simp] theorem withK_j (k : BitVec 2) : (s.withK k).j = s.j := rfl
@[simp] theorem withK_sample (k : BitVec 2) : (s.withK k).sample = s.sample := rfl
@[simp] theorem withK_perr (k : BitVec 2) : (s.withK k).perr = s.perr := rfl
@[simp] theorem withK_cfgerr (k : BitVec 2) : (s.withK k).cfgerr = s.cfgerr := rfl
@[simp] theorem withK_idbuf (k : BitVec 2) : (s.withK k).idbuf = s.idbuf := rfl
@[simp] theorem withK_lines (k : BitVec 2) : (s.withK k).lines = s.lines := rfl
@[simp] theorem withK_trace (k : BitVec 2) : (s.withK k).trace = s.trace := rfl
@[simp] theorem withK_refused (k : BitVec 2) : (s.withK k).refused = s.refused := rfl
@[simp] theorem withK_params (k : BitVec 2) : (s.withK k).params = s.params := rfl
@[simp] theorem withK_claim (k : BitVec 2) : (s.withK k).claim = s.claim := rfl
@[simp] theorem withK_due (k : BitVec 2) : (s.withK k).due = s.due := rfl
@[simp] theorem withK_inbox (k : BitVec 2) : (s.withK k).inbox = s.inbox := rfl
@[simp] theorem withK_answers (k : BitVec 2) : (s.withK k).answers = s.answers := rfl
@[simp] theorem withK_draws (k : BitVec 2) : (s.withK k).draws = s.draws := rfl
@[simp] theorem withK_traceMark (k : BitVec 2) : (s.withK k).traceMark = s.traceMark := rfl

/-! ### withWc -/

@[simp] theorem withWc_es (n : BitVec 9) : (s.withWc n).es = s.es := rfl
@[simp] theorem withWc_req (n : BitVec 9) : (s.withWc n).req = s.req := rfl
@[simp] theorem withWc_rsp (n : BitVec 9) : (s.withWc n).rsp = s.rsp := rfl
@[simp] theorem withWc_rspValid (n : BitVec 9) : (s.withWc n).rspValid = s.rspValid := rfl
@[simp] theorem withWc_bi (n : BitVec 9) : (s.withWc n).bi = s.bi := rfl
@[simp] theorem withWc_stw (n : BitVec 9) : (s.withWc n).stw = s.stw := rfl
@[simp] theorem withWc_k (n : BitVec 9) : (s.withWc n).k = s.k := rfl
@[simp] theorem withWc_wc (n : BitVec 9) : (s.withWc n).wc = n := rfl
@[simp] theorem withWc_np (n : BitVec 9) : (s.withWc n).np = s.np := rfl
@[simp] theorem withWc_seq (n : BitVec 9) : (s.withWc n).seq = s.seq := rfl
@[simp] theorem withWc_rapop (n : BitVec 9) : (s.withWc n).rapop = s.rapop := rfl
@[simp] theorem withWc_rstep (n : BitVec 9) : (s.withWc n).rstep = s.rstep := rfl
@[simp] theorem withWc_j (n : BitVec 9) : (s.withWc n).j = s.j := rfl
@[simp] theorem withWc_sample (n : BitVec 9) : (s.withWc n).sample = s.sample := rfl
@[simp] theorem withWc_perr (n : BitVec 9) : (s.withWc n).perr = s.perr := rfl
@[simp] theorem withWc_cfgerr (n : BitVec 9) : (s.withWc n).cfgerr = s.cfgerr := rfl
@[simp] theorem withWc_idbuf (n : BitVec 9) : (s.withWc n).idbuf = s.idbuf := rfl
@[simp] theorem withWc_lines (n : BitVec 9) : (s.withWc n).lines = s.lines := rfl
@[simp] theorem withWc_trace (n : BitVec 9) : (s.withWc n).trace = s.trace := rfl
@[simp] theorem withWc_refused (n : BitVec 9) : (s.withWc n).refused = s.refused := rfl
@[simp] theorem withWc_params (n : BitVec 9) : (s.withWc n).params = s.params := rfl
@[simp] theorem withWc_claim (n : BitVec 9) : (s.withWc n).claim = s.claim := rfl
@[simp] theorem withWc_due (n : BitVec 9) : (s.withWc n).due = s.due := rfl
@[simp] theorem withWc_inbox (n : BitVec 9) : (s.withWc n).inbox = s.inbox := rfl
@[simp] theorem withWc_answers (n : BitVec 9) : (s.withWc n).answers = s.answers := rfl
@[simp] theorem withWc_draws (n : BitVec 9) : (s.withWc n).draws = s.draws := rfl
@[simp] theorem withWc_traceMark (n : BitVec 9) : (s.withWc n).traceMark = s.traceMark := rfl

/-! ### withNp -/

@[simp] theorem withNp_es (n : Nat) : (s.withNp n).es = s.es := rfl
@[simp] theorem withNp_req (n : Nat) : (s.withNp n).req = s.req := rfl
@[simp] theorem withNp_rsp (n : Nat) : (s.withNp n).rsp = s.rsp := rfl
@[simp] theorem withNp_rspValid (n : Nat) : (s.withNp n).rspValid = s.rspValid := rfl
@[simp] theorem withNp_bi (n : Nat) : (s.withNp n).bi = s.bi := rfl
@[simp] theorem withNp_stw (n : Nat) : (s.withNp n).stw = s.stw := rfl
@[simp] theorem withNp_k (n : Nat) : (s.withNp n).k = s.k := rfl
@[simp] theorem withNp_wc (n : Nat) : (s.withNp n).wc = s.wc := rfl
@[simp] theorem withNp_np (n : Nat) : (s.withNp n).np = n := rfl
@[simp] theorem withNp_seq (n : Nat) : (s.withNp n).seq = s.seq := rfl
@[simp] theorem withNp_rapop (n : Nat) : (s.withNp n).rapop = s.rapop := rfl
@[simp] theorem withNp_rstep (n : Nat) : (s.withNp n).rstep = s.rstep := rfl
@[simp] theorem withNp_j (n : Nat) : (s.withNp n).j = s.j := rfl
@[simp] theorem withNp_sample (n : Nat) : (s.withNp n).sample = s.sample := rfl
@[simp] theorem withNp_perr (n : Nat) : (s.withNp n).perr = s.perr := rfl
@[simp] theorem withNp_cfgerr (n : Nat) : (s.withNp n).cfgerr = s.cfgerr := rfl
@[simp] theorem withNp_idbuf (n : Nat) : (s.withNp n).idbuf = s.idbuf := rfl
@[simp] theorem withNp_lines (n : Nat) : (s.withNp n).lines = s.lines := rfl
@[simp] theorem withNp_trace (n : Nat) : (s.withNp n).trace = s.trace := rfl
@[simp] theorem withNp_refused (n : Nat) : (s.withNp n).refused = s.refused := rfl
@[simp] theorem withNp_params (n : Nat) : (s.withNp n).params = s.params := rfl
@[simp] theorem withNp_claim (n : Nat) : (s.withNp n).claim = s.claim := rfl
@[simp] theorem withNp_due (n : Nat) : (s.withNp n).due = s.due := rfl
@[simp] theorem withNp_inbox (n : Nat) : (s.withNp n).inbox = s.inbox := rfl
@[simp] theorem withNp_answers (n : Nat) : (s.withNp n).answers = s.answers := rfl
@[simp] theorem withNp_draws (n : Nat) : (s.withNp n).draws = s.draws := rfl
@[simp] theorem withNp_traceMark (n : Nat) : (s.withNp n).traceMark = s.traceMark := rfl

/-! ### storeWord -/

@[simp] theorem storeWord_es (w : Word) : (s.storeWord w).es = s.es := rfl
@[simp] theorem storeWord_req (w : Word) : (s.storeWord w).req = s.req := rfl
@[simp] theorem storeWord_rsp (w : Word) : (s.storeWord w).rsp = s.rsp := rfl
@[simp] theorem storeWord_rspValid (w : Word) : (s.storeWord w).rspValid = s.rspValid := rfl
@[simp] theorem storeWord_bi (w : Word) : (s.storeWord w).bi = s.bi := rfl
@[simp] theorem storeWord_stw (w : Word) : (s.storeWord w).stw = s.stw := rfl
@[simp] theorem storeWord_k (w : Word) : (s.storeWord w).k = s.k := rfl
@[simp] theorem storeWord_wc (w : Word) : (s.storeWord w).wc = s.wc := rfl
@[simp] theorem storeWord_np (w : Word) : (s.storeWord w).np = s.np := rfl
@[simp] theorem storeWord_seq (w : Word) : (s.storeWord w).seq = s.seq := rfl
@[simp] theorem storeWord_rapop (w : Word) : (s.storeWord w).rapop = s.rapop := rfl
@[simp] theorem storeWord_rstep (w : Word) : (s.storeWord w).rstep = s.rstep := rfl
@[simp] theorem storeWord_j (w : Word) : (s.storeWord w).j = s.j := rfl
@[simp] theorem storeWord_sample (w : Word) : (s.storeWord w).sample = s.sample := rfl
@[simp] theorem storeWord_perr (w : Word) : (s.storeWord w).perr = s.perr := rfl
@[simp] theorem storeWord_cfgerr (w : Word) : (s.storeWord w).cfgerr = s.cfgerr := rfl
@[simp] theorem storeWord_idbuf (w : Word) : (s.storeWord w).idbuf = Memory.set (Memory.set s.idbuf (wordOffset s) (highByte w)) (wordOffset s + 1) (lowByte w) := rfl
@[simp] theorem storeWord_lines (w : Word) : (s.storeWord w).lines = s.lines := rfl
@[simp] theorem storeWord_trace (w : Word) : (s.storeWord w).trace = s.trace := rfl
@[simp] theorem storeWord_refused (w : Word) : (s.storeWord w).refused = s.refused := rfl
@[simp] theorem storeWord_params (w : Word) : (s.storeWord w).params = s.params := rfl
@[simp] theorem storeWord_claim (w : Word) : (s.storeWord w).claim = s.claim := rfl
@[simp] theorem storeWord_due (w : Word) : (s.storeWord w).due = s.due := rfl
@[simp] theorem storeWord_inbox (w : Word) : (s.storeWord w).inbox = s.inbox := rfl
@[simp] theorem storeWord_answers (w : Word) : (s.storeWord w).answers = s.answers := rfl
@[simp] theorem storeWord_draws (w : Word) : (s.storeWord w).draws = s.draws := rfl
@[simp] theorem storeWord_traceMark (w : Word) : (s.storeWord w).traceMark = s.traceMark := rfl

/-! ### markIndeterminate -/

@[simp] theorem markIndeterminate_es : (s.markIndeterminate).es = s.es := rfl
@[simp] theorem markIndeterminate_req : (s.markIndeterminate).req = s.req := rfl
@[simp] theorem markIndeterminate_rsp : (s.markIndeterminate).rsp = s.rsp := rfl
@[simp] theorem markIndeterminate_rspValid : (s.markIndeterminate).rspValid = s.rspValid := rfl
@[simp] theorem markIndeterminate_bi : (s.markIndeterminate).bi = true := rfl
@[simp] theorem markIndeterminate_stw : (s.markIndeterminate).stw = s.stw := rfl
@[simp] theorem markIndeterminate_k : (s.markIndeterminate).k = s.k := rfl
@[simp] theorem markIndeterminate_wc : (s.markIndeterminate).wc = s.wc := rfl
@[simp] theorem markIndeterminate_np : (s.markIndeterminate).np = s.np := rfl
@[simp] theorem markIndeterminate_seq : (s.markIndeterminate).seq = s.seq := rfl
@[simp] theorem markIndeterminate_rapop : (s.markIndeterminate).rapop = s.rapop := rfl
@[simp] theorem markIndeterminate_rstep : (s.markIndeterminate).rstep = s.rstep := rfl
@[simp] theorem markIndeterminate_j : (s.markIndeterminate).j = s.j := rfl
@[simp] theorem markIndeterminate_sample : (s.markIndeterminate).sample = s.sample := rfl
@[simp] theorem markIndeterminate_perr : (s.markIndeterminate).perr = s.perr := rfl
@[simp] theorem markIndeterminate_cfgerr : (s.markIndeterminate).cfgerr = s.cfgerr := rfl
@[simp] theorem markIndeterminate_idbuf : (s.markIndeterminate).idbuf = s.idbuf := rfl
@[simp] theorem markIndeterminate_lines : (s.markIndeterminate).lines = s.lines := rfl
@[simp] theorem markIndeterminate_trace : (s.markIndeterminate).trace = s.trace := rfl
@[simp] theorem markIndeterminate_refused : (s.markIndeterminate).refused = s.refused := rfl
@[simp] theorem markIndeterminate_params : (s.markIndeterminate).params = s.params := rfl
@[simp] theorem markIndeterminate_claim : (s.markIndeterminate).claim = s.claim := rfl
@[simp] theorem markIndeterminate_due : (s.markIndeterminate).due = s.due := rfl
@[simp] theorem markIndeterminate_inbox : (s.markIndeterminate).inbox = s.inbox := rfl
@[simp] theorem markIndeterminate_answers : (s.markIndeterminate).answers = s.answers := rfl
@[simp] theorem markIndeterminate_draws : (s.markIndeterminate).draws = s.draws := rfl
@[simp] theorem markIndeterminate_traceMark : (s.markIndeterminate).traceMark = s.traceMark := rfl

/-! ### startRead -/

@[simp] theorem startRead_es : (s.startRead).es = s.es := rfl
@[simp] theorem startRead_req : (s.startRead).req = s.req := rfl
@[simp] theorem startRead_rsp : (s.startRead).rsp = s.rsp := rfl
@[simp] theorem startRead_rspValid : (s.startRead).rspValid = s.rspValid := rfl
@[simp] theorem startRead_bi : (s.startRead).bi = s.bi := rfl
@[simp] theorem startRead_stw : (s.startRead).stw = s.stw := rfl
@[simp] theorem startRead_k : (s.startRead).k = s.k := rfl
@[simp] theorem startRead_wc : (s.startRead).wc = s.wc := rfl
@[simp] theorem startRead_np : (s.startRead).np = s.np := rfl
@[simp] theorem startRead_seq : (s.startRead).seq = s.seq := rfl
@[simp] theorem startRead_rapop : (s.startRead).rapop = .read := rfl
@[simp] theorem startRead_rstep : (s.startRead).rstep = 1 := rfl
@[simp] theorem startRead_j : (s.startRead).j = 0 := rfl
@[simp] theorem startRead_sample : (s.startRead).sample = s.sample := rfl
@[simp] theorem startRead_perr : (s.startRead).perr = none := rfl
@[simp] theorem startRead_cfgerr : (s.startRead).cfgerr = s.cfgerr := rfl
@[simp] theorem startRead_idbuf : (s.startRead).idbuf = s.idbuf := rfl
@[simp] theorem startRead_lines : (s.startRead).lines = s.lines := rfl
@[simp] theorem startRead_trace : (s.startRead).trace = s.trace := rfl
@[simp] theorem startRead_refused : (s.startRead).refused = s.refused := rfl
@[simp] theorem startRead_params : (s.startRead).params = s.params := rfl
@[simp] theorem startRead_claim : (s.startRead).claim = s.claim := rfl
@[simp] theorem startRead_due : (s.startRead).due = s.due := rfl
@[simp] theorem startRead_inbox : (s.startRead).inbox = s.inbox := rfl
@[simp] theorem startRead_answers : (s.startRead).answers = s.answers := rfl
@[simp] theorem startRead_draws : (s.startRead).draws = s.draws := rfl
@[simp] theorem startRead_traceMark : (s.startRead).traceMark = s.traceMark := rfl

/-! ### startWrite -/

@[simp] theorem startWrite_es : (s.startWrite).es = s.es := rfl
@[simp] theorem startWrite_req : (s.startWrite).req = s.req := rfl
@[simp] theorem startWrite_rsp : (s.startWrite).rsp = s.rsp := rfl
@[simp] theorem startWrite_rspValid : (s.startWrite).rspValid = s.rspValid := rfl
@[simp] theorem startWrite_bi : (s.startWrite).bi = s.bi := rfl
@[simp] theorem startWrite_stw : (s.startWrite).stw = s.stw := rfl
@[simp] theorem startWrite_k : (s.startWrite).k = s.k := rfl
@[simp] theorem startWrite_wc : (s.startWrite).wc = s.wc := rfl
@[simp] theorem startWrite_np : (s.startWrite).np = s.np := rfl
@[simp] theorem startWrite_seq : (s.startWrite).seq = s.seq := rfl
@[simp] theorem startWrite_rapop : (s.startWrite).rapop = .select := rfl
@[simp] theorem startWrite_rstep : (s.startWrite).rstep = 1 := rfl
@[simp] theorem startWrite_j : (s.startWrite).j = s.j := rfl
@[simp] theorem startWrite_sample : (s.startWrite).sample = s.sample := rfl
@[simp] theorem startWrite_perr : (s.startWrite).perr = s.perr := rfl
@[simp] theorem startWrite_cfgerr : (s.startWrite).cfgerr = s.cfgerr := rfl
@[simp] theorem startWrite_idbuf : (s.startWrite).idbuf = s.idbuf := rfl
@[simp] theorem startWrite_lines : (s.startWrite).lines = s.lines := rfl
@[simp] theorem startWrite_trace : (s.startWrite).trace = s.trace := rfl
@[simp] theorem startWrite_refused : (s.startWrite).refused = s.refused := rfl
@[simp] theorem startWrite_params : (s.startWrite).params = s.params := rfl
@[simp] theorem startWrite_claim : (s.startWrite).claim = s.claim := rfl
@[simp] theorem startWrite_due : (s.startWrite).due = s.due := rfl
@[simp] theorem startWrite_inbox : (s.startWrite).inbox = s.inbox := rfl
@[simp] theorem startWrite_answers : (s.startWrite).answers = s.answers := rfl
@[simp] theorem startWrite_draws : (s.startWrite).draws = s.draws := rfl
@[simp] theorem startWrite_traceMark : (s.startWrite).traceMark = s.traceMark := rfl

/-! ### startWait -/

@[simp] theorem startWait_es : (s.startWait).es = s.es := rfl
@[simp] theorem startWait_req : (s.startWait).req = s.req := rfl
@[simp] theorem startWait_rsp : (s.startWait).rsp = s.rsp := rfl
@[simp] theorem startWait_rspValid : (s.startWait).rspValid = s.rspValid := rfl
@[simp] theorem startWait_bi : (s.startWait).bi = s.bi := rfl
@[simp] theorem startWait_stw : (s.startWait).stw = s.stw := rfl
@[simp] theorem startWait_k : (s.startWait).k = s.k := rfl
@[simp] theorem startWait_wc : (s.startWait).wc = s.wc := rfl
@[simp] theorem startWait_np : (s.startWait).np = s.np := rfl
@[simp] theorem startWait_seq : (s.startWait).seq = s.seq := rfl
@[simp] theorem startWait_rapop : (s.startWait).rapop = .none := rfl
@[simp] theorem startWait_rstep : (s.startWait).rstep = 0 := rfl
@[simp] theorem startWait_j : (s.startWait).j = s.j := rfl
@[simp] theorem startWait_sample : (s.startWait).sample = s.sample := rfl
@[simp] theorem startWait_perr : (s.startWait).perr = s.perr := rfl
@[simp] theorem startWait_cfgerr : (s.startWait).cfgerr = s.cfgerr := rfl
@[simp] theorem startWait_idbuf : (s.startWait).idbuf = s.idbuf := rfl
@[simp] theorem startWait_lines : (s.startWait).lines = s.lines := rfl
@[simp] theorem startWait_trace : (s.startWait).trace = s.trace := rfl
@[simp] theorem startWait_refused : (s.startWait).refused = s.refused := rfl
@[simp] theorem startWait_params : (s.startWait).params = s.params := rfl
@[simp] theorem startWait_claim : (s.startWait).claim = s.claim := rfl
@[simp] theorem startWait_due : (s.startWait).due = s.due := rfl
@[simp] theorem startWait_inbox : (s.startWait).inbox = s.inbox := rfl
@[simp] theorem startWait_answers : (s.startWait).answers = s.answers := rfl
@[simp] theorem startWait_draws : (s.startWait).draws = s.draws := rfl
@[simp] theorem startWait_traceMark : (s.startWait).traceMark = s.traceMark := rfl

/-! ### accept -/

@[simp] theorem accept_es (r : Req) : (s.accept r).es = .busy := rfl
@[simp] theorem accept_req (r : Req) : (s.accept r).req = r := rfl
@[simp] theorem accept_rsp (r : Req) : (s.accept r).rsp = s.rsp := rfl
@[simp] theorem accept_rspValid (r : Req) : (s.accept r).rspValid = s.rspValid := rfl
@[simp] theorem accept_bi (r : Req) : (s.accept r).bi = s.bi := rfl
@[simp] theorem accept_stw (r : Req) : (s.accept r).stw = s.stw := rfl
@[simp] theorem accept_k (r : Req) : (s.accept r).k = s.k := rfl
@[simp] theorem accept_wc (r : Req) : (s.accept r).wc = s.wc := rfl
@[simp] theorem accept_np (r : Req) : (s.accept r).np = s.np := rfl
@[simp] theorem accept_seq (r : Req) : (s.accept r).seq = s.seq := rfl
@[simp] theorem accept_rapop (r : Req) : (s.accept r).rapop = s.rapop := rfl
@[simp] theorem accept_rstep (r : Req) : (s.accept r).rstep = s.rstep := rfl
@[simp] theorem accept_j (r : Req) : (s.accept r).j = s.j := rfl
@[simp] theorem accept_sample (r : Req) : (s.accept r).sample = s.sample := rfl
@[simp] theorem accept_perr (r : Req) : (s.accept r).perr = s.perr := rfl
@[simp] theorem accept_cfgerr (r : Req) : (s.accept r).cfgerr = s.cfgerr := rfl
@[simp] theorem accept_idbuf (r : Req) : (s.accept r).idbuf = s.idbuf := rfl
@[simp] theorem accept_lines (r : Req) : (s.accept r).lines = s.lines := rfl
@[simp] theorem accept_trace (r : Req) : (s.accept r).trace = s.trace := rfl
@[simp] theorem accept_refused (r : Req) : (s.accept r).refused = s.refused := rfl
@[simp] theorem accept_params (r : Req) : (s.accept r).params = s.params := rfl
@[simp] theorem accept_claim (r : Req) : (s.accept r).claim = s.claim := rfl
@[simp] theorem accept_due (r : Req) : (s.accept r).due = none := rfl
@[simp] theorem accept_inbox (r : Req) : (s.accept r).inbox = s.inbox := rfl
@[simp] theorem accept_answers (r : Req) : (s.accept r).answers = s.answers := rfl
@[simp] theorem accept_draws (r : Req) : (s.accept r).draws = s.draws := rfl
@[simp] theorem accept_traceMark (r : Req) : (s.accept r).traceMark = s.trace.length := rfl

/-! ### owe -/

@[simp] theorem owe_es (r : Response) : (s.owe r).es = s.es := rfl
@[simp] theorem owe_req (r : Response) : (s.owe r).req = s.req := rfl
@[simp] theorem owe_rsp (r : Response) : (s.owe r).rsp = s.rsp := rfl
@[simp] theorem owe_rspValid (r : Response) : (s.owe r).rspValid = s.rspValid := rfl
@[simp] theorem owe_bi (r : Response) : (s.owe r).bi = s.bi := rfl
@[simp] theorem owe_stw (r : Response) : (s.owe r).stw = s.stw := rfl
@[simp] theorem owe_k (r : Response) : (s.owe r).k = s.k := rfl
@[simp] theorem owe_wc (r : Response) : (s.owe r).wc = s.wc := rfl
@[simp] theorem owe_np (r : Response) : (s.owe r).np = s.np := rfl
@[simp] theorem owe_seq (r : Response) : (s.owe r).seq = s.seq := rfl
@[simp] theorem owe_rapop (r : Response) : (s.owe r).rapop = s.rapop := rfl
@[simp] theorem owe_rstep (r : Response) : (s.owe r).rstep = s.rstep := rfl
@[simp] theorem owe_j (r : Response) : (s.owe r).j = s.j := rfl
@[simp] theorem owe_sample (r : Response) : (s.owe r).sample = s.sample := rfl
@[simp] theorem owe_perr (r : Response) : (s.owe r).perr = s.perr := rfl
@[simp] theorem owe_cfgerr (r : Response) : (s.owe r).cfgerr = s.cfgerr := rfl
@[simp] theorem owe_idbuf (r : Response) : (s.owe r).idbuf = s.idbuf := rfl
@[simp] theorem owe_lines (r : Response) : (s.owe r).lines = s.lines := rfl
@[simp] theorem owe_trace (r : Response) : (s.owe r).trace = s.trace := rfl
@[simp] theorem owe_refused (r : Response) : (s.owe r).refused = s.refused := rfl
@[simp] theorem owe_params (r : Response) : (s.owe r).params = s.params := rfl
@[simp] theorem owe_claim (r : Response) : (s.owe r).claim = s.claim := rfl
@[simp] theorem owe_due (r : Response) : (s.owe r).due = some r := rfl
@[simp] theorem owe_inbox (r : Response) : (s.owe r).inbox = s.inbox := rfl
@[simp] theorem owe_answers (r : Response) : (s.owe r).answers = s.answers := rfl
@[simp] theorem owe_draws (r : Response) : (s.owe r).draws = s.draws := rfl
@[simp] theorem owe_traceMark (r : Response) : (s.owe r).traceMark = s.traceMark := rfl

/-! ### respond -/

@[simp] theorem respond_es (r : Response) : (s.respond r).es = .idle := rfl
@[simp] theorem respond_req (r : Response) : (s.respond r).req = s.req := rfl
@[simp] theorem respond_rsp (r : Response) : (s.respond r).rsp = r := rfl
@[simp] theorem respond_rspValid (r : Response) : (s.respond r).rspValid = true := rfl
@[simp] theorem respond_bi (r : Response) : (s.respond r).bi = s.bi := rfl
@[simp] theorem respond_stw (r : Response) : (s.respond r).stw = s.stw := rfl
@[simp] theorem respond_k (r : Response) : (s.respond r).k = s.k := rfl
@[simp] theorem respond_wc (r : Response) : (s.respond r).wc = s.wc := rfl
@[simp] theorem respond_np (r : Response) : (s.respond r).np = s.np := rfl
@[simp] theorem respond_seq (r : Response) : (s.respond r).seq = .none := rfl
@[simp] theorem respond_rapop (r : Response) : (s.respond r).rapop = .none := rfl
@[simp] theorem respond_rstep (r : Response) : (s.respond r).rstep = 0 := rfl
@[simp] theorem respond_j (r : Response) : (s.respond r).j = s.j := rfl
@[simp] theorem respond_sample (r : Response) : (s.respond r).sample = s.sample := rfl
@[simp] theorem respond_perr (r : Response) : (s.respond r).perr = s.perr := rfl
@[simp] theorem respond_cfgerr (r : Response) : (s.respond r).cfgerr = s.cfgerr := rfl
@[simp] theorem respond_idbuf (r : Response) : (s.respond r).idbuf = s.idbuf := rfl
@[simp] theorem respond_lines (r : Response) : (s.respond r).lines = s.lines := rfl
@[simp] theorem respond_trace (r : Response) : (s.respond r).trace = s.trace := rfl
@[simp] theorem respond_refused (r : Response) : (s.respond r).refused = s.refused := rfl
@[simp] theorem respond_params (r : Response) : (s.respond r).params = s.params := rfl
@[simp] theorem respond_claim (r : Response) : (s.respond r).claim = s.claim := rfl
@[simp] theorem respond_due (r : Response) : (s.respond r).due = none := rfl
@[simp] theorem respond_inbox (r : Response) : (s.respond r).inbox = s.inbox := rfl
@[simp] theorem respond_answers (r : Response) : (s.respond r).answers = s.answers := rfl
@[simp] theorem respond_draws (r : Response) : (s.respond r).draws = s.draws := rfl
@[simp] theorem respond_traceMark (r : Response) : (s.respond r).traceMark = s.traceMark := rfl

/-! ### acceptIllegal -/

@[simp] theorem acceptIllegal_es : (s.acceptIllegal).es = .busy := rfl
@[simp] theorem acceptIllegal_req : (s.acceptIllegal).req = s.req := rfl
@[simp] theorem acceptIllegal_rsp : (s.acceptIllegal).rsp = s.rsp := rfl
@[simp] theorem acceptIllegal_rspValid : (s.acceptIllegal).rspValid = s.rspValid := rfl
@[simp] theorem acceptIllegal_bi : (s.acceptIllegal).bi = s.bi := rfl
@[simp] theorem acceptIllegal_stw : (s.acceptIllegal).stw = s.stw := rfl
@[simp] theorem acceptIllegal_k : (s.acceptIllegal).k = s.k := rfl
@[simp] theorem acceptIllegal_wc : (s.acceptIllegal).wc = s.wc := rfl
@[simp] theorem acceptIllegal_np : (s.acceptIllegal).np = s.np := rfl
@[simp] theorem acceptIllegal_seq : (s.acceptIllegal).seq = s.seq := rfl
@[simp] theorem acceptIllegal_rapop : (s.acceptIllegal).rapop = s.rapop := rfl
@[simp] theorem acceptIllegal_rstep : (s.acceptIllegal).rstep = s.rstep := rfl
@[simp] theorem acceptIllegal_j : (s.acceptIllegal).j = s.j := rfl
@[simp] theorem acceptIllegal_sample : (s.acceptIllegal).sample = s.sample := rfl
@[simp] theorem acceptIllegal_perr : (s.acceptIllegal).perr = s.perr := rfl
@[simp] theorem acceptIllegal_cfgerr : (s.acceptIllegal).cfgerr = s.cfgerr := rfl
@[simp] theorem acceptIllegal_idbuf : (s.acceptIllegal).idbuf = s.idbuf := rfl
@[simp] theorem acceptIllegal_lines : (s.acceptIllegal).lines = s.lines := rfl
@[simp] theorem acceptIllegal_trace : (s.acceptIllegal).trace = s.trace := rfl
@[simp] theorem acceptIllegal_refused : (s.acceptIllegal).refused = s.refused := rfl
@[simp] theorem acceptIllegal_params : (s.acceptIllegal).params = s.params := rfl
@[simp] theorem acceptIllegal_claim : (s.acceptIllegal).claim = s.claim := rfl
@[simp] theorem acceptIllegal_due : (s.acceptIllegal).due = some (reply .illegalRequest 0x0000) := rfl
@[simp] theorem acceptIllegal_inbox : (s.acceptIllegal).inbox = s.inbox := rfl
@[simp] theorem acceptIllegal_answers : (s.acceptIllegal).answers = s.answers := rfl
@[simp] theorem acceptIllegal_draws : (s.acceptIllegal).draws = s.draws := rfl
@[simp] theorem acceptIllegal_traceMark : (s.acceptIllegal).traceMark = s.trace.length := rfl

/-! ### refuse -/

@[simp] theorem refuse_es : (s.refuse).es = s.es := rfl
@[simp] theorem refuse_req : (s.refuse).req = s.req := rfl
@[simp] theorem refuse_rsp : (s.refuse).rsp = s.rsp := rfl
@[simp] theorem refuse_rspValid : (s.refuse).rspValid = s.rspValid := rfl
@[simp] theorem refuse_bi : (s.refuse).bi = s.bi := rfl
@[simp] theorem refuse_stw : (s.refuse).stw = s.stw := rfl
@[simp] theorem refuse_k : (s.refuse).k = s.k := rfl
@[simp] theorem refuse_wc : (s.refuse).wc = s.wc := rfl
@[simp] theorem refuse_np : (s.refuse).np = s.np := rfl
@[simp] theorem refuse_seq : (s.refuse).seq = s.seq := rfl
@[simp] theorem refuse_rapop : (s.refuse).rapop = s.rapop := rfl
@[simp] theorem refuse_rstep : (s.refuse).rstep = s.rstep := rfl
@[simp] theorem refuse_j : (s.refuse).j = s.j := rfl
@[simp] theorem refuse_sample : (s.refuse).sample = s.sample := rfl
@[simp] theorem refuse_perr : (s.refuse).perr = s.perr := rfl
@[simp] theorem refuse_cfgerr : (s.refuse).cfgerr = s.cfgerr := rfl
@[simp] theorem refuse_idbuf : (s.refuse).idbuf = s.idbuf := rfl
@[simp] theorem refuse_lines : (s.refuse).lines = s.lines := rfl
@[simp] theorem refuse_trace : (s.refuse).trace = s.trace := rfl
@[simp] theorem refuse_refused : (s.refuse).refused = true := rfl
@[simp] theorem refuse_params : (s.refuse).params = s.params := rfl
@[simp] theorem refuse_claim : (s.refuse).claim = s.claim := rfl
@[simp] theorem refuse_due : (s.refuse).due = s.due := rfl
@[simp] theorem refuse_inbox : (s.refuse).inbox = s.inbox := rfl
@[simp] theorem refuse_answers : (s.refuse).answers = s.answers := rfl
@[simp] theorem refuse_draws : (s.refuse).draws = s.draws := rfl
@[simp] theorem refuse_traceMark : (s.refuse).traceMark = s.traceMark := rfl

/-! ### withInbox -/

@[simp] theorem withInbox_es (moves : List Move) : (s.withInbox moves).es = s.es := rfl
@[simp] theorem withInbox_req (moves : List Move) : (s.withInbox moves).req = s.req := rfl
@[simp] theorem withInbox_rsp (moves : List Move) : (s.withInbox moves).rsp = s.rsp := rfl
@[simp] theorem withInbox_rspValid (moves : List Move) : (s.withInbox moves).rspValid = s.rspValid := rfl
@[simp] theorem withInbox_bi (moves : List Move) : (s.withInbox moves).bi = s.bi := rfl
@[simp] theorem withInbox_stw (moves : List Move) : (s.withInbox moves).stw = s.stw := rfl
@[simp] theorem withInbox_k (moves : List Move) : (s.withInbox moves).k = s.k := rfl
@[simp] theorem withInbox_wc (moves : List Move) : (s.withInbox moves).wc = s.wc := rfl
@[simp] theorem withInbox_np (moves : List Move) : (s.withInbox moves).np = s.np := rfl
@[simp] theorem withInbox_seq (moves : List Move) : (s.withInbox moves).seq = s.seq := rfl
@[simp] theorem withInbox_rapop (moves : List Move) : (s.withInbox moves).rapop = s.rapop := rfl
@[simp] theorem withInbox_rstep (moves : List Move) : (s.withInbox moves).rstep = s.rstep := rfl
@[simp] theorem withInbox_j (moves : List Move) : (s.withInbox moves).j = s.j := rfl
@[simp] theorem withInbox_sample (moves : List Move) : (s.withInbox moves).sample = s.sample := rfl
@[simp] theorem withInbox_perr (moves : List Move) : (s.withInbox moves).perr = s.perr := rfl
@[simp] theorem withInbox_cfgerr (moves : List Move) : (s.withInbox moves).cfgerr = s.cfgerr := rfl
@[simp] theorem withInbox_idbuf (moves : List Move) : (s.withInbox moves).idbuf = s.idbuf := rfl
@[simp] theorem withInbox_lines (moves : List Move) : (s.withInbox moves).lines = s.lines := rfl
@[simp] theorem withInbox_trace (moves : List Move) : (s.withInbox moves).trace = s.trace := rfl
@[simp] theorem withInbox_refused (moves : List Move) : (s.withInbox moves).refused = s.refused := rfl
@[simp] theorem withInbox_params (moves : List Move) : (s.withInbox moves).params = s.params := rfl
@[simp] theorem withInbox_claim (moves : List Move) : (s.withInbox moves).claim = s.claim := rfl
@[simp] theorem withInbox_due (moves : List Move) : (s.withInbox moves).due = s.due := rfl
@[simp] theorem withInbox_inbox (moves : List Move) : (s.withInbox moves).inbox = moves := rfl
@[simp] theorem withInbox_answers (moves : List Move) : (s.withInbox moves).answers = s.answers := rfl
@[simp] theorem withInbox_draws (moves : List Move) : (s.withInbox moves).draws = s.draws := rfl
@[simp] theorem withInbox_traceMark (moves : List Move) : (s.withInbox moves).traceMark = s.traceMark := rfl

/-! ### reinitRegs -/

@[simp] theorem reinitRegs_es (c : GroupClaim) : (s.reinitRegs c).es = .uninit := rfl
@[simp] theorem reinitRegs_req (c : GroupClaim) : (s.reinitRegs c).req = 
    ⟨Config.freeBits 2 s.draws, Config.freeBits 3 (s.draws + 1), Config.freeBits 1 (s.draws + 2),
      Config.freeBits 16 (s.draws + 3)⟩ := rfl
@[simp] theorem reinitRegs_rsp (c : GroupClaim) : (s.reinitRegs c).rsp = 
    ⟨Config.freeBits 4 (s.draws + 4), Config.freeBits 16 (s.draws + 5), Config.freeError (s.draws + 6)⟩ := rfl
@[simp] theorem reinitRegs_rspValid (c : GroupClaim) : (s.reinitRegs c).rspValid = false := rfl
@[simp] theorem reinitRegs_bi (c : GroupClaim) : (s.reinitRegs c).bi = false := rfl
@[simp] theorem reinitRegs_stw (c : GroupClaim) : (s.reinitRegs c).stw = 0x0000 := rfl
@[simp] theorem reinitRegs_k (c : GroupClaim) : (s.reinitRegs c).k = 0 := rfl
@[simp] theorem reinitRegs_wc (c : GroupClaim) : (s.reinitRegs c).wc = 0 := rfl
@[simp] theorem reinitRegs_np (c : GroupClaim) : (s.reinitRegs c).np = 0 := rfl
@[simp] theorem reinitRegs_seq (c : GroupClaim) : (s.reinitRegs c).seq = .none := rfl
@[simp] theorem reinitRegs_rapop (c : GroupClaim) : (s.reinitRegs c).rapop = .none := rfl
@[simp] theorem reinitRegs_rstep (c : GroupClaim) : (s.reinitRegs c).rstep = 0 := rfl
@[simp] theorem reinitRegs_j (c : GroupClaim) : (s.reinitRegs c).j = 0 := rfl
@[simp] theorem reinitRegs_sample (c : GroupClaim) : (s.reinitRegs c).sample = Config.freeBits 16 (s.draws + 7) := rfl
@[simp] theorem reinitRegs_perr (c : GroupClaim) : (s.reinitRegs c).perr = none := rfl
@[simp] theorem reinitRegs_cfgerr (c : GroupClaim) : (s.reinitRegs c).cfgerr = s.cfgerr := rfl
@[simp] theorem reinitRegs_idbuf (c : GroupClaim) : (s.reinitRegs c).idbuf = s.idbuf := rfl
@[simp] theorem reinitRegs_lines (c : GroupClaim) : (s.reinitRegs c).lines = s.params.platInit := rfl
@[simp] theorem reinitRegs_trace (c : GroupClaim) : (s.reinitRegs c).trace = s.trace := rfl
@[simp] theorem reinitRegs_refused (c : GroupClaim) : (s.reinitRegs c).refused = s.refused := rfl
@[simp] theorem reinitRegs_params (c : GroupClaim) : (s.reinitRegs c).params = s.params := rfl
@[simp] theorem reinitRegs_claim (c : GroupClaim) : (s.reinitRegs c).claim = c := rfl
@[simp] theorem reinitRegs_due (c : GroupClaim) : (s.reinitRegs c).due = none := rfl
@[simp] theorem reinitRegs_inbox (c : GroupClaim) : (s.reinitRegs c).inbox = s.inbox := rfl
@[simp] theorem reinitRegs_answers (c : GroupClaim) : (s.reinitRegs c).answers = s.answers := rfl
@[simp] theorem reinitRegs_draws (c : GroupClaim) : (s.reinitRegs c).draws = s.draws + 8 := rfl
@[simp] theorem reinitRegs_traceMark (c : GroupClaim) : (s.reinitRegs c).traceMark = s.traceMark := rfl

/-! ### submitNext -/

@[simp] theorem submitNext_es (w : Word32) : (s.submitNext w).es = .idle := rfl
@[simp] theorem submitNext_req (w : Word32) : (s.submitNext w).req = s.req := rfl
@[simp] theorem submitNext_rsp (w : Word32) : (s.submitNext w).rsp = s.rsp := rfl
@[simp] theorem submitNext_rspValid (w : Word32) : (s.submitNext w).rspValid = s.rspValid := rfl
@[simp] theorem submitNext_bi (w : Word32) : (s.submitNext w).bi = false := rfl
@[simp] theorem submitNext_stw (w : Word32) : (s.submitNext w).stw = s.stw := rfl
@[simp] theorem submitNext_k (w : Word32) : (s.submitNext w).k = s.k := rfl
@[simp] theorem submitNext_wc (w : Word32) : (s.submitNext w).wc = s.wc := rfl
@[simp] theorem submitNext_np (w : Word32) : (s.submitNext w).np = s.np := rfl
@[simp] theorem submitNext_seq (w : Word32) : (s.submitNext w).seq = s.seq := rfl
@[simp] theorem submitNext_rapop (w : Word32) : (s.submitNext w).rapop = s.rapop := rfl
@[simp] theorem submitNext_rstep (w : Word32) : (s.submitNext w).rstep = s.rstep := rfl
@[simp] theorem submitNext_j (w : Word32) : (s.submitNext w).j = s.j := rfl
@[simp] theorem submitNext_sample (w : Word32) : (s.submitNext w).sample = s.sample := rfl
@[simp] theorem submitNext_perr (w : Word32) : (s.submitNext w).perr = s.perr := rfl
@[simp] theorem submitNext_cfgerr (w : Word32) : (s.submitNext w).cfgerr = s.cfgerr := rfl
@[simp] theorem submitNext_idbuf (w : Word32) : (s.submitNext w).idbuf = s.idbuf := rfl
@[simp] theorem submitNext_lines (w : Word32) : (s.submitNext w).lines = s.lines := rfl
@[simp] theorem submitNext_trace (w : Word32) : (s.submitNext w).trace = s.trace := rfl
@[simp] theorem submitNext_refused (w : Word32) : (s.submitNext w).refused = false := rfl
@[simp] theorem submitNext_params (w : Word32) : (s.submitNext w).params = s.params := rfl
@[simp] theorem submitNext_claim (w : Word32) : (s.submitNext w).claim = s.claim := rfl
@[simp] theorem submitNext_due (w : Word32) : (s.submitNext w).due = s.due := rfl
@[simp] theorem submitNext_inbox (w : Word32) : (s.submitNext w).inbox = .submit w :: s.inbox := rfl
@[simp] theorem submitNext_answers (w : Word32) : (s.submitNext w).answers = s.answers := rfl
@[simp] theorem submitNext_draws (w : Word32) : (s.submitNext w).draws = s.draws := rfl
@[simp] theorem submitNext_traceMark (w : Word32) : (s.submitNext w).traceMark = s.traceMark := rfl

/-! ### afterSelectDrive -/

@[simp] theorem afterSelectDrive_es : (afterSelectDrive s).es = s.es := rfl
@[simp] theorem afterSelectDrive_req : (afterSelectDrive s).req = s.req := rfl
@[simp] theorem afterSelectDrive_rsp : (afterSelectDrive s).rsp = s.rsp := rfl
@[simp] theorem afterSelectDrive_rspValid : (afterSelectDrive s).rspValid = s.rspValid := rfl
@[simp] theorem afterSelectDrive_bi : (afterSelectDrive s).bi = s.bi := rfl
@[simp] theorem afterSelectDrive_stw : (afterSelectDrive s).stw = s.stw := rfl
@[simp] theorem afterSelectDrive_k : (afterSelectDrive s).k = 0 := rfl
@[simp] theorem afterSelectDrive_wc : (afterSelectDrive s).wc = s.wc := rfl
@[simp] theorem afterSelectDrive_np : (afterSelectDrive s).np = s.np := rfl
@[simp] theorem afterSelectDrive_seq : (afterSelectDrive s).seq = .clearParams := rfl
@[simp] theorem afterSelectDrive_rapop : (afterSelectDrive s).rapop = .select := rfl
@[simp] theorem afterSelectDrive_rstep : (afterSelectDrive s).rstep = 1 := rfl
@[simp] theorem afterSelectDrive_j : (afterSelectDrive s).j = s.j := rfl
@[simp] theorem afterSelectDrive_sample : (afterSelectDrive s).sample = s.sample := rfl
@[simp] theorem afterSelectDrive_perr : (afterSelectDrive s).perr = s.perr := rfl
@[simp] theorem afterSelectDrive_cfgerr : (afterSelectDrive s).cfgerr = s.cfgerr := rfl
@[simp] theorem afterSelectDrive_idbuf : (afterSelectDrive s).idbuf = s.idbuf := rfl
@[simp] theorem afterSelectDrive_lines : (afterSelectDrive s).lines = s.lines := rfl
@[simp] theorem afterSelectDrive_trace : (afterSelectDrive s).trace = s.trace := rfl
@[simp] theorem afterSelectDrive_refused : (afterSelectDrive s).refused = s.refused := rfl
@[simp] theorem afterSelectDrive_params : (afterSelectDrive s).params = s.params := rfl
@[simp] theorem afterSelectDrive_claim : (afterSelectDrive s).claim = s.claim := rfl
@[simp] theorem afterSelectDrive_due : (afterSelectDrive s).due = s.due := rfl
@[simp] theorem afterSelectDrive_inbox : (afterSelectDrive s).inbox = s.inbox := rfl
@[simp] theorem afterSelectDrive_answers : (afterSelectDrive s).answers = s.answers := rfl
@[simp] theorem afterSelectDrive_draws : (afterSelectDrive s).draws = s.draws := rfl
@[simp] theorem afterSelectDrive_traceMark : (afterSelectDrive s).traceMark = s.traceMark := rfl

/-! ### afterCommand -/

@[simp] theorem afterCommand_es : (afterCommand s).es = s.es := rfl
@[simp] theorem afterCommand_req : (afterCommand s).req = s.req := rfl
@[simp] theorem afterCommand_rsp : (afterCommand s).rsp = s.rsp := rfl
@[simp] theorem afterCommand_rspValid : (afterCommand s).rspValid = s.rspValid := rfl
@[simp] theorem afterCommand_bi : (afterCommand s).bi = s.bi := rfl
@[simp] theorem afterCommand_stw : (afterCommand s).stw = s.stw := rfl
@[simp] theorem afterCommand_k : (afterCommand s).k = s.k := rfl
@[simp] theorem afterCommand_wc : (afterCommand s).wc = s.wc := rfl
@[simp] theorem afterCommand_np : (afterCommand s).np = s.np := rfl
@[simp] theorem afterCommand_seq : (afterCommand s).seq = .checkPresence := rfl
@[simp] theorem afterCommand_rapop : (afterCommand s).rapop = .read := rfl
@[simp] theorem afterCommand_rstep : (afterCommand s).rstep = 1 := rfl
@[simp] theorem afterCommand_j : (afterCommand s).j = 0 := rfl
@[simp] theorem afterCommand_sample : (afterCommand s).sample = s.sample := rfl
@[simp] theorem afterCommand_perr : (afterCommand s).perr = none := rfl
@[simp] theorem afterCommand_cfgerr : (afterCommand s).cfgerr = s.cfgerr := rfl
@[simp] theorem afterCommand_idbuf : (afterCommand s).idbuf = s.idbuf := rfl
@[simp] theorem afterCommand_lines : (afterCommand s).lines = s.lines := rfl
@[simp] theorem afterCommand_trace : (afterCommand s).trace = s.trace := rfl
@[simp] theorem afterCommand_refused : (afterCommand s).refused = s.refused := rfl
@[simp] theorem afterCommand_params : (afterCommand s).params = s.params := rfl
@[simp] theorem afterCommand_claim : (afterCommand s).claim = s.claim := rfl
@[simp] theorem afterCommand_due : (afterCommand s).due = s.due := rfl
@[simp] theorem afterCommand_inbox : (afterCommand s).inbox = s.inbox := rfl
@[simp] theorem afterCommand_answers : (afterCommand s).answers = s.answers := rfl
@[simp] theorem afterCommand_draws : (afterCommand s).draws = s.draws := rfl
@[simp] theorem afterCommand_traceMark : (afterCommand s).traceMark = s.traceMark := rfl

/-! ### startBurst -/

@[simp] theorem startBurst_es : (startBurst s).es = s.es := rfl
@[simp] theorem startBurst_req : (startBurst s).req = s.req := rfl
@[simp] theorem startBurst_rsp : (startBurst s).rsp = s.rsp := rfl
@[simp] theorem startBurst_rspValid : (startBurst s).rspValid = s.rspValid := rfl
@[simp] theorem startBurst_bi : (startBurst s).bi = s.bi := rfl
@[simp] theorem startBurst_stw : (startBurst s).stw = s.stw := rfl
@[simp] theorem startBurst_k : (startBurst s).k = s.k := rfl
@[simp] theorem startBurst_wc : (startBurst s).wc = s.wc := rfl
@[simp] theorem startBurst_np : (startBurst s).np = s.np := rfl
@[simp] theorem startBurst_seq : (startBurst s).seq = .burstRead := rfl
@[simp] theorem startBurst_rapop : (startBurst s).rapop = .read := rfl
@[simp] theorem startBurst_rstep : (startBurst s).rstep = 1 := rfl
@[simp] theorem startBurst_j : (startBurst s).j = 0 := rfl
@[simp] theorem startBurst_sample : (startBurst s).sample = s.sample := rfl
@[simp] theorem startBurst_perr : (startBurst s).perr = none := rfl
@[simp] theorem startBurst_cfgerr : (startBurst s).cfgerr = s.cfgerr := rfl
@[simp] theorem startBurst_idbuf : (startBurst s).idbuf = s.idbuf := rfl
@[simp] theorem startBurst_lines : (startBurst s).lines = s.lines := rfl
@[simp] theorem startBurst_trace : (startBurst s).trace = s.trace := rfl
@[simp] theorem startBurst_refused : (startBurst s).refused = s.refused := rfl
@[simp] theorem startBurst_params : (startBurst s).params = s.params := rfl
@[simp] theorem startBurst_claim : (startBurst s).claim = s.claim := rfl
@[simp] theorem startBurst_due : (startBurst s).due = s.due := rfl
@[simp] theorem startBurst_inbox : (startBurst s).inbox = s.inbox := rfl
@[simp] theorem startBurst_answers : (startBurst s).answers = s.answers := rfl
@[simp] theorem startBurst_draws : (startBurst s).draws = s.draws := rfl
@[simp] theorem startBurst_traceMark : (startBurst s).traceMark = s.traceMark := rfl

/-! ### startIdentify -/

@[simp] theorem startIdentify_es : (s.startIdentify).es = s.es := rfl
@[simp] theorem startIdentify_req : (s.startIdentify).req = s.req := rfl
@[simp] theorem startIdentify_rsp : (s.startIdentify).rsp = s.rsp := rfl
@[simp] theorem startIdentify_rspValid : (s.startIdentify).rspValid = s.rspValid := rfl
@[simp] theorem startIdentify_bi : (s.startIdentify).bi = s.bi := rfl
@[simp] theorem startIdentify_stw : (s.startIdentify).stw = 0x0000 := rfl
@[simp] theorem startIdentify_k : (s.startIdentify).k = s.k := rfl
@[simp] theorem startIdentify_wc : (s.startIdentify).wc = 0 := rfl
@[simp] theorem startIdentify_np : (s.startIdentify).np = s.np := rfl
@[simp] theorem startIdentify_seq : (s.startIdentify).seq = .selectDrive := rfl
@[simp] theorem startIdentify_rapop : (s.startIdentify).rapop = .select := rfl
@[simp] theorem startIdentify_rstep : (s.startIdentify).rstep = 1 := rfl
@[simp] theorem startIdentify_j : (s.startIdentify).j = s.j := rfl
@[simp] theorem startIdentify_sample : (s.startIdentify).sample = s.sample := rfl
@[simp] theorem startIdentify_perr : (s.startIdentify).perr = s.perr := rfl
@[simp] theorem startIdentify_cfgerr : (s.startIdentify).cfgerr = s.cfgerr := rfl
@[simp] theorem startIdentify_idbuf : (s.startIdentify).idbuf = s.idbuf := rfl
@[simp] theorem startIdentify_lines : (s.startIdentify).lines = s.lines := rfl
@[simp] theorem startIdentify_trace : (s.startIdentify).trace = s.trace := rfl
@[simp] theorem startIdentify_refused : (s.startIdentify).refused = s.refused := rfl
@[simp] theorem startIdentify_params : (s.startIdentify).params = s.params := rfl
@[simp] theorem startIdentify_claim : (s.startIdentify).claim = s.claim := rfl
@[simp] theorem startIdentify_due : (s.startIdentify).due = s.due := rfl
@[simp] theorem startIdentify_inbox : (s.startIdentify).inbox = s.inbox := rfl
@[simp] theorem startIdentify_answers : (s.startIdentify).answers = s.answers := rfl
@[simp] theorem startIdentify_draws : (s.startIdentify).draws = s.draws := rfl
@[simp] theorem startIdentify_traceMark : (s.startIdentify).traceMark = s.traceMark := rfl

/-! ### consume and record: only the answers, the draws and the trace change -/

@[simp] theorem consume_es : s.consume.es = s.es := by
  unfold State.consume; split <;> rfl
@[simp] theorem consume_req : s.consume.req = s.req := by
  unfold State.consume; split <;> rfl
@[simp] theorem consume_rsp : s.consume.rsp = s.rsp := by
  unfold State.consume; split <;> rfl
@[simp] theorem consume_rspValid : s.consume.rspValid = s.rspValid := by
  unfold State.consume; split <;> rfl
@[simp] theorem consume_bi : s.consume.bi = s.bi := by
  unfold State.consume; split <;> rfl
@[simp] theorem consume_stw : s.consume.stw = s.stw := by
  unfold State.consume; split <;> rfl
@[simp] theorem consume_k : s.consume.k = s.k := by
  unfold State.consume; split <;> rfl
@[simp] theorem consume_wc : s.consume.wc = s.wc := by
  unfold State.consume; split <;> rfl
@[simp] theorem consume_np : s.consume.np = s.np := by
  unfold State.consume; split <;> rfl
@[simp] theorem consume_seq : s.consume.seq = s.seq := by
  unfold State.consume; split <;> rfl
@[simp] theorem consume_rapop : s.consume.rapop = s.rapop := by
  unfold State.consume; split <;> rfl
@[simp] theorem consume_rstep : s.consume.rstep = s.rstep := by
  unfold State.consume; split <;> rfl
@[simp] theorem consume_j : s.consume.j = s.j := by
  unfold State.consume; split <;> rfl
@[simp] theorem consume_sample : s.consume.sample = s.sample := by
  unfold State.consume; split <;> rfl
@[simp] theorem consume_perr : s.consume.perr = s.perr := by
  unfold State.consume; split <;> rfl
@[simp] theorem consume_cfgerr : s.consume.cfgerr = s.cfgerr := by
  unfold State.consume; split <;> rfl
@[simp] theorem consume_idbuf : s.consume.idbuf = s.idbuf := by
  unfold State.consume; split <;> rfl
@[simp] theorem consume_lines : s.consume.lines = s.lines := by
  unfold State.consume; split <;> rfl
@[simp] theorem consume_trace : s.consume.trace = s.trace := by
  unfold State.consume; split <;> rfl
@[simp] theorem consume_refused : s.consume.refused = s.refused := by
  unfold State.consume; split <;> rfl
@[simp] theorem consume_params : s.consume.params = s.params := by
  unfold State.consume; split <;> rfl
@[simp] theorem consume_claim : s.consume.claim = s.claim := by
  unfold State.consume; split <;> rfl
@[simp] theorem consume_due : s.consume.due = s.due := by
  unfold State.consume; split <;> rfl
@[simp] theorem consume_inbox : s.consume.inbox = s.inbox := by
  unfold State.consume; split <;> rfl
@[simp] theorem consume_traceMark : s.consume.traceMark = s.traceMark := by
  unfold State.consume; split <;> rfl

@[simp] theorem record_es (ev : Event) (a : Answer) : (s.record ev a).es = s.es := consume_es s
@[simp] theorem record_req (ev : Event) (a : Answer) : (s.record ev a).req = s.req := consume_req s
@[simp] theorem record_rsp (ev : Event) (a : Answer) : (s.record ev a).rsp = s.rsp := consume_rsp s
@[simp] theorem record_rspValid (ev : Event) (a : Answer) : (s.record ev a).rspValid = s.rspValid := consume_rspValid s
@[simp] theorem record_bi (ev : Event) (a : Answer) : (s.record ev a).bi = s.bi := consume_bi s
@[simp] theorem record_stw (ev : Event) (a : Answer) : (s.record ev a).stw = s.stw := consume_stw s
@[simp] theorem record_k (ev : Event) (a : Answer) : (s.record ev a).k = s.k := consume_k s
@[simp] theorem record_wc (ev : Event) (a : Answer) : (s.record ev a).wc = s.wc := consume_wc s
@[simp] theorem record_np (ev : Event) (a : Answer) : (s.record ev a).np = s.np := consume_np s
@[simp] theorem record_seq (ev : Event) (a : Answer) : (s.record ev a).seq = s.seq := consume_seq s
@[simp] theorem record_rapop (ev : Event) (a : Answer) : (s.record ev a).rapop = s.rapop := consume_rapop s
@[simp] theorem record_rstep (ev : Event) (a : Answer) : (s.record ev a).rstep = s.rstep := consume_rstep s
@[simp] theorem record_j (ev : Event) (a : Answer) : (s.record ev a).j = s.j := consume_j s
@[simp] theorem record_sample (ev : Event) (a : Answer) : (s.record ev a).sample = s.sample := consume_sample s
@[simp] theorem record_perr (ev : Event) (a : Answer) : (s.record ev a).perr = s.perr := consume_perr s
@[simp] theorem record_cfgerr (ev : Event) (a : Answer) : (s.record ev a).cfgerr = s.cfgerr := consume_cfgerr s
@[simp] theorem record_idbuf (ev : Event) (a : Answer) : (s.record ev a).idbuf = s.idbuf := consume_idbuf s
@[simp] theorem record_lines (ev : Event) (a : Answer) : (s.record ev a).lines = s.lines := consume_lines s
@[simp] theorem record_trace (ev : Event) (a : Answer) : (s.record ev a).trace = s.trace ++ [⟨ev, a⟩] := rfl
@[simp] theorem record_refused (ev : Event) (a : Answer) : (s.record ev a).refused = s.refused := consume_refused s
@[simp] theorem record_params (ev : Event) (a : Answer) : (s.record ev a).params = s.params := consume_params s
@[simp] theorem record_claim (ev : Event) (a : Answer) : (s.record ev a).claim = s.claim := consume_claim s
@[simp] theorem record_due (ev : Event) (a : Answer) : (s.record ev a).due = s.due := consume_due s
@[simp] theorem record_inbox (ev : Event) (a : Answer) : (s.record ev a).inbox = s.inbox := consume_inbox s
@[simp] theorem record_answers (ev : Event) (a : Answer) : (s.record ev a).answers = s.consume.answers := rfl
@[simp] theorem record_draws (ev : Event) (a : Answer) : (s.record ev a).draws = s.consume.draws := rfl
@[simp] theorem record_traceMark (ev : Event) (a : Answer) : (s.record ev a).traceMark = s.traceMark := consume_traceMark s

/-! ### configCheck: only `E.CFGERR` and `E.ES` change -/

@[simp] theorem configCheck_req : s.configCheck.req = s.req := by
  unfold State.configCheck; split <;> rfl
@[simp] theorem configCheck_rsp : s.configCheck.rsp = s.rsp := by
  unfold State.configCheck; split <;> rfl
@[simp] theorem configCheck_rspValid : s.configCheck.rspValid = s.rspValid := by
  unfold State.configCheck; split <;> rfl
@[simp] theorem configCheck_bi : s.configCheck.bi = s.bi := by
  unfold State.configCheck; split <;> rfl
@[simp] theorem configCheck_stw : s.configCheck.stw = s.stw := by
  unfold State.configCheck; split <;> rfl
@[simp] theorem configCheck_k : s.configCheck.k = s.k := by
  unfold State.configCheck; split <;> rfl
@[simp] theorem configCheck_wc : s.configCheck.wc = s.wc := by
  unfold State.configCheck; split <;> rfl
@[simp] theorem configCheck_np : s.configCheck.np = s.np := by
  unfold State.configCheck; split <;> rfl
@[simp] theorem configCheck_seq : s.configCheck.seq = s.seq := by
  unfold State.configCheck; split <;> rfl
@[simp] theorem configCheck_rapop : s.configCheck.rapop = s.rapop := by
  unfold State.configCheck; split <;> rfl
@[simp] theorem configCheck_rstep : s.configCheck.rstep = s.rstep := by
  unfold State.configCheck; split <;> rfl
@[simp] theorem configCheck_j : s.configCheck.j = s.j := by
  unfold State.configCheck; split <;> rfl
@[simp] theorem configCheck_sample : s.configCheck.sample = s.sample := by
  unfold State.configCheck; split <;> rfl
@[simp] theorem configCheck_perr : s.configCheck.perr = s.perr := by
  unfold State.configCheck; split <;> rfl
@[simp] theorem configCheck_idbuf : s.configCheck.idbuf = s.idbuf := by
  unfold State.configCheck; split <;> rfl
@[simp] theorem configCheck_lines : s.configCheck.lines = s.lines := by
  unfold State.configCheck; split <;> rfl
@[simp] theorem configCheck_trace : s.configCheck.trace = s.trace := by
  unfold State.configCheck; split <;> rfl
@[simp] theorem configCheck_refused : s.configCheck.refused = s.refused := by
  unfold State.configCheck; split <;> rfl
@[simp] theorem configCheck_params : s.configCheck.params = s.params := by
  unfold State.configCheck; split <;> rfl
@[simp] theorem configCheck_claim : s.configCheck.claim = s.claim := by
  unfold State.configCheck; split <;> rfl
@[simp] theorem configCheck_due : s.configCheck.due = s.due := by
  unfold State.configCheck; split <;> rfl
@[simp] theorem configCheck_inbox : s.configCheck.inbox = s.inbox := by
  unfold State.configCheck; split <;> rfl
@[simp] theorem configCheck_answers : s.configCheck.answers = s.answers := by
  unfold State.configCheck; split <;> rfl
@[simp] theorem configCheck_draws : s.configCheck.draws = s.draws := by
  unfold State.configCheck; split <;> rfl
@[simp] theorem configCheck_traceMark : s.configCheck.traceMark = s.traceMark := by
  unfold State.configCheck; split <;> rfl

end Sys2Proof.Machine
end

