-- ==== Sys2Proof/Laws/Memory.lean ====
section
/-! SUPPORT. The Identify Buffer: reading after writing, and the canonical form that every write keeps
(20_memory.md R65, R66). -/

namespace Sys2Proof.Machine

/-- A byte of the buffer after a write: the byte written there, else the byte it held. -/
theorem Memory.get_set (m : List Host.Cell) (k : Nat) (b : Byte) (k' : Nat) :
    Memory.get (Memory.set m k b) k' = if k' = k then some b else Memory.get m k' := by
  induction m with
  | nil => simp [Memory.set, Memory.get, eq_comm]
  | cons c rest ih =>
    obtain ⟨a, x⟩ := c
    unfold Memory.set
    split
    · simp only [Memory.get]; split <;> simp_all [eq_comm]
    · split
      · subst_vars; simp only [Memory.get]; split <;> simp_all [eq_comm]
      · simp only [Memory.get, ih]; split <;> split <;> simp_all

theorem Memory.get_set_same (m : List Host.Cell) (k : Nat) (b : Byte) :
    Memory.get (Memory.set m k b) k = some b := by simp [Memory.get_set]

theorem risingFrom_mono {lo lo' : Nat} (h : lo' ≤ lo) (m : List Host.Cell) (hm : risingFrom lo m = true) :
    risingFrom lo' m = true := by
  cases m with
  | nil => rfl
  | cons c rest =>
    simp only [risingFrom, Bool.and_eq_true, decide_eq_true_eq] at hm ⊢
    exact ⟨le_trans h hm.1, hm.2⟩

theorem risingFrom_set {lo k : Nat} (hk : lo ≤ k) (b : Byte) (m : List Host.Cell)
    (hm : risingFrom lo m = true) : risingFrom lo (Memory.set m k b) = true := by
  induction m generalizing lo with
  | nil => simp [Memory.set, risingFrom, hk]
  | cons c rest ih =>
    obtain ⟨a, x⟩ := c
    simp only [risingFrom, Bool.and_eq_true, decide_eq_true_eq] at hm
    unfold Memory.set
    split
    · simp [risingFrom, hk, hm.2]; omega
    · split
      · subst_vars; simp [risingFrom, hm.1, hm.2]
      · simp [risingFrom, hm.1]; exact ih (by omega) hm.2

theorem Memory.all_set (p : Host.Cell → Bool) (m : List Host.Cell) (k : Nat) (b : Byte)
    (hm : m.all p = true) (hp : p (k, b) = true) : (Memory.set m k b).all p = true := by
  induction m with
  | nil => simp [Memory.set, hp]
  | cons c rest ih =>
    obtain ⟨a, x⟩ := c
    simp only [List.all_cons, Bool.and_eq_true] at hm
    unfold Memory.set
    split
    · simp [hp, hm.1]; simpa using hm.2
    · split
      · simp [hp]; simpa using hm.2
      · simp [hm.1]; simpa using ih hm.2

/-- A write inside the buffer keeps the canonical form. -/
theorem Memory.wf_set (m : List Host.Cell) (k : Nat) (b : Byte) (hm : Memory.wf m = true)
    (hk : k < idbufBytes) : Memory.wf (Memory.set m k b) = true := by
  simp only [Memory.wf, Bool.and_eq_true] at hm ⊢
  exact ⟨risingFrom_set (Nat.zero_le _) b m hm.1, Memory.all_set _ m k b hm.2 (by simpa using hk)⟩

/-- Storing a Data word keeps the canonical form while fewer than 256 words have been read. -/
theorem wf_storeWord (s : State) (w : Word) (hm : Memory.wf s.idbuf = true)
    (h : s.wc.toNat < identWords) : Memory.wf (s.storeWord w).idbuf = true := by
  have h' : s.wc.toNat < 256 := h
  simp only [storeWord_idbuf]
  refine Memory.wf_set _ _ _ (Memory.wf_set _ _ _ hm ?_) ?_ <;>
    simp only [wordOffset, idbufBytes] <;> omega

/-- Reset lists nothing, so its buffer is canonical. -/
theorem wf_reset : Memory.wf State.reset.idbuf = true := rfl

/-- After a Data word is stored, its two offsets hold it and every other offset holds what it held. -/
theorem get_storeWord (s : State) (w : Word) (k : Nat) :
    Memory.get (s.storeWord w).idbuf k =
      if k = wordOffset s + 1 then some (lowByte w)
      else if k = wordOffset s then some (highByte w)
      else Memory.get s.idbuf k := by
  simp only [storeWord_idbuf, Memory.get_set]

end Sys2Proof.Machine
end

