-- ==== Sys2Proof/Laws/Ops.lean ====
section
/-! SUPPORT. One lemma per shared operation: what each primitive, each configuration check and each reinit can do. -/

namespace Sys2Proof.Machine

/-! ## The lines -/

theorem setD_get (l : Lines) (i : BitVec 4) (x : DState) (k : Fin 16) :
    (Lines.setD l i x).d[k] = if k.val = i.toNat then x else l.d[k] := by
  simp only [Lines.setD, Fin.getElem_fin, Vector.getElem_set, eq_comm]

@[simp] theorem setD_cs (l : Lines) (i : BitVec 4) (x : DState) : (Lines.setD l i x).cs = l.cs := rfl
@[simp] theorem setD_ad (l : Lines) (i : BitVec 4) (x : DState) : (Lines.setD l i x).ad = l.ad := rfl
@[simp] theorem setD_sr (l : Lines) (i : BitVec 4) (x : DState) : (Lines.setD l i x).sr = l.sr := rfl
@[simp] theorem setD_sw (l : Lines) (i : BitVec 4) (x : DState) : (Lines.setD l i x).sw = l.sw := rfl
@[simp] theorem setD_led (l : Lines) (i : BitVec 4) (x : DState) : (Lines.setD l i x).led = l.led := rfl
@[simp] theorem setD_rst (l : Lines) (i : BitVec 4) (x : DState) : (Lines.setD l i x).rst = l.rst := rfl

@[simp] theorem drive_d (l : Lines) (g : GroupWrite) : (Lines.drive l g).d = l.d := by cases g <;> rfl
@[simp] theorem drive_led (l : Lines) (g : GroupWrite) : (Lines.drive l g).led = l.led := by cases g <;> rfl
@[simp] theorem drive_rst (l : Lines) (g : GroupWrite) : (Lines.drive l g).rst = l.rst := by cases g <;> rfl
@[simp] theorem blur_d (l : Lines) (g : GroupWrite) : (Lines.blur l g).d = l.d := by cases g <;> rfl
@[simp] theorem blur_led (l : Lines) (g : GroupWrite) : (Lines.blur l g).led = l.led := by cases g <;> rfl
@[simp] theorem blur_rst (l : Lines) (g : GroupWrite) : (Lines.blur l g).rst = l.rst := by cases g <;> rfl

/-! ## The primitives: what each can come to -/

/-- `SetLines` (40_bus_primitives.md R102, R103). -/
theorem setLines_cases (g : GroupWrite) (s : State) :
    (s.answer = none ∧ setLines g s = .silent) ∨
    (∃ w, s.answer = some ⟨none, w⟩ ∧
      setLines g s = .ok ((s.record (.setLines g) .ok).withLines (Lines.drive s.lines g))) ∨
    (∃ e w, s.answer = some ⟨some e, w⟩ ∧
      setLines g s = .err e
        ((s.record (.setLines g) (.err e)).markIndeterminate.withLines (Lines.blur s.lines g))) := by
  unfold setLines
  rcases s.answer with _ | ⟨_ | e, w⟩ <;> simp

/-- `GetLines` (40_bus_primitives.md R102, R105). -/
theorem getLines_cases (s : State) :
    (s.answer = none ∧ getLines s = .silent) ∨
    (∃ w, s.answer = some ⟨none, w⟩ ∧ getLines s = .ok ((s.record .getLines (.okv w)).withSample w)) ∨
    (∃ e w, s.answer = some ⟨some e, w⟩ ∧
      getLines s = .err e (s.record .getLines (.err e)).markIndeterminate) := by
  unfold getLines
  rcases s.answer with _ | ⟨_ | e, w⟩ <;> simp

/-- `SetDir` (40_bus_primitives.md R102, R107). -/
theorem setDir_cases (i : BitVec 4) (d : DirCmd) (s : State) :
    (s.answer = none ∧ setDir i d s = .silent) ∨
    (∃ w, s.answer = some ⟨none, w⟩ ∧
      setDir i d s = .ok ((s.record (.setDir i d) .ok).withLines (Lines.setD s.lines i d.state))) ∨
    (∃ e w, s.answer = some ⟨some e, w⟩ ∧
      setDir i d s = .err e
        ((s.record (.setDir i d) (.err e)).markIndeterminate.withLines (Lines.setD s.lines i .u))) := by
  unfold setDir
  rcases s.answer with _ | ⟨_ | e, w⟩ <;> simp

/-- `Sleep` (40_bus_primitives.md R109). -/
theorem sleep_cases (lo hi : Nat) (s : State) :
    (s.answer = none ∧ sleep lo hi s = .silent) ∨
    (∃ a, s.answer = some a ∧ sleep lo hi s = .ok (s.record (.sleep lo hi) .done)) := by
  unfold sleep
  rcases s.answer with _ | a <;> simp

/-! ## Settled answers -/

theorem answer_cons {s : State} {a : Option Draw} {rest : List (Option Draw)} (h : s.answers = a :: rest) :
    s.answer = a := by simp [State.answer, h]

theorem consume_cons {s : State} {a : Option Draw} {rest : List (Option Draw)} (h : s.answers = a :: rest) :
    s.consume.answers = rest ∧ s.consume.draws = s.draws := by simp [State.consume, h]

/-! ## Initialisation -/

/-- The configuration check (70_reset_and_hazards.md R221, R222). -/
theorem configCheck_cases (s : State) :
    ((∀ r, rolePasses s.claim r = true) ∧ s.configCheck.es = .idle ∧ s.configCheck.cfgerr = none) ∨
    (∃ r, firstFailing s.claim = some r ∧ rolePasses s.claim r = false ∧
      s.configCheck.es = .cfgfail ∧ s.configCheck.cfgerr = some r) := by
  unfold State.configCheck
  cases h : firstFailing s.claim with
  | none =>
    left
    refine ⟨fun r => ?_, rfl, rfl⟩
    have := List.find?_eq_none.mp h r (by cases r <;> decide)
    simpa using this
  | some r =>
    right
    have := List.find?_some h
    exact ⟨r, rfl, by simpa using this, rfl, rfl⟩

/-- What a latched request stands for. -/
@[simp] theorem instr_reqOf (i : Instr) : (reqOf i).instr = some i := by
  cases i <;> simp [reqOf, Req.instr]

theorem reqOf_inj {i j : Instr} (h : reqOf i = reqOf j) : i = j := by
  have := congrArg Req.instr h
  simpa using this

end Sys2Proof.Machine
end

