-- ==== Sys2Proof/Laws/Rap.lean ====
section
/-! SUPPORT. What one step of `RAP_Read` and of `RAP_Write` can do, said once (41_register_access.md R125, R130). -/

namespace Sys2Proof.Machine

/-- What no step of a RAP function changes: everything but `E.BI`, the position and latches of the RAP, the lines it
drives, the trace and the answers. -/
structure RapFrame (s t : State) : Prop where
  es : t.es = s.es
  req : t.req = s.req
  rsp : t.rsp = s.rsp
  rspValid : t.rspValid = s.rspValid
  stw : t.stw = s.stw
  k : t.k = s.k
  wc : t.wc = s.wc
  np : t.np = s.np
  seq : t.seq = s.seq
  cfgerr : t.cfgerr = s.cfgerr
  idbuf : t.idbuf = s.idbuf
  refused : t.refused = s.refused
  params : t.params = s.params
  claim : t.claim = s.claim
  due : t.due = s.due
  inbox : t.inbox = s.inbox
  traceMark : t.traceMark = s.traceMark
  led : t.lines.led = s.lines.led
  rst : t.lines.rst = s.lines.rst
  trace : ∃ ev a, t.trace = s.trace ++ [⟨ev, a⟩] ∧ answerFits ev a ∧ (t.bi = true ↔ s.bi = true ∨ isError a)

/-- A step of a RAP function yields this state, however the function goes on. -/
def RapStep.Yields (x : RapStep) (t : State) : Prop :=
  x = .more t ∨ x = .ok t ∨ ∃ e, x = .err e t

/-- Unfolds to the three ways a step yields a state. -/
theorem yields_iff (x : RapStep) (t : State) :
    x.Yields t ↔ x = .more t ∨ x = .ok t ∨ ∃ e, x = .err e t := Iff.rfl

/-- The frame of `RAP_Read`, from every state; `L.SW` is not among the lines it drives. -/
theorem rapRead_frame {r : RegIdx} {s t : State} (h : (rapRead r s).Yields t) :
    RapFrame s t ∧ t.lines.sw = s.lines.sw := by
  unfold rapRead at h
  split at h
  · split at h
    · rcases setDir_cases s.j .input s with ⟨-, h'⟩ | ⟨w, -, h'⟩ | ⟨e, w, -, h'⟩ <;>
        simp only [h', Exchange.thenMore, State.nextLine, yields_iff, reduceCtorEq, RapStep.more.injEq,
          RapStep.err.injEq, exists_false, exists_eq_left', false_or, or_false] at h
      · split at h <;> (subst h; exact ⟨by constructor <;> simp [answerFits, isError], by simp⟩)
      · obtain ⟨_, -, rfl⟩ := h; exact ⟨by constructor <;> simp [answerFits, isError], by simp⟩
    · unfold readAssert at h
      rcases setLines_cases (.sr strobeOn) s with ⟨-, h'⟩ | ⟨w, -, h'⟩ | ⟨e, w, -, h'⟩ <;>
        simp [h', yields_iff] at h <;> subst h <;>
        exact ⟨by constructor <;> simp [answerFits, isError], by simp [Lines.drive, Lines.blur]⟩
    · rcases sleep_cases strobeMinUs strobeMaxUs s with ⟨-, h'⟩ | ⟨w, -, h'⟩
      · simp [h', Exchange.thenMore, yields_iff] at h
      · simp [h', Exchange.thenMore, yields_iff] at h
        subst h
        exact ⟨by constructor <;> simp [answerFits, isError], by simp⟩
    · unfold readSample at h
      rcases getLines_cases s with ⟨-, h'⟩ | ⟨w, -, h'⟩ | ⟨e, w, -, h'⟩ <;>
        simp [h', yields_iff] at h <;> subst h <;>
        exact ⟨by constructor <;> simp [answerFits, isError], by simp⟩
    · unfold readDeassert at h
      rcases setLines_cases (.sr strobeOff) s with ⟨-, h'⟩ | ⟨w, -, h'⟩ | ⟨e, w, -, h'⟩ <;>
        rcases hp : s.perr with _ | e' <;> simp [h', hp, yields_iff] at h <;> subst h <;>
        exact ⟨by constructor <;> simp [answerFits, isError], by simp [Lines.drive, Lines.blur]⟩
    · simp [yields_iff] at h
  · unfold rapSelect at h
    split at h
    · rcases setLines_cases (.cs csValue) s with ⟨-, h'⟩ | ⟨w, -, h'⟩ | ⟨e, w, -, h'⟩ <;>
        simp [h', Exchange.thenMore, yields_iff] at h <;> subst h <;>
        exact ⟨by constructor <;> simp [answerFits, isError], by simp [Lines.drive, Lines.blur]⟩
    · rcases setLines_cases (.ad r) s with ⟨-, h'⟩ | ⟨w, -, h'⟩ | ⟨e, w, -, h'⟩ <;>
        simp [h', Exchange.thenMore, yields_iff] at h <;> subst h <;>
        exact ⟨by constructor <;> simp [answerFits, isError], by simp [Lines.drive, Lines.blur]⟩
    · simp [yields_iff] at h
  · simp [yields_iff] at h
  · simp [yields_iff] at h

/-- The frame of `RAP_Write`, from every state; neither `L.SR` nor the latches of a read are changed. -/
theorem rapWrite_frame {r : RegIdx} {v : Word} {s t : State} (h : (rapWrite r v s).Yields t) :
    RapFrame s t ∧ t.lines.sr = s.lines.sr ∧ t.sample = s.sample ∧ t.perr = s.perr := by
  unfold rapWrite at h
  split at h
  · unfold rapSelect at h
    split at h
    · rcases setLines_cases (.cs csValue) s with ⟨-, h'⟩ | ⟨w, -, h'⟩ | ⟨e, w, -, h'⟩ <;>
        simp [h', Exchange.thenMore, yields_iff] at h <;> subst h <;>
        exact ⟨by constructor <;> simp [answerFits, isError], by simp [Lines.drive, Lines.blur]⟩
    · rcases setLines_cases (.ad r) s with ⟨-, h'⟩ | ⟨w, -, h'⟩ | ⟨e, w, -, h'⟩ <;>
        simp [h', Exchange.thenMore, yields_iff] at h <;> subst h <;>
        exact ⟨by constructor <;> simp [answerFits, isError], by simp [Lines.drive, Lines.blur]⟩
    · simp [yields_iff] at h
  · split at h
    · rcases setDir_cases s.j (driveBit v s.j) s with ⟨-, h'⟩ | ⟨w, -, h'⟩ | ⟨e, w, -, h'⟩ <;>
        simp only [h', Exchange.thenMore, State.nextLine, yields_iff, reduceCtorEq, RapStep.more.injEq,
          RapStep.err.injEq, exists_false, exists_eq_left', false_or, or_false] at h
      · split at h <;> (subst h; exact ⟨by constructor <;> simp [answerFits, isError], by simp⟩)
      · obtain ⟨_, -, rfl⟩ := h; exact ⟨by constructor <;> simp [answerFits, isError], by simp⟩
    · rcases setLines_cases (.sw strobeOn) s with ⟨-, h'⟩ | ⟨w, -, h'⟩ | ⟨e, w, -, h'⟩ <;>
        simp [h', Exchange.thenMore, yields_iff] at h <;> subst h <;>
        exact ⟨by constructor <;> simp [answerFits, isError], by simp [Lines.drive, Lines.blur]⟩
    · rcases sleep_cases strobeMinUs strobeMaxUs s with ⟨-, h'⟩ | ⟨w, -, h'⟩
      · simp [h', Exchange.thenMore, yields_iff] at h
      · simp [h', Exchange.thenMore, yields_iff] at h
        subst h
        exact ⟨by constructor <;> simp [answerFits, isError], by simp⟩
    · rcases setLines_cases (.sw strobeOff) s with ⟨-, h'⟩ | ⟨w, -, h'⟩ | ⟨e, w, -, h'⟩ <;>
        simp [h', Exchange.thenMore, yields_iff] at h <;> subst h <;>
        exact ⟨by constructor <;> simp [answerFits, isError], by simp [Lines.drive, Lines.blur]⟩
    · rcases sleep_cases strobeMinUs strobeMaxUs s with ⟨-, h'⟩ | ⟨w, -, h'⟩
      · simp [h', Exchange.thenMore, yields_iff] at h
      · simp [h', Exchange.thenMore, yields_iff] at h
        subst h
        exact ⟨by constructor <;> simp [answerFits, isError], by simp⟩
    · unfold writeReturn at h
      split at h <;>
        rcases setDir_cases s.j .input s with ⟨-, h'⟩ | ⟨w, -, h'⟩ | ⟨e, w, -, h'⟩ <;>
        simp [h', Exchange.thenMore, Exchange.thenOk, yields_iff] at h <;>
        (subst h; exact ⟨by constructor <;> simp [answerFits, isError], by simp⟩)
    · simp [yields_iff] at h
  · simp [yields_iff] at h
  · simp [yields_iff] at h

end Sys2Proof.Machine
end

