-- ==== Sys2Proof/Laws/RapSpec.lean ====
section
/-! SUPPORT. The spec lemma of `RAP_Read` and of `RAP_Write`: what one step comes to, with the lines and `E.BI`
(41_register_access.md R125, R129, R130, R134, R140). -/

namespace Sys2Proof.Machine

theorem j_succ {j : BitVec 4} (h : ¬ j = 15) : (j + 1).toNat = j.toNat + 1 ∧ j.toNat < 15 := by
  have h1 := j.isLt
  have h2 : j.toNat ≠ 15 := fun hc => h (BitVec.eq_of_toNat_eq hc)
  refine ⟨?_, by omega⟩
  rw [BitVec.toNat_add]; simp; omega

/-- The state of a read that has not gone astray: a step of `RAP_Read`, a failure only during the cleanup and held in
`E.PERR`, and the lines as the steps before left them. -/
structure ReadState (r : RegIdx) (s : State) : Prop where
  pos : readPosition s
  held : s.bi = true → s.perr.isSome = true ∧ s.rapop = .read ∧ s.rstep = 6
  marked : s.perr.isSome = true → s.bi = true
  lines : s.bi = false → readLines r s

/-- The state of a write that has not failed. -/
structure WriteState (r : RegIdx) (v : Word) (s : State) : Prop where
  pos : writePosition s
  fine : s.bi = false
  lines : writeLines r v s

/-- `RAP_Read` in one step: it waits for the environment, goes on, returns the word with the bus released, or returns
an error with `E.BI` set. -/
theorem rapRead_spec {r : RegIdx} {s : State} (h : ReadState r s) :
    (s.answer = none ∧ rapRead r s = .silent) ∨
    (∃ t, rapRead r s = .more t ∧ ReadState r t) ∨
    (∃ t, rapRead r s = .ok t ∧ t.bi = false ∧ t.perr = none ∧ released t.lines ∧ selects t.lines r ∧
      t.lines.sr = .zero) ∨
    (∃ e t, rapRead r s = .err e t ∧ t.bi = true) := by
  obtain ⟨hp, hh, hm, hl⟩ := h
  rcases hp with ⟨hop, hst | hst | hst | hst | hst⟩ | ⟨hop, hst | hst⟩
  · -- step 1: one data line to input
    have hbi : s.bi = false := by
      rcases hb : s.bi with _ | _
      · rfl
      · have := hh hb; omega
    have hl' := hl hbi
    simp only [readLines, hop, hst, if_true] at hl'
    rcases setDir_cases s.j .input s with ⟨ha, h'⟩ | ⟨w, ha, h'⟩ | ⟨e, w, ha, h'⟩
    · left; simp [rapRead, hop, hst, h', ha, Exchange.thenMore]
    · right; left
      refine ⟨_, by simp [rapRead, hop, hst, h', Exchange.thenMore]; rfl, ?_⟩
      unfold State.nextLine
      split
      · rename_i hj
        simp only [withLines_j, record_j] at hj
        refine ⟨Or.inr ⟨by simp, by simp⟩, by simp [hbi], by simpa [hbi] using hm, fun _ => ?_⟩
        simp only [readLines, atStep_rapop, atStep_rstep, atStep_lines, withLines_lines]
        refine ⟨fun i => ?_, by simp⟩
        rw [setD_get]
        split
        · rfl
        · refine hl' i ?_
          have := i.isLt; rw [hj] at *; simp at *; omega
      · rename_i hj
        simp only [withLines_j, record_j] at hj
        refine ⟨Or.inl ⟨by simp [hop], by simp [hst]⟩, by simp [hbi], by simpa [hbi] using hm, fun _ => ?_⟩
        simp only [readLines, withJ_rapop, withLines_rapop, record_rapop, hop, withJ_rstep, withLines_rstep,
          record_rstep, hst, if_true, withJ_lines, withLines_lines, withJ_j, withLines_j, record_j]
        intro i hi
        rw [setD_get]
        have := j_succ hj
        split
        · rfl
        · exact hl' i (by omega)
    · right; right; right
      exact ⟨e, _, by simp [rapRead, hop, hst, h', Exchange.thenMore]; rfl, by simp⟩
  · -- step 3: the assert, whose error is held
    have hbi : s.bi = false := by
      rcases hb : s.bi with _ | _
      · rfl
      · have := hh hb; omega
    have hl' := hl hbi
    simp only [readLines, hop, hst] at hl'
    rcases setLines_cases (.sr strobeOn) s with ⟨ha, h'⟩ | ⟨w, ha, h'⟩ | ⟨e, w, ha, h'⟩
    · left; simp [rapRead, readAssert, hop, hst, h', ha]
    · right; left
      refine ⟨_, by simp [rapRead, readAssert, hop, hst, h']; rfl, Or.inl ⟨by simp, by simp⟩, by simp [hbi],
        by simpa [hbi] using hm, fun _ => ?_⟩
      simpa [readLines, released, selects, Lines.drive, strobeLevel, strobeOn, triOut] using hl'
    · right; left
      exact ⟨_, by simp [rapRead, readAssert, hop, hst, h']; rfl, Or.inl ⟨by simp, by simp⟩, by simp, by simp,
        by simp⟩
  · -- step 4: the sleep
    have hbi : s.bi = false := by
      rcases hb : s.bi with _ | _
      · rfl
      · have := hh hb; omega
    have hl' := hl hbi
    simp only [readLines, hop, hst] at hl'
    rcases sleep_cases strobeMinUs strobeMaxUs s with ⟨ha, h'⟩ | ⟨w, ha, h'⟩
    · left; simp [rapRead, hop, hst, h', ha, Exchange.thenMore]
    · right; left
      refine ⟨_, by simp [rapRead, hop, hst, h', Exchange.thenMore]; rfl, Or.inl ⟨by simp, by simp⟩, by simp [hbi],
        by simpa [hbi] using hm, fun _ => ?_⟩
      simpa [readLines, released, selects] using hl'
  · -- step 5: the sample, whose error is held
    have hbi : s.bi = false := by
      rcases hb : s.bi with _ | _
      · rfl
      · have := hh hb; omega
    have hl' := hl hbi
    simp only [readLines, hop, hst] at hl'
    rcases getLines_cases s with ⟨ha, h'⟩ | ⟨w, ha, h'⟩ | ⟨e, w, ha, h'⟩
    · left; simp [rapRead, readSample, hop, hst, h', ha]
    · right; left
      refine ⟨_, by simp [rapRead, readSample, hop, hst, h']; rfl, Or.inl ⟨by simp, by simp⟩, by simp [hbi],
        by simpa [hbi] using hm, fun _ => ?_⟩
      simpa [readLines, released, selects] using hl'
    · right; left
      exact ⟨_, by simp [rapRead, readSample, hop, hst, h']; rfl, Or.inl ⟨by simp, by simp⟩, by simp, by simp,
        by simp⟩
  · -- step 6: the deassert; the first error is the result
    rcases hperr : s.perr with _ | e0
    · have hbi : s.bi = false := by
        rcases hb : s.bi with _ | _
        · rfl
        · have := hh hb; simp [hperr] at this
      have hl' := hl hbi
      simp only [readLines, hop, hst] at hl'
      rcases setLines_cases (.sr strobeOff) s with ⟨ha, h'⟩ | ⟨w, ha, h'⟩ | ⟨e, w, ha, h'⟩
      · left; simp [rapRead, readDeassert, hop, hst, h', ha]
      · right; right; left
        refine ⟨_, by simp [rapRead, readDeassert, hop, hst, h', hperr]; rfl, by simp [hbi], by simp [hperr], ?_⟩
        simpa [released, selects, Lines.drive, strobeLevel, strobeOff, triOut] using ⟨hl'.1, hl'.2.1⟩
      · right; right; right
        exact ⟨e, _, by simp [rapRead, readDeassert, hop, hst, h', hperr]; rfl, by simp⟩
    · have hbi : s.bi = true := hm (by simp [hperr])
      rcases setLines_cases (.sr strobeOff) s with ⟨ha, h'⟩ | ⟨w, ha, h'⟩ | ⟨e, w, ha, h'⟩
      · left; simp [rapRead, readDeassert, hop, hst, h', ha]
      · right; right; right
        exact ⟨e0, _, by simp [rapRead, readDeassert, hop, hst, h', hperr]; rfl, by simp [hbi]⟩
      · right; right; right
        exact ⟨e0, _, by simp [rapRead, readDeassert, hop, hst, h', hperr]; rfl, by simp⟩
  · -- S1: chip-select
    have hbi : s.bi = false := by
      rcases hb : s.bi with _ | _
      · rfl
      · have := hh hb; simp [hop] at this
    have hl' := hl hbi
    simp only [readLines, hop, hst] at hl'
    rcases setLines_cases (.cs csValue) s with ⟨ha, h'⟩ | ⟨w, ha, h'⟩ | ⟨e, w, ha, h'⟩
    · left; simp [rapRead, rapSelect, hop, hst, h', ha, Exchange.thenMore]
    · right; left
      refine ⟨_, by simp [rapRead, rapSelect, hop, hst, h', Exchange.thenMore]; rfl, Or.inr ⟨by simp, by simp⟩,
        by simp [hbi], by simpa [hbi] using hm, fun _ => ?_⟩
      simpa [readLines, released, Lines.drive] using hl'
    · right; right; right
      exact ⟨e, _, by simp [rapRead, rapSelect, hop, hst, h', Exchange.thenMore]; rfl, by simp⟩
  · -- S2: the address
    have hbi : s.bi = false := by
      rcases hb : s.bi with _ | _
      · rfl
      · have := hh hb; simp [hop] at this
    have hl' := hl hbi
    simp only [readLines, hop, hst] at hl'
    rcases setLines_cases (.ad r) s with ⟨ha, h'⟩ | ⟨w, ha, h'⟩ | ⟨e, w, ha, h'⟩
    · left; simp [rapRead, rapSelect, hop, hst, h', ha, Exchange.thenMore]
    · right; left
      refine ⟨_, by simp [rapRead, rapSelect, hop, hst, h', Exchange.thenMore]; rfl, Or.inl ⟨by simp, by simp⟩,
        by simp [hbi], by simpa [hbi] using hm, fun _ => ?_⟩
      simpa [readLines, released, selects, Lines.drive] using hl'
    · right; right; right
      exact ⟨e, _, by simp [rapRead, rapSelect, hop, hst, h', Exchange.thenMore]; rfl, by simp⟩

/-- `RAP_Write` in one step: it waits for the environment, goes on, returns with the bus released, or returns an error
with `E.BI` set. -/
theorem rapWrite_spec {r : RegIdx} {v : Word} {s : State} (h : WriteState r v s) :
    (s.answer = none ∧ rapWrite r v s = .silent) ∨
    (∃ t, rapWrite r v s = .more t ∧ WriteState r v t) ∨
    (∃ t, rapWrite r v s = .ok t ∧ t.bi = false ∧ released t.lines ∧ selects t.lines r ∧ t.lines.sw = .zero) ∨
    (∃ e t, rapWrite r v s = .err e t ∧ t.bi = true) := by
  obtain ⟨hp, hb, hl⟩ := h
  rcases hp with ⟨hop, hst | hst | hst | hst | hst | hst⟩ | ⟨hop, hst | hst⟩
  · -- step 2: one data line driven
    simp only [writeLines, hop, hst, if_true] at hl
    rcases setDir_cases s.j (driveBit v s.j) s with ⟨ha, h'⟩ | ⟨w, ha, h'⟩ | ⟨e, w, ha, h'⟩
    · left; simp [rapWrite, hop, hst, h', ha, Exchange.thenMore]
    · right; left
      refine ⟨_, by simp [rapWrite, hop, hst, h', Exchange.thenMore]; rfl, ?_⟩
      unfold State.nextLine
      split
      · rename_i hj
        simp only [withLines_j, record_j] at hj
        refine ⟨Or.inl ⟨by simp, by simp⟩, by simp [hb], ?_⟩
        simp only [writeLines, atStep_rapop, atStep_rstep, atStep_lines, withLines_lines]
        refine ⟨by simpa [selects] using hl.1, ?_⟩
        simp only [drives]
        refine ⟨fun i => ?_, by simp, by simp⟩
        rw [setD_get]
        split
        · rename_i hi; simp [driveBit, DirCmd.state, hi]
        · refine hl.2 i ?_
          have := i.isLt; rw [hj] at *; simp at *; omega
      · rename_i hj
        simp only [withLines_j, record_j] at hj
        refine ⟨Or.inl ⟨by simp [hop], by simp [hst]⟩, by simp [hb], ?_⟩
        simp only [writeLines, withJ_rapop, withLines_rapop, record_rapop, hop, withJ_rstep, withLines_rstep,
          record_rstep, hst, if_true, withJ_lines, withLines_lines, withJ_j, withLines_j, record_j]
        refine ⟨by simpa [selects] using hl.1, fun i hi => ?_⟩
        rw [setD_get]
        have := j_succ hj
        split
        · rename_i hi; simp [driveBit, DirCmd.state, hi]
        · exact hl.2 i (by omega)
    · right; right; right
      exact ⟨e, _, by simp [rapWrite, hop, hst, h', Exchange.thenMore]; rfl, by simp⟩
  · -- step 3a: the assert
    simp only [writeLines, hop, hst] at hl
    rcases setLines_cases (.sw strobeOn) s with ⟨ha, h'⟩ | ⟨w, ha, h'⟩ | ⟨e, w, ha, h'⟩
    · left; simp [rapWrite, hop, hst, h', ha, Exchange.thenMore]
    · right; left
      refine ⟨_, by simp [rapWrite, hop, hst, h', Exchange.thenMore]; rfl, Or.inl ⟨by simp, by simp⟩, by simp [hb], ?_⟩
      simpa [writeLines, drives, selects, Lines.drive, strobeLevel, strobeOn, triOut] using hl
    · right; right; right
      exact ⟨e, _, by simp [rapWrite, hop, hst, h', Exchange.thenMore]; rfl, by simp⟩
  · -- step 3b: the pulse
    simp only [writeLines, hop, hst] at hl
    rcases sleep_cases strobeMinUs strobeMaxUs s with ⟨ha, h'⟩ | ⟨w, ha, h'⟩
    · left; simp [rapWrite, hop, hst, h', ha, Exchange.thenMore]
    · right; left
      refine ⟨_, by simp [rapWrite, hop, hst, h', Exchange.thenMore]; rfl, Or.inl ⟨by simp, by simp⟩, by simp [hb], ?_⟩
      simpa [writeLines, drives, selects] using hl
  · -- step 3c: the deassert
    simp only [writeLines, hop, hst] at hl
    rcases setLines_cases (.sw strobeOff) s with ⟨ha, h'⟩ | ⟨w, ha, h'⟩ | ⟨e, w, ha, h'⟩
    · left; simp [rapWrite, hop, hst, h', ha, Exchange.thenMore]
    · right; left
      refine ⟨_, by simp [rapWrite, hop, hst, h', Exchange.thenMore]; rfl, Or.inl ⟨by simp, by simp⟩, by simp [hb], ?_⟩
      simp at hl
      simpa [writeLines, drives, selects, Lines.drive, strobeLevel, strobeOff, triOut] using ⟨hl.1, hl.2.1⟩
    · right; right; right
      exact ⟨e, _, by simp [rapWrite, hop, hst, h', Exchange.thenMore]; rfl, by simp⟩
  · -- step 3d: the bus hold
    simp only [writeLines, hop, hst] at hl
    rcases sleep_cases strobeMinUs strobeMaxUs s with ⟨ha, h'⟩ | ⟨w, ha, h'⟩
    · left; simp [rapWrite, hop, hst, h', ha, Exchange.thenMore]
    · right; left
      refine ⟨_, by simp [rapWrite, hop, hst, h', Exchange.thenMore]; rfl, Or.inl ⟨by simp, by simp⟩, by simp [hb], ?_⟩
      simp at hl
      simpa [writeLines, selects] using ⟨hl.1, hl.2.2, hl.2.1⟩
  · -- step 4: one data line back to input
    simp only [writeLines, hop, hst] at hl
    rw [if_neg (by decide), if_pos trivial] at hl
    obtain ⟨hsel, hsw, hd⟩ := hl
    rcases setDir_cases s.j .input s with ⟨ha, h'⟩ | ⟨w, ha, h'⟩ | ⟨e, w, ha, h'⟩
    · left; simp [rapWrite, writeReturn, hop, hst, h', ha, Exchange.thenMore, Exchange.thenOk]
    · by_cases hj : s.j = 15
      · right; right; left
        refine ⟨_, by simp only [rapWrite, writeReturn, hop, hst, h', if_pos hj, Exchange.thenOk]; rfl,
          by simp [hb], ?_, by simpa [selects] using hsel, by simpa using hsw⟩
        intro i
        simp only [withLines_lines, setD_get]
        split
        · rfl
        · rw [hd i, if_pos]
          have := i.isLt; rw [hj] at *; simp at *; omega
      · right; left
        refine ⟨_, by simp only [rapWrite, writeReturn, hop, hst, h', if_neg hj, Exchange.thenMore]; rfl,
          Or.inl ⟨by simp [hop], by simp [hst]⟩, by simp [hb], ?_⟩
        have := j_succ hj
        simp only [writeLines, withJ_rapop, withLines_rapop, record_rapop, hop, withJ_rstep, withLines_rstep,
          record_rstep, hst, withJ_lines, withLines_lines, withJ_j]
        refine ⟨by simpa [selects] using hsel, ?_⟩
        simp only [setD_sw]
        refine ⟨hsw, fun i => ?_⟩
        rw [setD_get]
        split
        · have : i.val < (s.j + 1).toNat := by omega
          simp only [this, DirCmd.state, if_true]
        · rw [hd i]
          by_cases hi : i.val < s.j.toNat
          · have : i.val < (s.j + 1).toNat := by omega
            simp only [hi, this, if_true]
          · have : ¬ i.val < (s.j + 1).toNat := by omega
            simp only [hi, this, if_false]
    · right; right; right
      refine ⟨e, ?_⟩
      refine ⟨_, by
        simp only [rapWrite, writeReturn, hop, hst, h', Exchange.thenMore, Exchange.thenOk, ite_self]; rfl, by simp⟩
  · -- S1: chip-select
    rcases setLines_cases (.cs csValue) s with ⟨ha, h'⟩ | ⟨w, ha, h'⟩ | ⟨e, w, ha, h'⟩
    · left; simp [rapWrite, rapSelect, hop, hst, h', ha, Exchange.thenMore]
    · right; left
      refine ⟨_, by simp [rapWrite, rapSelect, hop, hst, h', Exchange.thenMore]; rfl, Or.inr ⟨by simp, by simp⟩,
        by simp [hb], ?_⟩
      simp [writeLines, Lines.drive]
    · right; right; right
      exact ⟨e, _, by simp [rapWrite, rapSelect, hop, hst, h', Exchange.thenMore]; rfl, by simp⟩
  · -- S2: the address
    simp only [writeLines, hop, hst] at hl
    rcases setLines_cases (.ad r) s with ⟨ha, h'⟩ | ⟨w, ha, h'⟩ | ⟨e, w, ha, h'⟩
    · left; simp [rapWrite, rapSelect, hop, hst, h', ha, Exchange.thenMore]
    · right; left
      refine ⟨_, by simp [rapWrite, rapSelect, hop, hst, h', Exchange.thenMore]; rfl, Or.inl ⟨by simp, by simp⟩,
        by simp [hb], ?_⟩
      simpa [writeLines, selects, Lines.drive] using hl
    · right; right; right
      exact ⟨e, _, by simp [rapWrite, rapSelect, hop, hst, h', Exchange.thenMore]; rfl, by simp⟩

/-- `RAP_Read` returns `Ok` only at its last primitive, answered `OK` with no error held (41_register_access.md R125,
R129). -/
theorem rapRead_ok_inv {r : RegIdx} {s u : State} (h : rapRead r s = .ok u) :
    readEnds s ∧ (∃ w, s.answer = some ⟨none, w⟩) ∧
      u = (s.record (.setLines (.sr strobeOff)) .ok).withLines (Lines.drive s.lines (.sr strobeOff)) := by
  unfold rapRead at h
  split at h
  · split at h
    · cases hx : setDir s.j .input s <;> simp [hx, Exchange.thenMore] at h
    · unfold readAssert at h; cases hx : setLines (.sr strobeOn) s <;> simp [hx] at h
    · cases hx : sleep strobeMinUs strobeMaxUs s <;> simp [hx, Exchange.thenMore] at h
    · unfold readSample at h; cases hx : getLines s <;> simp [hx] at h
    · rename_i hop _ hst
      unfold readDeassert at h
      rcases setLines_cases (.sr strobeOff) s with ⟨-, h'⟩ | ⟨w, ha, h'⟩ | ⟨e, w, -, h'⟩ <;>
        rcases hp : s.perr with _ | e' <;> simp [h', hp] at h
      exact ⟨⟨hop, hst, hp⟩, ⟨w, ha⟩, h.symm⟩
    · simp at h
  · unfold rapSelect at h
    split at h
    · cases hx : setLines (.cs csValue) s <;> simp [hx, Exchange.thenMore] at h
    · cases hx : setLines (.ad r) s <;> simp [hx, Exchange.thenMore] at h
    · simp at h
  · simp at h
  · simp at h

/-- `RAP_Write` returns `Ok` only at its last primitive, answered `OK` (41_register_access.md R130, R133). -/
theorem rapWrite_ok_inv {r : RegIdx} {v : Word} {s u : State} (h : rapWrite r v s = .ok u) :
    writeEnds s ∧ (∃ w, s.answer = some ⟨none, w⟩) ∧
      u = (s.record (.setDir s.j .input) .ok).withLines (Lines.setD s.lines s.j .input) := by
  unfold rapWrite at h
  split at h
  · unfold rapSelect at h
    split at h
    · cases hx : setLines (.cs csValue) s <;> simp [hx, Exchange.thenMore] at h
    · cases hx : setLines (.ad r) s <;> simp [hx, Exchange.thenMore] at h
    · simp at h
  · split at h
    · cases hx : setDir s.j (driveBit v s.j) s <;> simp [hx, Exchange.thenMore] at h
    · cases hx : setLines (.sw strobeOn) s <;> simp [hx, Exchange.thenMore] at h
    · cases hx : sleep strobeMinUs strobeMaxUs s <;> simp [hx, Exchange.thenMore] at h
    · cases hx : setLines (.sw strobeOff) s <;> simp [hx, Exchange.thenMore] at h
    · cases hx : sleep strobeMinUs strobeMaxUs s <;> simp [hx, Exchange.thenMore] at h
    · rename_i hop _ hst
      unfold writeReturn at h
      split at h
      · rename_i hj
        rcases setDir_cases s.j .input s with ⟨-, h'⟩ | ⟨w, ha, h'⟩ | ⟨e, w, -, h'⟩ <;>
          simp only [h', Exchange.thenOk, reduceCtorEq, RapStep.ok.injEq] at h
        exact ⟨⟨hop, hst, hj⟩, ⟨w, ha⟩, h.symm⟩
      · cases hx : setDir s.j .input s <;> simp [hx, Exchange.thenMore] at h
    · simp at h
  · simp at h
  · simp at h

end Sys2Proof.Machine
end

