-- ==== Sys2Proof/Laws/Step.lean ====
section
/-! SUPPORT. Inversion of `serve`, `exec` and `step`: what each can do, said once (60_exceptions.md R193, R196, R207). -/

namespace Sys2Proof.Machine

/-- How a request begins once it is accepted. -/
def beginOf : Instr → State → State
  | .rdreg _ => State.startRead
  | .wrreg _ _ => State.startWrite
  | .identFix => State.startIdentify
  | .identPoll => State.startIdentify

/-- The next primitive of a request in service. -/
def workOf : Instr → State → Host.Outcome State Fault Refusal
  | .rdreg reg => fun s => (rapRead reg s).outcome s (fun t => t.owe (reply .ok t.sample))
  | .wrreg reg value => fun s => (rapWrite reg value s).outcome s (fun t => t.owe (reply .ok 0x0000))
  | .identFix => identifyStep
  | .identPoll => identifyStep

/-- Every meaning is `serve` over its own beginning and its own work. -/
theorem exec_eq_serve (i : Instr) (s : State) :
    exec i s = serve (reqOf i) (beginOf i) (workOf i) s := by
  cases i <;> rfl

theorem exec_accept {i : Instr} {s : State} (h : CanAccept s) :
    exec i s = .next (beginOf i (s.accept (reqOf i))) := by
  obtain ⟨h1, h2, h3⟩ := h
  simp [exec_eq_serve, serve, h1, h2, h3]

theorem exec_serving {i : Instr} {s : State} (h : Serving i s) : exec i s = workOf i s := by
  obtain ⟨h1, h2, h3, h4⟩ := h
  simp [exec_eq_serve, serve, h1, h2, h3, h4]

theorem exec_due {i : Instr} {s : State} {r : Response} (h1 : s.refused = false) (h2 : s.es = .busy)
    (h3 : s.req = reqOf i) (h4 : s.due = some r) : exec i s = .next (s.respond r) := by
  simp [exec_eq_serve, serve, h1, h2, h3, h4]

/-- What a RAP step comes to as the engine's step. -/
theorem outcome_cases {x : RapStep} {s t : State} {onOk : State → State} (h : x.outcome s onOk = .next t) :
    (x = .silent ∧ t = s) ∨ (∃ u, x = .more u ∧ t = u) ∨ (∃ u, x = .ok u ∧ t = onOk u) ∨
      (∃ e u, x = .err e u ∧ t = u.owe (busErrorReply e)) := by
  cases x <;> simp_all [RapStep.outcome]

/-! ## What a step of a request in service leaves alone -/

/-- The fields that no step of a request in service changes, and what it adds to the trace: nothing, or one primitive
with a legal answer, which sets `E.BI` exactly if it is an error (10_state.md R26, 30_encoding.md R94). -/
structure ServiceFrame (s t : State) : Prop where
  es : t.es = s.es
  req : t.req = s.req
  rsp : t.rsp = s.rsp
  rspValid : t.rspValid = s.rspValid
  cfgerr : t.cfgerr = s.cfgerr
  refused : t.refused = s.refused
  params : t.params = s.params
  claim : t.claim = s.claim
  inbox : t.inbox = s.inbox
  traceMark : t.traceMark = s.traceMark
  led : t.lines.led = s.lines.led
  rst : t.lines.rst = s.lines.rst
  trace : t = s ∨ ∃ ev a, t.trace = s.trace ++ [⟨ev, a⟩] ∧ answerFits ev a ∧ (t.bi = true ↔ s.bi = true ∨ isError a)

/-- What the Sequencer does between two primitives: it changes no field of `ServiceFrame`. -/
structure Between (u v : State) : Prop where
  es : v.es = u.es
  req : v.req = u.req
  rsp : v.rsp = u.rsp
  rspValid : v.rspValid = u.rspValid
  cfgerr : v.cfgerr = u.cfgerr
  refused : v.refused = u.refused
  params : v.params = u.params
  claim : v.claim = u.claim
  inbox : v.inbox = u.inbox
  traceMark : v.traceMark = u.traceMark
  lines : v.lines = u.lines
  trace : v.trace = u.trace
  bi : v.bi = u.bi
  answers : v.answers = u.answers
  draws : v.draws = u.draws

theorem Between.refl (u : State) : Between u u := by constructor <;> rfl

theorem between_owe (u : State) (r : Response) : Between u (u.owe r) := by constructor <;> rfl

theorem between_afterSelectDrive (u : State) : Between u (afterSelectDrive u) := by constructor <;> rfl

theorem between_afterClear (u : State) : Between u (afterClear u) := by
  unfold afterClear; split <;> constructor <;> rfl

theorem between_afterCommand (u : State) : Between u (afterCommand u) := by constructor <;> rfl

theorem between_afterPresence (u : State) : Between u (afterPresence u) := by
  unfold afterPresence; split
  · constructor <;> simp
  · split <;> constructor <;> simp

theorem between_afterPoll (u : State) : Between u (afterPoll u) := by
  simp only [afterPoll]; split
  · constructor <;> simp
  · split
    · constructor <;> simp
    · split <;> constructor <;> simp

theorem between_afterData (u : State) : Between u (afterData u) := by
  simp only [afterData]; split <;> constructor <;> simp

theorem frame_of_rap {s u v : State} (h : RapFrame s u) (h' : Between u v) : ServiceFrame s v := by
  obtain ⟨ev, a, h1, h2, h3⟩ := h.trace
  exact ⟨h'.es.trans h.es, h'.req.trans h.req, h'.rsp.trans h.rsp, h'.rspValid.trans h.rspValid,
    h'.cfgerr.trans h.cfgerr, h'.refused.trans h.refused, h'.params.trans h.params, h'.claim.trans h.claim,
    h'.inbox.trans h.inbox, h'.traceMark.trans h.traceMark, by rw [h'.lines, h.led], by rw [h'.lines, h.rst],
    Or.inr ⟨ev, a, h'.trace.trans h1, h2, by rw [h'.bi]; exact h3⟩⟩

theorem frame_of_outcome {x : RapStep} {s t : State} {onOk : State → State} (hx : ∀ u, x.Yields u → RapFrame s u)
    (hk : ∀ u, Between u (onOk u)) (h : x.outcome s onOk = .next t) : ServiceFrame s t := by
  rcases outcome_cases h with ⟨-, rfl⟩ | ⟨u, h1, rfl⟩ | ⟨u, h1, rfl⟩ | ⟨e, u, h1, rfl⟩
  · constructor <;> simp
  · exact frame_of_rap (hx _ (Or.inl h1)) (Between.refl _)
  · exact frame_of_rap (hx _ (Or.inr (Or.inl h1))) (hk _)
  · exact frame_of_rap (hx _ (Or.inr (Or.inr ⟨e, h1⟩))) (between_owe _ _)

theorem frame_of_sleep {s t : State} {lo hi : Nat} {next : State → State} (hk : ∀ u, Between u (next u))
    (h : ((sleep lo hi s).thenMore next).outcome s id = .next t) : ServiceFrame s t := by
  rcases sleep_cases lo hi s with ⟨-, h'⟩ | ⟨a, -, h'⟩
  · simp [h', Exchange.thenMore, RapStep.outcome] at h; subst h; constructor <;> simp
  · simp [h', Exchange.thenMore, RapStep.outcome] at h; subst h
    refine frame_of_rap (u := s.record (.sleep lo hi) .done) ?_ (hk _)
    constructor <;> simp [answerFits, isError]

/-- The frame of a step of a request in service. -/
theorem work_frame {i : Instr} {s t : State} (h : workOf i s = .next t) : ServiceFrame s t := by
  have hid : ∀ {s t : State}, identifyStep s = .next t → ServiceFrame s t := by
    intro s t h
    unfold identifyStep at h
    split at h
    · exact frame_of_outcome (fun u hu => (rapWrite_frame hu).1) between_afterSelectDrive h
    · exact frame_of_outcome (fun u hu => (rapWrite_frame hu).1) between_afterClear h
    · exact frame_of_outcome (fun u hu => (rapWrite_frame hu).1) between_afterCommand h
    · exact frame_of_outcome (fun u hu => (rapRead_frame hu).1) between_afterPresence h
    · split at h
      · unfold awaitSleep at h
        split at h
        · exact frame_of_sleep (fun u => by constructor <;> rfl) h
        · exact frame_of_sleep (fun u => by constructor <;> rfl) h
      · split at h
        · simp at h
        · exact frame_of_outcome (fun u hu => (rapRead_frame hu).1) between_afterPoll h
    · split at h
      · exact frame_of_outcome (fun u hu => (rapRead_frame hu).1) between_afterData h
      · simp at h
    · simp at h
  cases i with
  | rdreg reg => exact frame_of_outcome (fun u hu => (rapRead_frame hu).1) (fun u => between_owe _ _) h
  | wrreg reg value => exact frame_of_outcome (fun u hu => (rapWrite_frame hu).1) (fun u => between_owe _ _) h
  | identFix => exact hid h
  | identPoll => exact hid h

/-- What `exec` can do when it answers a next state. -/
theorem exec_cases {i : Instr} {s t : State} (h : exec i s = .next t) :
    s.refused = false ∧
      ((CanAccept s ∧ t = beginOf i (s.accept (reqOf i))) ∨
       (s.es = .idle ∧ s.bi = true ∧ t = s.refuse) ∨
       (s.es = .busy ∧ s.req = reqOf i ∧ ∃ r, s.due = some r ∧ t = s.respond r) ∨
       (Serving i s ∧ workOf i s = .next t) ∨
       ((s.es = .uninit ∨ s.es = .cfgfail ∨ (s.es = .busy ∧ s.req ≠ reqOf i)) ∧ t = s)) := by
  rw [exec_eq_serve] at h
  unfold serve at h
  split at h
  · simp at h
  · rename_i hr
    have hr : s.refused = false := by simpa using hr
    refine ⟨hr, ?_⟩
    split at h
    · split at h
      · right; left; simp_all
      · left; simp_all [CanAccept]
    · split at h
      · split at h
        · right; right; left; rename_i hq _ _ hd; exact ⟨by assumption, hq, _, hd, by simpa using h.symm⟩
        · right; right; right; left; exact ⟨⟨hr, by assumption, by assumption, by assumption⟩, h⟩
      · right; right; right; right; simp_all
    · right; right; right; right; simp_all
    · right; right; right; right; simp_all

/-! ## Reinit -/

/-- What `firstReinit` finds: the words before the reinit stay. -/
theorem firstReinit_eq_some {moves rest : List Move} {c : GroupClaim} :
    firstReinit moves = some (c, rest) ↔ ∃ (words : List Word32) (after : List Move),
      moves = words.map .submit ++ .reinit c :: after ∧ rest = words.map .submit ++ after := by
  fun_induction firstReinit moves generalizing rest with
  | case1 => simp
  | case2 d after =>
    refine ⟨fun h => ⟨[], after, by simp_all⟩, fun ⟨words, x, h1, h2⟩ => ?_⟩
    cases words <;> simp_all
  | case3 w tail ih =>
    constructor
    · intro h
      obtain ⟨⟨d, r⟩, hr, hx⟩ := Option.map_eq_some_iff.mp h
      obtain ⟨rfl, rfl⟩ : d = c ∧ .submit w :: r = rest := by simpa using hx
      obtain ⟨words, after, h1, h2⟩ := ih.mp hr
      exact ⟨w :: words, after, by simp [h1], by simp [h2]⟩
    · rintro ⟨words, after, h1, h2⟩
      rcases words with _ | ⟨w', words⟩
      · simp at h1
      · obtain ⟨rfl, h3⟩ : w = w' ∧ tail = words.map .submit ++ .reinit c :: after := by simpa using h1
        exact Option.map_eq_some_iff.mpr ⟨_, ih.mpr ⟨words, after, h3, rfl⟩, by simp [h2]⟩

/-- A reinit that is admitted is what the next step does. -/
theorem step_of_reinitNext {s : State} {c : GroupClaim} {rest : List Move} (hr : s.refused = false)
    (h : reinitNext s c rest) : step s = .next ((s.withInbox rest).reinit c) := by
  obtain ⟨hb, words, after, hw, hi, rfl⟩ := h
  cases he : s.es with
  | busy => exact absurd he hb
  | cfgfail => simp [step, engineStep, hr, he, cfgfailStep, firstReinit_eq_some.mpr ⟨words, after, hi, rfl⟩]
  | uninit =>
    obtain rfl : words = [] := by simpa [he] using hw
    simp_all [step, engineStep, uninitStep]
  | idle =>
    obtain rfl : words = [] := by simpa [he] using hw
    simp_all [step, engineStep, idleStep]

/-- A reinit at the head of the moves is the next step, but in BUSY. -/
theorem takesReinit_of_head {s : State} {c : GroupClaim} {rest : List Move} (hb : s.es ≠ .busy)
    (hi : s.inbox = .reinit c :: rest) : takesReinit s :=
  ⟨c, rest, hb, [], rest, Or.inr rfl, hi, rfl⟩

/-- In CFGFAIL a step that is no reinit finds none. -/
theorem firstReinit_eq_none {s : State} (he : s.es = .cfgfail) (hx : ¬ takesReinit s) : firstReinit s.inbox = none := by
  rcases h : firstReinit s.inbox with _ | ⟨c, rest⟩
  · rfl
  · obtain ⟨words, after, h1, h2⟩ := firstReinit_eq_some.mp h
    exact absurd ⟨c, rest, by simp [he], words, after, Or.inl he, h1, h2⟩ hx

/-- What a step of the machine can do when it answers a next state. -/
theorem step_cases {s t : State} (h : step s = .next t) :
    s.refused = false ∧
      ((s.es = .uninit ∧ ¬ takesReinit s ∧ t = s.configCheck) ∨
       ((s.es = .idle ∧ s.inbox = [] ∨ s.es = .cfgfail ∧ ¬ takesReinit s) ∧ t = s) ∨
       (∃ c rest, reinitNext s c rest ∧ t = (s.withInbox rest).reinit c) ∨
       (∃ w rest, s.es = .idle ∧ s.inbox = .submit w :: rest ∧ s.bi = true ∧ t = (s.withInbox rest).refuse) ∨
       (∃ w rest, CanAccept s ∧ s.inbox = .submit w :: rest ∧ decode w = none ∧ t = (s.withInbox rest).acceptIllegal) ∨
       (∃ w rest i, CanAccept s ∧ s.inbox = .submit w :: rest ∧ decode w = some i ∧
         t = beginOf i ((s.withInbox rest).accept (reqOf i))) ∨
       (∃ r, s.es = .busy ∧ s.due = some r ∧ t = s.respond r) ∨
       (∃ i, Serving i s ∧ workOf i s = .next t) ∨
       (∃ i, s.es = .busy ∧ s.due = none ∧ s.req.instr = some i ∧ s.req ≠ reqOf i ∧ t = s)) := by
  by_cases hx : takesReinit s
  · obtain ⟨c, rest, hc⟩ := hx
    have hr : s.refused = false := by cases hr : s.refused <;> simp_all [step, engineStep]
    rw [step_of_reinitNext hr hc] at h
    exact ⟨hr, Or.inr (Or.inr (Or.inl ⟨c, rest, hc, by simpa using h.symm⟩))⟩
  unfold step engineStep at h
  split at h
  · simp at h
  rename_i hr
  have hr : s.refused = false := by simpa using hr
  refine ⟨hr, ?_⟩
  split at h
  · rename_i hes
    unfold uninitStep at h
    split at h
    · left; simp_all
    · left; simp_all
    · rename_i hi; exact absurd (takesReinit_of_head (by simp [hes]) hi) hx
  · rename_i hes
    right; left; simp_all [cfgfailStep, firstReinit_eq_none hes hx]
  · rename_i hes
    unfold idleStep at h
    split at h
    · right; left; simp_all
    · rename_i w rest hi
      unfold submitWord at h
      split at h
      · right; right; right; left; exact ⟨w, rest, hes, hi, by simp_all, by simpa using h.symm⟩
      · rename_i hb
        have hb : s.bi = false := by simpa using hb
        split at h
        · rename_i i hd
          right; right; right; right; right; left
          have hc : CanAccept (s.withInbox rest) := ⟨by simpa using hes, by simpa using hb, by simpa using hr⟩
          rw [exec_accept hc] at h
          exact ⟨w, rest, i, ⟨hes, hb, hr⟩, hi, hd, by simpa using h.symm⟩
        · rename_i hd
          right; right; right; right; left
          exact ⟨w, rest, ⟨hes, hb, hr⟩, hi, hd, by simpa using h.symm⟩
    · rename_i hi; exact absurd (takesReinit_of_head (by simp [hes]) hi) hx
  · rename_i hes
    unfold busyStep at h
    split at h
    · rename_i r hd
      right; right; right; right; right; right; left; exact ⟨r, hes, hd, by simpa using h.symm⟩
    · rename_i hd
      split at h
      · rename_i i hi
        by_cases hq : s.req = reqOf i
        · right; right; right; right; right; right; right; left
          have hs : Serving i s := ⟨hr, hes, hq, hd⟩
          rw [exec_serving hs] at h
          exact ⟨i, hs, h⟩
        · right; right; right; right; right; right; right; right
          refine ⟨i, hes, hd, hi, hq, ?_⟩
          have := exec_cases h
          simp_all [Serving, CanAccept]
      · simp at h

end Sys2Proof.Machine
end

