-- ==== Sys2Proof/Laws/Blocks.lean ====
section
/-! SUPPORT. A whole RAP operation of an environment in which nothing fails, as one block of steps of the request that
calls it (41_register_access.md R125, R130, R141). -/

namespace Sys2Proof.Machine

/-! ## Runs -/

theorem execTimes_succ {i : Instr} {n : Nat} {s t : State} (h : exec i s = .next t) :
    execTimes i (n + 1) s = execTimes i n t := by
  simp [execTimes, h]

theorem execTimes_add {i : Instr} {m n : Nat} {s t : State} (h : execTimes i m s = .next t) :
    execTimes i (m + n) s = execTimes i n t := by
  induction m generalizing s with
  | zero => simp [execTimes] at h; simp [h]
  | succ m ih =>
    rw [show m + 1 + n = (m + n) + 1 by omega]
    simp only [execTimes] at h ⊢
    cases hx : exec i s <;> simp only [hx, reduceCtorEq] at h ⊢
    exact ih h

/-! ## What a whole RAP operation leaves alone -/

/-- The fields of `RapFrame` without the trace: they compose over any number of steps. -/
structure RapKept (s t : State) : Prop where
  es : t.es = s.es
  req : t.req = s.req
  rsp : t.rsp = s.rsp
  rspValid : t.rspValid = s.rspValid
  stw : t.stw = s.stw
  k : t.k = s.k
  wc : t.wc = s.wc
  np : t.np = s.np
  seq : t.seq = s.seq
  cfgerr : t.cfgerr = s.cfgerr
  idbuf : t.idbuf = s.idbuf
  refused : t.refused = s.refused
  params : t.params = s.params
  claim : t.claim = s.claim
  due : t.due = s.due
  inbox : t.inbox = s.inbox
  traceMark : t.traceMark = s.traceMark
  led : t.lines.led = s.lines.led
  rst : t.lines.rst = s.lines.rst

theorem RapKept.refl (s : State) : RapKept s s := by constructor <;> rfl

theorem RapFrame.kept {s t : State} (h : RapFrame s t) : RapKept s t := by
  cases h; constructor <;> assumption

theorem RapKept.trans {s t u : State} (h : RapKept s t) (h' : RapKept t u) : RapKept s u := by
  cases h; cases h'; constructor <;> simp_all

/-- A request whose next primitives are those of `RAP_Read(r)`, from state `s` on. -/
def CallsRead (i : Instr) (r : RegIdx) (onOk : State → State) (s : State) : Prop :=
  ∀ u, RapKept s u → readPosition u → exec i u = (rapRead r u).outcome u onOk

/-- A request whose next primitives are those of `RAP_Write(r, v)`, from state `s` on. -/
def CallsWrite (i : Instr) (r : RegIdx) (v : Word) (onOk : State → State) (s : State) : Prop :=
  ∀ u, RapKept s u → writePosition u → exec i u = (rapWrite r v u).outcome u onOk

theorem step_more {i : Instr} {u v : State} {x : RapStep} {onOk : State → State}
    (h : exec i u = x.outcome u onOk) (hx : x = .more v) : exec i u = .next v := by
  rw [h, hx]; rfl

/-! ## Primitives that do not fail -/

theorem setLines_ok {g : GroupWrite} {s : State} {w : Word} {rest : List (Option Draw)}
    (h : s.answers = some ⟨none, w⟩ :: rest) :
    setLines g s = .ok ((s.record (.setLines g) .ok).withLines (Lines.drive s.lines g)) := by
  simp [setLines, answer_cons h]

theorem getLines_ok {s : State} {w : Word} {rest : List (Option Draw)} (h : s.answers = some ⟨none, w⟩ :: rest) :
    getLines s = .ok ((s.record .getLines (.okv w)).withSample w) := by
  simp [getLines, answer_cons h]

theorem setDir_ok {i : BitVec 4} {d : DirCmd} {s : State} {w : Word} {rest : List (Option Draw)}
    (h : s.answers = some ⟨none, w⟩ :: rest) :
    setDir i d s = .ok ((s.record (.setDir i d) .ok).withLines (Lines.setD s.lines i d.state)) := by
  simp [setDir, answer_cons h]

theorem sleep_ok {lo hi : Nat} {s : State} {a : Draw} {rest : List (Option Draw)} (h : s.answers = some a :: rest) :
    sleep lo hi s = .ok (s.record (.sleep lo hi) .done) := by
  simp [sleep, answer_cons h]

/-! ## The loops over the data lines -/

/-- The state after `SetDir` of the current line has succeeded. -/
def lineDone (D : Nat → DirCmd) (u : State) : State :=
  (u.record (.setDir u.j (D u.j.toNat)) .ok).withLines (Lines.setD u.lines u.j (D u.j.toNat).state)

/-- The event of one line of a loop. -/
def lineEvent (D : Nat → DirCmd) (j : Nat) : TraceEntry := ⟨.setDir (BitVec.ofNat 4 j) (D j), .ok⟩

/-- What a loop has done when it comes to line 15. -/
structure LoopDone (D : Nat → DirCmd) (u v : State) : Prop where
  kept : RapKept u v
  rapop : v.rapop = u.rapop
  rstep : v.rstep = u.rstep
  j : v.j = 15
  draws : v.draws = u.draws
  bi : v.bi = u.bi
  perr : v.perr = u.perr
  sample : v.sample = u.sample
  cs : v.lines.cs = u.lines.cs
  ad : v.lines.ad = u.lines.ad
  sr : v.lines.sr = u.lines.sr
  sw : v.lines.sw = u.lines.sw
  d : ∀ k : Fin 16, v.lines.d[k] = if u.j.toNat ≤ k.val ∧ k.val < 15 then (D k.val).state else u.lines.d[k]
  trace : v.trace = u.trace ++ (List.range' u.j.toNat (15 - u.j.toNat)).map (lineEvent D)

theorem lineDone_kept (D : Nat → DirCmd) (u : State) : RapKept u (lineDone D u) := by
  constructor <;> simp [lineDone]

theorem withJ_kept (u : State) (j : BitVec 4) : RapKept u (u.withJ j) := by
  constructor <;> simp

theorem loop_run {i : Instr} {D : Nat → DirCmd} {op : RapOp} {st : Nat} {s : State}
    (hstep : ∀ u w rest, RapKept s u → u.rapop = op → u.rstep = st → ¬ u.j = 15 →
      u.answers = some ⟨none, w⟩ :: rest → exec i u = .next ((lineDone D u).withJ (u.j + 1))) :
    ∀ (n : Nat) (u : State) (ws : List Word) (rest : List (Option Draw)), u.j.toNat + n = 15 → RapKept s u →
      u.rapop = op → u.rstep = st → u.answers = allOk ws ++ rest → ws.length = n →
      ∃ v, execTimes i n u = .next v ∧ LoopDone D u v ∧ v.answers = rest := by
  intro n
  induction n with
  | zero =>
    intro u ws rest hj hk hop hst ha hl
    obtain rfl : ws = [] := List.length_eq_zero_iff.mp hl
    have hj15 : u.j = 15 := BitVec.eq_of_toNat_eq (by simpa using hj)
    refine ⟨u, rfl, ⟨RapKept.refl u, rfl, rfl, hj15, rfl, rfl, rfl, rfl, rfl, rfl, rfl, rfl, ?_, ?_⟩, ha⟩
    · intro k; rw [if_neg]; simp [hj15]
    · simp [hj15]
  | succ n ih =>
    intro u ws rest hj hk hop hst ha hl
    rcases ws with _ | ⟨w, ws⟩
    · simp at hl
    have hj15 : ¬ u.j = 15 := fun hq => by rw [hq] at hj; simp at hj
    have ha' : u.answers = some ⟨none, w⟩ :: (allOk ws ++ rest) := ha
    have hx := hstep u w _ hk hop hst hj15 ha'
    have hjs := j_succ hj15
    have hk1 : RapKept u ((lineDone D u).withJ (u.j + 1)) := (lineDone_kept D u).trans (withJ_kept _ _)
    obtain ⟨v, hv, hd, ha2⟩ := ih ((lineDone D u).withJ (u.j + 1)) ws rest
      (by simp only [withJ_j, hjs.1]; omega) (hk.trans hk1) (by simp [lineDone, hop]) (by simp [lineDone, hst])
      (by simp [lineDone, consume_cons ha']) (by simpa using hl)
    refine ⟨v, by rw [execTimes_succ hx]; exact hv, ?_, ha2⟩
    refine ⟨hk1.trans hd.kept, by simpa [lineDone] using hd.rapop, by simpa [lineDone] using hd.rstep, hd.j,
      by simpa [lineDone, consume_cons ha'] using hd.draws, by simpa [lineDone] using hd.bi,
      by simpa [lineDone] using hd.perr,
      by simpa [lineDone] using hd.sample, by simpa [lineDone] using hd.cs, by simpa [lineDone] using hd.ad,
      by simpa [lineDone] using hd.sr, by simpa [lineDone] using hd.sw, ?_, ?_⟩
    · intro k
      rw [hd.d k]
      simp only [withJ_j, hjs.1, withJ_lines, lineDone, withLines_lines, setD_get]
      by_cases h1 : k.val = u.j.toNat
      · rw [if_neg (by omega), if_pos h1, if_pos (by omega), h1]
      · by_cases h2 : u.j.toNat ≤ k.val ∧ k.val < 15
        · rw [if_pos (by omega), if_pos h2]
        · rw [if_neg (by omega), if_neg h1, if_neg h2]
    · rw [hd.trace]
      simp only [withJ_trace, lineDone, withLines_trace, record_trace, withJ_j, hjs.1]
      rw [show 15 - u.j.toNat = (15 - (u.j.toNat + 1)) + 1 by omega, List.range'_succ, List.map_cons]
      simp [lineEvent]

/-! ## A whole read -/

/-- What a read that nothing failed has done. -/
structure ReadDone (r : RegIdx) (w : Word) (u v : State) : Prop where
  kept : RapKept u v
  draws : v.draws = u.draws
  bi : v.bi = u.bi
  perr : v.perr = none
  sample : v.sample = w
  cs : v.lines.cs = csLevels csValue
  ad : v.lines.ad = adLevels r
  sr : v.lines.sr = .zero
  sw : v.lines.sw = u.lines.sw
  released : released v.lines
  trace : v.trace = u.trace ++ readEvents r w

/-- The last seven primitives of a read, from line 15 of step 1 on. -/
theorem read_tail {i : Instr} {r : RegIdx} {onOk : State → State} {s u : State} (hc : CallsRead i r onOk s)
    (hk : RapKept s u) (hop : u.rapop = .read) (hst : u.rstep = 1) (hj : u.j = 15) (hp : u.perr = none)
    {a b c d e f g : Word} {rest : List (Option Draw)} (ha : u.answers = allOk [a, b, c, d, e, f, g] ++ rest) :
    ∃ v, execTimes i 7 u = .next (onOk v) ∧ RapKept u v ∧ v.answers = rest ∧ v.draws = u.draws ∧ v.bi = u.bi ∧
      v.perr = none ∧ v.sample = f ∧
      v.lines = { u.lines with
        cs := csLevels csValue, ad := adLevels r, sr := .zero, d := (Lines.setD u.lines 15 .input).d } ∧
      v.trace = u.trace ++ [lineEvent (fun _ => .input) 15] ++ selectEvents r ++
        [⟨.setLines (.sr 1), .ok⟩, ⟨.sleep 1 100, .done⟩, ⟨.getLines, .okv f⟩, ⟨.setLines (.sr 0), .ok⟩] := by
  let u1 := ((u.record (.setDir u.j .input) .ok).withLines (Lines.setD u.lines u.j .input)).atStep .select 1
  let u2 := ((u1.record (.setLines (.cs csValue)) .ok).withLines (Lines.drive u1.lines (.cs csValue))).atStep .select 2
  let u3 := ((u2.record (.setLines (.ad r)) .ok).withLines (Lines.drive u2.lines (.ad r))).atStep .read 3
  let u4 := ((u3.record (.setLines (.sr strobeOn)) .ok).withLines (Lines.drive u3.lines (.sr strobeOn))).atStep .read 4
  let u5 := (u4.record (.sleep strobeMinUs strobeMaxUs) .done).atStep .read 5
  let u6 := ((u5.record .getLines (.okv f)).withSample f).atStep .read 6
  let u7 := (u6.record (.setLines (.sr strobeOff)) .ok).withLines (Lines.drive u6.lines (.sr strobeOff))
  have a0 : u.answers = some ⟨none, a⟩ :: (allOk [b, c, d, e, f, g] ++ rest) := ha
  have a1 : u1.answers = some ⟨none, b⟩ :: (allOk [c, d, e, f, g] ++ rest) := by
    simp [u1, consume_cons a0, allOk]
  have a2 : u2.answers = some ⟨none, c⟩ :: (allOk [d, e, f, g] ++ rest) := by simp [u2, consume_cons a1, allOk]
  have a3 : u3.answers = some ⟨none, d⟩ :: (allOk [e, f, g] ++ rest) := by simp [u3, consume_cons a2, allOk]
  have a4 : u4.answers = some ⟨none, e⟩ :: (allOk [f, g] ++ rest) := by simp [u4, consume_cons a3, allOk]
  have a5 : u5.answers = some ⟨none, f⟩ :: (allOk [g] ++ rest) := by simp [u5, consume_cons a4, allOk]
  have a6 : u6.answers = some ⟨none, g⟩ :: rest := by simp [u6, consume_cons a5, allOk]
  have s0 : rapRead r u = .more u1 := by
    simp [rapRead, hop, hst, setDir_ok a0, Exchange.thenMore, State.nextLine, hj, u1, DirCmd.state]
  have s1 : rapRead r u1 = .more u2 := by
    simp [rapRead, show u1.rapop = .select by simp [u1], rapSelect, show u1.rstep = 1 by simp [u1], setLines_ok a1,
      Exchange.thenMore, u2]
  have s2 : rapRead r u2 = .more u3 := by
    simp [rapRead, show u2.rapop = .select by simp [u2], rapSelect, show u2.rstep = 2 by simp [u2], setLines_ok a2,
      Exchange.thenMore, u3]
  have s3 : rapRead r u3 = .more u4 := by
    simp [rapRead, show u3.rapop = .read by simp [u3], readAssert, show u3.rstep = 3 by simp [u3], setLines_ok a3, u4]
  have s4 : rapRead r u4 = .more u5 := by
    simp [rapRead, show u4.rapop = .read by simp [u4], show u4.rstep = 4 by simp [u4], sleep_ok a4,
      Exchange.thenMore, u5]
  have s5 : rapRead r u5 = .more u6 := by
    simp [rapRead, show u5.rapop = .read by simp [u5], readSample, show u5.rstep = 5 by simp [u5], getLines_ok a5, u6]
  have s6 : rapRead r u6 = .ok u7 := by
    simp [rapRead, show u6.rapop = .read by simp [u6], readDeassert, show u6.rstep = 6 by simp [u6], setLines_ok a6,
      show u6.perr = none by simp [u6, u5, u4, u3, u2, u1, hp], u7]
  have k1 : RapKept s u1 := hk.trans (rapRead_frame (Or.inl s0)).1.kept
  have k2 : RapKept s u2 := k1.trans (rapRead_frame (Or.inl s1)).1.kept
  have k3 : RapKept s u3 := k2.trans (rapRead_frame (Or.inl s2)).1.kept
  have k4 : RapKept s u4 := k3.trans (rapRead_frame (Or.inl s3)).1.kept
  have k5 : RapKept s u5 := k4.trans (rapRead_frame (Or.inl s4)).1.kept
  have k6 : RapKept s u6 := k5.trans (rapRead_frame (Or.inl s5)).1.kept
  have e0 : exec i u = .next u1 := step_more (hc u hk (Or.inl ⟨hop, Or.inl hst⟩)) s0
  have e1 : exec i u1 = .next u2 := step_more (hc u1 k1 (Or.inr ⟨by simp [u1], by simp [u1]⟩)) s1
  have e2 : exec i u2 = .next u3 := step_more (hc u2 k2 (Or.inr ⟨by simp [u2], by simp [u2]⟩)) s2
  have e3 : exec i u3 = .next u4 := step_more (hc u3 k3 (Or.inl ⟨by simp [u3], by simp [u3]⟩)) s3
  have e4 : exec i u4 = .next u5 := step_more (hc u4 k4 (Or.inl ⟨by simp [u4], by simp [u4]⟩)) s4
  have e5 : exec i u5 = .next u6 := step_more (hc u5 k5 (Or.inl ⟨by simp [u5], by simp [u5]⟩)) s5
  have e6 : exec i u6 = .next (onOk u7) := by
    rw [hc u6 k6 (Or.inl ⟨by simp [u6], by simp [u6]⟩), s6]; rfl
  refine ⟨u7, ?_, ?_, ?_, ?_, ?_, ?_, ?_, ?_, ?_⟩
  · simp [execTimes, e0, e1, e2, e3, e4, e5, e6]
  · exact (((((((rapRead_frame (Or.inl s0)).1.kept.trans (rapRead_frame (Or.inl s1)).1.kept).trans
      (rapRead_frame (Or.inl s2)).1.kept).trans (rapRead_frame (Or.inl s3)).1.kept).trans
      (rapRead_frame (Or.inl s4)).1.kept).trans (rapRead_frame (Or.inl s5)).1.kept).trans
      (rapRead_frame (Or.inr (Or.inl s6))).1.kept)
  · simp [u7, consume_cons a6]
  · rw [show u7.draws = u6.draws by simp [u7, consume_cons a6], show u6.draws = u5.draws by simp [u6, consume_cons a5],
      show u5.draws = u4.draws by simp [u5, consume_cons a4], show u4.draws = u3.draws by simp [u4, consume_cons a3],
      show u3.draws = u2.draws by simp [u3, consume_cons a2], show u2.draws = u1.draws by simp [u2, consume_cons a1]]
    simp [u1, consume_cons a0]
  · simp [u7, u6, u5, u4, u3, u2, u1]
  · simp [u7, u6, u5, u4, u3, u2, u1, hp]
  · simp [u7, u6]
  · simp [u7, u6, u5, u4, u3, u2, u1, Lines.drive, strobeLevel, strobeOff, triOut, hj, Lines.setD]
  · simp [u7, u6, u5, u4, u3, u2, u1, lineEvent, selectEvents, hj, csValue, strobeOn, strobeOff, strobeMinUs,
      strobeMaxUs]

/-- A whole read: 22 primitives (41_register_access.md R125, R141). -/
theorem read_block {i : Instr} {r : RegIdx} {onOk : State → State} {s : State} (hc : CallsRead i r onOk s)
    (hop : s.rapop = .read) (hst : s.rstep = 1) (hj : s.j = 0) (hp : s.perr = none)
    {ws : List Word} {rest : List (Option Draw)} (ha : s.answers = allOk ws ++ rest) (hl : ws.length = 22) :
    ∃ v, execTimes i 22 s = .next (onOk v) ∧ ReadDone r (sampled ws) s v ∧ v.answers = rest := by
  obtain ⟨ws1, a, b, c, d, e, f, g, rfl, hl1⟩ : ∃ ws1 a b c d e f g, ws = ws1 ++ [a, b, c, d, e, f, g] ∧
      ws1.length = 15 := by
    have h7 : (ws.drop 15).length = 7 := by simp [hl]
    match hd : ws.drop 15, h7 with
    | [a, b, c, d, e, f, g], _ =>
      exact ⟨ws.take 15, a, b, c, d, e, f, g, by rw [← hd, List.take_append_drop], by simp [hl]⟩
  obtain ⟨u, hu, hd, hua⟩ := loop_run (i := i) (D := fun _ => .input) (op := .read) (st := 1) (s := s)
    (fun u w rest hk hop hst hj ha => by
      refine step_more (hc u hk (Or.inl ⟨hop, Or.inl hst⟩)) ?_
      simp only [rapRead, hop, hst, setDir_ok ha, Exchange.thenMore, State.nextLine, withLines_j, record_j, if_neg hj,
        lineDone])
    15 s ws1 (allOk [a, b, c, d, e, f, g] ++ rest) (by simp [hj]) (RapKept.refl s) hop hst
    (by simpa [allOk] using ha) hl1
  obtain ⟨v, hv, hkv, hva, hvd, hvb, hvp, hvs, hvl, hvt⟩ := read_tail hc hd.kept (by rw [hd.rapop, hop])
    (by rw [hd.rstep, hst]) hd.j (by rw [hd.perr, hp]) hua
  refine ⟨v, ?_, ⟨hd.kept.trans hkv, by rw [hvd, hd.draws], by rw [hvb, hd.bi], hvp, ?_, by rw [hvl], by rw [hvl],
    by rw [hvl], by rw [hvl]; exact hd.sw, ?_, ?_⟩, hva⟩
  · rw [show 22 = 15 + 7 by rfl, execTimes_add hu]; exact hv
  · rw [hvs]; simp [sampled, List.getD, hl1]
  · intro k
    rw [hvl]
    simp only [setD_get, hd.d k, hj]
    have := k.isLt
    by_cases h : k.val = 15
    · rw [if_pos (by simpa using h)]
    · rw [if_neg (by simpa using h), if_pos (by simp; omega)]; rfl
  · rw [hvt, hd.trace, hj]
    simp [readEvents, releaseEvents, sampled, List.getD, hl1, lineEvent, List.range'_succ, List.range_eq_range']

/-! ## A whole write -/

/-- What a write that nothing failed has done. -/
structure WriteDone (r : RegIdx) (v : Word) (u t : State) : Prop where
  kept : RapKept u t
  draws : t.draws = u.draws
  bi : t.bi = u.bi
  perr : t.perr = u.perr
  sample : t.sample = u.sample
  cs : t.lines.cs = csLevels csValue
  ad : t.lines.ad = adLevels r
  sw : t.lines.sw = .zero
  sr : t.lines.sr = u.lines.sr
  released : released t.lines
  trace : t.trace = u.trace ++ writeEvents r v

/-- The first two primitives of a write, its select. -/
theorem write_head {i : Instr} {r : RegIdx} {v : Word} {onOk : State → State} {s : State}
    (hc : CallsWrite i r v onOk s) (hop : s.rapop = .select) (hst : s.rstep = 1)
    {a b : Word} {rest : List (Option Draw)} (ha : s.answers = allOk [a, b] ++ rest) :
    ∃ u, execTimes i 2 s = .next u ∧ RapKept s u ∧ u.answers = rest ∧ u.rapop = .write ∧ u.rstep = 2 ∧ u.j = 0 ∧
      u.draws = s.draws ∧ u.bi = s.bi ∧ u.perr = s.perr ∧ u.sample = s.sample ∧
      u.lines = { s.lines with cs := csLevels csValue, ad := adLevels r } ∧ u.trace = s.trace ++ selectEvents r := by
  let u1 := ((s.record (.setLines (.cs csValue)) .ok).withLines (Lines.drive s.lines (.cs csValue))).atStep .select 2
  let u2 := (((u1.record (.setLines (.ad r)) .ok).withLines (Lines.drive u1.lines (.ad r))).atStep .write 2).withJ 0
  have a0 : s.answers = some ⟨none, a⟩ :: (allOk [b] ++ rest) := ha
  have a1 : u1.answers = some ⟨none, b⟩ :: rest := by simp [u1, consume_cons a0, allOk]
  have s0 : rapWrite r v s = .more u1 := by
    simp [rapWrite, hop, hst, rapSelect, setLines_ok a0, Exchange.thenMore, u1]
  have s1 : rapWrite r v u1 = .more u2 := by
    simp [rapWrite, show u1.rapop = .select by simp [u1], rapSelect, show u1.rstep = 2 by simp [u1], setLines_ok a1,
      Exchange.thenMore, u2]
  have k0 := (rapWrite_frame (Or.inl s0)).1.kept
  have e0 : exec i s = .next u1 := step_more (hc s (RapKept.refl s) (Or.inr ⟨hop, Or.inl hst⟩)) s0
  have e1 : exec i u1 = .next u2 := step_more (hc u1 k0 (Or.inr ⟨by simp [u1], by simp [u1]⟩)) s1
  refine ⟨u2, by simp [execTimes, e0, e1], k0.trans (rapWrite_frame (Or.inl s1)).1.kept, ?_, by simp [u2], by simp [u2],
    by simp [u2], ?_, by simp [u2, u1], by simp [u2, u1], by simp [u2, u1], by simp [u2, u1, Lines.drive],
    by simp [u2, u1, selectEvents, csValue]⟩
  · simp [u2, consume_cons a1]
  · rw [show u2.draws = u1.draws by simp [u2, consume_cons a1]]; simp [u1, consume_cons a0]

/-- The last data line driven, the strobe pulse and the bus hold: steps 2 (line 15) to 3d of a write. -/
theorem write_middle {i : Instr} {r : RegIdx} {v : Word} {onOk : State → State} {s u : State}
    (hc : CallsWrite i r v onOk s) (hk : RapKept s u) (hop : u.rapop = .write) (hst : u.rstep = 2) (hj : u.j = 15)
    {a b c d e : Word} {rest : List (Option Draw)} (ha : u.answers = allOk [a, b, c, d, e] ++ rest) :
    ∃ t, execTimes i 5 u = .next t ∧ RapKept u t ∧ t.answers = rest ∧ t.rapop = .write ∧ t.rstep = 4 ∧ t.j = 0 ∧
      t.draws = u.draws ∧ t.bi = u.bi ∧ t.perr = u.perr ∧ t.sample = u.sample ∧
      t.lines = { u.lines with sw := .zero, d := (Lines.setD u.lines 15 (dOut (v.getLsbD 15))).d } ∧
      t.trace = u.trace ++ [lineEvent (fun j => .output (v.getLsbD j)) 15] ++
        [⟨.setLines (.sw 1), .ok⟩, ⟨.sleep 1 100, .done⟩, ⟨.setLines (.sw 0), .ok⟩, ⟨.sleep 1 100, .done⟩] := by
  let u1 := ((u.record (.setDir u.j (driveBit v u.j)) .ok).withLines
    (Lines.setD u.lines u.j (driveBit v u.j).state)).atStep .write 31
  let u2 := ((u1.record (.setLines (.sw strobeOn)) .ok).withLines (Lines.drive u1.lines (.sw strobeOn))).atStep .write 32
  let u3 := (u2.record (.sleep strobeMinUs strobeMaxUs) .done).atStep .write 33
  let u4 := ((u3.record (.setLines (.sw strobeOff)) .ok).withLines (Lines.drive u3.lines (.sw strobeOff))).atStep .write 34
  let u5 := ((u4.record (.sleep strobeMinUs strobeMaxUs) .done).atStep .write 4).withJ 0
  have a0 : u.answers = some ⟨none, a⟩ :: (allOk [b, c, d, e] ++ rest) := ha
  have a1 : u1.answers = some ⟨none, b⟩ :: (allOk [c, d, e] ++ rest) := by simp [u1, consume_cons a0, allOk]
  have a2 : u2.answers = some ⟨none, c⟩ :: (allOk [d, e] ++ rest) := by simp [u2, consume_cons a1, allOk]
  have a3 : u3.answers = some ⟨none, d⟩ :: (allOk [e] ++ rest) := by simp [u3, consume_cons a2, allOk]
  have a4 : u4.answers = some ⟨none, e⟩ :: rest := by simp [u4, consume_cons a3, allOk]
  have s0 : rapWrite r v u = .more u1 := by
    simp [rapWrite, hop, hst, setDir_ok a0, Exchange.thenMore, State.nextLine, hj, u1]
  have s1 : rapWrite r v u1 = .more u2 := by
    simp [rapWrite, show u1.rapop = .write by simp [u1], show u1.rstep = 31 by simp [u1], setLines_ok a1,
      Exchange.thenMore, u2]
  have s2 : rapWrite r v u2 = .more u3 := by
    simp [rapWrite, show u2.rapop = .write by simp [u2], show u2.rstep = 32 by simp [u2], sleep_ok a2,
      Exchange.thenMore, u3]
  have s3 : rapWrite r v u3 = .more u4 := by
    simp [rapWrite, show u3.rapop = .write by simp [u3], show u3.rstep = 33 by simp [u3], setLines_ok a3,
      Exchange.thenMore, u4]
  have s4 : rapWrite r v u4 = .more u5 := by
    simp [rapWrite, show u4.rapop = .write by simp [u4], show u4.rstep = 34 by simp [u4], sleep_ok a4,
      Exchange.thenMore, u5]
  have k1 : RapKept u u1 := (rapWrite_frame (Or.inl s0)).1.kept
  have k2 : RapKept u u2 := k1.trans (rapWrite_frame (Or.inl s1)).1.kept
  have k3 : RapKept u u3 := k2.trans (rapWrite_frame (Or.inl s2)).1.kept
  have k4 : RapKept u u4 := k3.trans (rapWrite_frame (Or.inl s3)).1.kept
  have k5 : RapKept u u5 := k4.trans (rapWrite_frame (Or.inl s4)).1.kept
  have e0 : exec i u = .next u1 := step_more (hc u hk (Or.inl ⟨hop, Or.inl hst⟩)) s0
  have e1 : exec i u1 = .next u2 := step_more (hc u1 (hk.trans k1) (Or.inl ⟨by simp [u1], by simp [u1]⟩)) s1
  have e2 : exec i u2 = .next u3 := step_more (hc u2 (hk.trans k2) (Or.inl ⟨by simp [u2], by simp [u2]⟩)) s2
  have e3 : exec i u3 = .next u4 := step_more (hc u3 (hk.trans k3) (Or.inl ⟨by simp [u3], by simp [u3]⟩)) s3
  have e4 : exec i u4 = .next u5 := step_more (hc u4 (hk.trans k4) (Or.inl ⟨by simp [u4], by simp [u4]⟩)) s4
  refine ⟨u5, by simp [execTimes, e0, e1, e2, e3, e4], k5, by simp [u5, consume_cons a4], by simp [u5], by simp [u5],
    by simp [u5], ?_, by simp [u5, u4, u3, u2, u1], by simp [u5, u4, u3, u2, u1], by simp [u5, u4, u3, u2, u1], ?_, ?_⟩
  · rw [show u5.draws = u4.draws by simp [u5, consume_cons a4], show u4.draws = u3.draws by simp [u4, consume_cons a3],
      show u3.draws = u2.draws by simp [u3, consume_cons a2], show u2.draws = u1.draws by simp [u2, consume_cons a1]]
    simp [u1, consume_cons a0]
  · simp [u5, u4, u3, u2, u1, Lines.drive, strobeLevel, strobeOff, triOut, hj, Lines.setD, driveBit, DirCmd.state]
  · simp [u5, u4, u3, u2, u1, lineEvent, hj, driveBit, strobeOn, strobeOff, strobeMinUs, strobeMaxUs]

/-- The last primitive of a write: line 15 back to input. -/
theorem write_last {i : Instr} {r : RegIdx} {v : Word} {onOk : State → State} {s u : State}
    (hc : CallsWrite i r v onOk s) (hk : RapKept s u) (hop : u.rapop = .write) (hst : u.rstep = 4) (hj : u.j = 15)
    {a : Word} {rest : List (Option Draw)} (ha : u.answers = allOk [a] ++ rest) :
    exec i u = .next (onOk (lineDone (fun _ => .input) u)) ∧ (lineDone (fun _ => .input) u).answers = rest ∧
      (lineDone (fun _ => .input) u).draws = u.draws := by
  have a0 : u.answers = some ⟨none, a⟩ :: rest := ha
  have s0 : rapWrite r v u = .ok (lineDone (fun _ => .input) u) := by
    simp [rapWrite, hop, hst, writeReturn, setDir_ok a0, Exchange.thenOk, hj, lineDone]
  refine ⟨?_, by simp [lineDone, consume_cons a0], by simp [lineDone, consume_cons a0]⟩
  rw [hc u hk (Or.inl ⟨hop, by simp [hst]⟩), s0]; rfl

theorem split_at {ws : List Word} {n m : Nat} (h : ws.length = n + m) :
    ∃ a b, ws = a ++ b ∧ a.length = n ∧ b.length = m :=
  ⟨ws.take n, ws.drop n, (List.take_append_drop n ws).symm, by simp [h], by simp [h]⟩

/-- A whole write: 38 primitives (41_register_access.md R130, R141). -/
theorem write_block {i : Instr} {r : RegIdx} {v : Word} {onOk : State → State} {s : State}
    (hc : CallsWrite i r v onOk s) (hop : s.rapop = .select) (hst : s.rstep = 1)
    {ws : List Word} {rest : List (Option Draw)} (ha : s.answers = allOk ws ++ rest) (hl : ws.length = 38) :
    ∃ t, execTimes i 38 s = .next (onOk t) ∧ WriteDone r v s t ∧ t.answers = rest := by
  obtain ⟨w1, ws, rfl, h1, hl⟩ := split_at (n := 2) (m := 36) hl
  obtain ⟨w2, ws, rfl, h2, hl⟩ := split_at (n := 15) (m := 21) hl
  obtain ⟨w3, ws, rfl, h3, hl⟩ := split_at (n := 5) (m := 16) hl
  obtain ⟨w4, w5, rfl, h4, h5⟩ := split_at (n := 15) (m := 1) hl
  simp only [allOk, List.map_append, List.append_assoc] at ha
  match w1, h1 with
  | [a, b], _ =>
  obtain ⟨u1, hx1, hk1, ha1, hop1, hst1, hj1, hd1, hb1, hp1, hs1, hl1, ht1⟩ := write_head hc hop hst (a := a) (b := b) ha
  obtain ⟨u2, hx2, hd2, ha2⟩ := loop_run (i := i) (D := fun j => .output (v.getLsbD j)) (op := .write) (st := 2) (s := s)
    (fun u w rest hk hop hst hj ha => by
      refine step_more (hc u hk (Or.inl ⟨hop, Or.inl hst⟩)) ?_
      simp only [rapWrite, hop, hst, setDir_ok ha, Exchange.thenMore, State.nextLine, withLines_j, record_j, if_neg hj,
        lineDone, driveBit])
    15 u1 w2 _ (by simp [hj1]) hk1 hop1 hst1 (by simpa [allOk] using ha1) h2
  match w3, h3 with
  | [c, d, e, f, g], _ =>
  obtain ⟨u3, hx3, hk3, ha3, hop3, hst3, hj3, hd3, hb3, hp3, hs3, hl3, ht3⟩ :=
    write_middle hc (hk1.trans hd2.kept) (by rw [hd2.rapop, hop1]) (by rw [hd2.rstep, hst1]) hd2.j
      (a := c) (b := d) (c := e) (d := f) (e := g) ha2
  have hk13 := (hk1.trans hd2.kept).trans hk3
  obtain ⟨u4, hx4, hd4, ha4⟩ := loop_run (i := i) (D := fun _ => .input) (op := .write) (st := 4) (s := s)
    (fun u w rest hk hop hst hj ha => by
      refine step_more (hc u hk (Or.inl ⟨hop, by simp [hst]⟩)) ?_
      simp only [rapWrite, hop, hst, writeReturn, if_neg hj, setDir_ok ha, Exchange.thenMore, lineDone])
    15 u3 w4 _ (by simp [hj3]) hk13 hop3 hst3 (by simpa [allOk] using ha3) h4
  match w5, h5 with
  | [h], _ =>
  obtain ⟨hx5, ha5, hd5⟩ := write_last hc (hk13.trans hd4.kept) (by rw [hd4.rapop, hop3])
    (by rw [hd4.rstep, hst3]) hd4.j (a := h) ha4
  refine ⟨lineDone (fun _ => .input) u4, ?_, ?_, ha5⟩
  · rw [show 38 = 2 + (15 + (5 + (15 + 1))) by rfl, execTimes_add hx1, execTimes_add hx2, execTimes_add hx3,
      execTimes_add hx4]
    simp [execTimes, hx5]
  · refine ⟨(hk13.trans hd4.kept).trans (lineDone_kept _ _), by rw [hd5, hd4.draws, hd3, hd2.draws, hd1],
      ?_, ?_, ?_, ?_, ?_, ?_, ?_, ?_, ?_⟩
    · simp [lineDone, hd4.bi, hb3, hd2.bi, hb1]
    · simp [lineDone, hd4.perr, hp3, hd2.perr, hp1]
    · simp [lineDone, hd4.sample, hs3, hd2.sample, hs1]
    · simp [lineDone, hd4.cs, hl3, hd2.cs, hl1]
    · simp [lineDone, hd4.ad, hl3, hd2.ad, hl1]
    · simp [lineDone, hd4.sw, hl3]
    · simp [lineDone, hd4.sr, hl3, hd2.sr, hl1]
    · intro k
      simp only [lineDone, withLines_lines, setD_get, hd4.d k, hd4.j, hj3]
      have := k.isLt
      by_cases h : k.val = 15
      · rw [if_pos (by simpa using h)]; rfl
      · rw [if_neg (by simpa using h), if_pos (by simp; omega)]; rfl
    · simp only [lineDone, withLines_trace, record_trace, hd4.trace, ht3, hd2.trace, ht1, hd4.j, hj3, hj1]
      simp [writeEvents, driveEvents, releaseEvents, lineEvent, List.range'_succ, List.range_eq_range']

end Sys2Proof.Machine
end

