-- ==== Sys2Proof/Laws/PerInstr.lean ====
section
/-! SUPPORT. Statements made once per request: its word against its row of spec/opcode_table.json. -/

namespace Sys2Proof.Laws.RowMatch

/-- The row of a request: the mask and the match value of spec/opcode_table.json. -/
def row : Instr → Word32 × Word32
  | .rdreg _ => (0xFFFFFFE3, 0x00000000)
  | .wrreg _ _ => (0x0000FFE3, 0x00000001)
  | .identFix => (0xFFFFFFFF, 0x00000002)
  | .identPoll => (0xFFFFFFFF, 0x00000022)

/-- The request is well formed, and its word has the fixed bits of its row (30_encoding.md R86, R97). -/
def Statement (i : Instr) : Prop :=
  i.wellFormed = true ∧ encode i &&& (row i).1 = (row i).2

theorem rdreg (reg : RegIdx) : Statement (.rdreg reg) := by
  revert reg; unfold Statement; decide

/-- The low half of a word whose value field is the only one above it. -/
theorem low_half (f : ReqFields) (k : Nat) (hk : k < 16) :
    f.word.getLsbD k = (f.rsv ++ f.mode ++ f.reg ++ f.op).getLsbD k := by
  have h : f.word = (f.value ++ (f.rsv ++ f.mode ++ f.reg ++ f.op : BitVec 16) : BitVec 32) := by
    unfold ReqFields.word
    exact BitVec.eq_of_getLsbD_eq (fun i hi => by simp; grind)
  rw [h, BitVec.getLsbD_append, if_pos hk]

theorem wrreg (reg : RegIdx) (value : Word) : Statement (.wrreg reg value) := by
  refine ⟨by simp [Instr.wellFormed, Instr.fields, ReqFields.wellFormed], ?_⟩
  have low : ∀ (r : RegIdx) (k : Fin 16),
      (((0 : BitVec 10) ++ (0 : BitVec 1) ++ r ++ (0b01 : BitVec 2)).getLsbD k
        && (0xFFE3 : BitVec 32).getLsbD k) = (1 : BitVec 32).getLsbD k := by
    decide
  refine BitVec.eq_of_getLsbD_eq (fun k hk => ?_)
  rw [BitVec.getLsbD_and]
  by_cases h : k < 16
  · rw [encode, low_half _ _ h]
    exact low reg ⟨k, h⟩
  · have high : ∀ i : Fin 32, ¬ i.val < 16 → (0xFFE3 : BitVec 32).getLsbD i = false
        ∧ (1 : BitVec 32).getLsbD i = false := by decide
    have := high ⟨k, hk⟩ h
    simp only [row, this, Bool.and_false]

theorem identFix : Statement .identFix := by unfold Statement; decide

theorem identPoll : Statement .identPoll := by unfold Statement; decide

end Sys2Proof.Laws.RowMatch
end

