-- ==== Sys2Proof/Tests/Slice0.lean ====
section
/-! SUPPORT. Small tests: the smoke tests of WellFormed, words written out from the encoding, single steps whose expected
results are those of spec/95_test_vectors.md, and, for every statement with hypotheses, states and operands that meet
them. -/

namespace Sys2Proof.Tests

open Sys2Proof.Machine

/-! ## WellFormed: one ill-formed term for each check (30_encoding.md R90, R95) -/

/-- Fields with an operation and everything else zero. -/
def plain (op : BitVec 2) : ReqFields := { op := op, reg := 0, mode := 0, rsv := 0, value := 0 }

theorem test_wf_opcode : (plain 0b11).wellFormed = false := by decide
theorem test_wf_reserved : ({ plain 0b01 with rsv := 1 }).wellFormed = false := by decide
theorem test_wf_reserved_high : ({ plain 0b00 with rsv := 0x200 }).wellFormed = false := by decide
theorem test_wf_mode_rdreg : ({ plain 0b00 with mode := 1 }).wellFormed = false := by decide
theorem test_wf_mode_wrreg : ({ plain 0b01 with mode := 1 }).wellFormed = false := by decide
theorem test_wf_value_rdreg : ({ plain 0b00 with value := 1 }).wellFormed = false := by decide
theorem test_wf_reg_ident : ({ plain 0b10 with reg := 1 }).wellFormed = false := by decide
theorem test_wf_value_ident : ({ plain 0b10 with mode := 1, value := 0x8000 }).wellFormed = false := by decide
theorem test_wf_legal : (plain 0b10).wellFormed = true ∧ ({ plain 0b01 with reg := 7, value := 1 }).wellFormed = true := by
  decide
theorem test_wf_asm_register : (AsmLine.rdreg (.number 8)).wellFormed = false
    ∧ (AsmLine.rdreg (.number 7)).wellFormed = true := by decide
theorem test_wf_asm_value : (AsmLine.wrreg (.name .command) 0x10000).wellFormed = false
    ∧ (AsmLine.wrreg (.name .command) 0xFFFF).wellFormed = true := by decide

/-! ## Decode: words written bit by bit, VALUE, reserved, MODE, REG, OP (30_encoding.md R85 to R91) -/

theorem test_decode_rdreg : decode (0b0000000000000000#16 ++ 0b0000000000#10 ++ 0b0#1 ++ 0b101#3 ++ 0b00#2)
    = some (.rdreg 5) := by decide
theorem test_decode_wrreg : decode (0b1011111011101111#16 ++ 0b0000000000#10 ++ 0b0#1 ++ 0b011#3 ++ 0b01#2)
    = some (.wrreg 3 0xBEEF) := by decide
theorem test_decode_ident_fix : decode (0b0000000000000000#16 ++ 0b0000000000#10 ++ 0b0#1 ++ 0b000#3 ++ 0b10#2)
    = some .identFix := by decide
theorem test_decode_ident_poll : decode (0b0000000000000000#16 ++ 0b0000000000#10 ++ 0b1#1 ++ 0b000#3 ++ 0b10#2)
    = some .identPoll := by decide
/-- The illegal rows of 95_test_vectors.md L2.1. -/
theorem test_decode_illegal : decode 0x00000020 = none ∧ decode 0x00010000 = none ∧ decode 0x00000040 = none
    ∧ decode 0x00008000 = none ∧ decode 0x00000021 = none ∧ decode 0x00000006 = none ∧ decode 0x00010002 = none
    ∧ decode 0x00000003 = none ∧ decode 0x0000001F = none ∧ decode 0xFFFFFFFF = none :=
  ⟨rfl, rfl, rfl, rfl, rfl, rfl, rfl, rfl, rfl, rfl⟩
/-- One word of each row of spec/opcode_table.json. -/
theorem test_decode_table : decodeTableWord 32 0x1C = some (.rdreg 7)
    ∧ decodeTableWord 32 0x80000001 = some (.wrreg 0 0x8000) ∧ decodeTableWord 32 2 = some .identFix
    ∧ decodeTableWord 32 0x22 = some .identPoll := ⟨rfl, rfl, rfl, rfl⟩
theorem test_encode : encode (.wrreg 7 0xFFFF) = 0xFFFF001D ∧ encode (.rdreg 3) = 0x0000000C := by decide

/-! ## The assembler (30_encoding.md R95 to R98, 95_test_vectors.md P2) -/

theorem test_parse_wrreg : (parseLine "WRREG LBA0, 0xBEEF ; write".toList).bind assemble = some [0xBEEF000D] := by
  decide
theorem test_parse_rdreg : (parseLine "  RDREG 7".toList).bind assemble = some [0x0000001C] := by decide
theorem test_parse_dump : ((parseLine "DUMP".toList).bind assemble).map List.length = some 8 := by decide
theorem test_parse_out_of_range : (parseLine "RDREG 8".toList).bind assemble = none := by decide

/-! ## States to test on -/

/-- Parameters in range: two poll reads at most. -/
def params : Params :=
  { pollMaxReads := 2, pollSleepMinUs := 10, pollSleepMaxUs := 20, identDelayMaxUs := 1000000
    platInit := { Lines.allUnknown with sr := .zero, sw := .zero, d := Vector.replicate 16 .input } }

/-- What a role needs. -/
def good (n : Nat) : RoleClaim := { claimed := true, lines := n }

/-- Every role claimed with its count (95_test_vectors.md L2.10). -/
def claim : GroupClaim :=
  { led := good 4, databus := good 16, chipSelect := good 2, address := good 3, reset := good 1
    strobeRead := good 1, strobeWrite := good 1 }

/-- The start state S0 of 95_test_vectors.md. -/
def s0 : State :=
  { es := .idle, req := reqOf (.rdreg 0), rsp := reply .ok 0, rspValid := false, bi := false, stw := 0, k := 0
    wc := 0, np := 0, seq := .none, rapop := .none, rstep := 0, j := 0, sample := 0, perr := none, cfgerr := none
    idbuf := [], lines := params.platInit, trace := [], refused := false, params := params, claim := claim
    due := none, inbox := [], answers := [], draws := 8, traceMark := 0 }

/-- The lines inside an operation on register 7: selected, the bus released. -/
def busLines : Lines :=
  { s0.lines with cs := #v[.one, .zero], ad := #v[.one, .one, .one], d := Vector.replicate 16 .input }

/-- An environment that answers the next primitives so. -/
def env (s : State) (answers : List (Option Draw)) : State := { s with answers := answers }

/-- One answer without an error. -/
def fine (w : Word) : Option Draw := some ⟨none, w⟩

/-- RDREG 7 in service, at a step of READ with both strobes as they stand there. -/
def reading (n : Nat) : State :=
  { s0 with es := .busy, req := reqOf (.rdreg 7), rapop := .read, rstep := n
            lines := { busLines with sr := if 3 < n then .one else .zero } }

/-- RDREG 7 in service, at a step of SELECT. -/
def readSelecting (n : Nat) : State :=
  { s0 with es := .busy, req := reqOf (.rdreg 7), rapop := .select, rstep := n, lines := busLines }

/-- WRREG 7, 0 in service, at a step of WRITE whose data lines all drive 0. -/
def writing (n : Nat) (sw : Tri) : State :=
  { s0 with es := .busy, req := reqOf (.wrreg 7 0), rapop := .write, rstep := n
            lines := { busLines with sw := sw, d := Vector.replicate 16 .out0 } }

/-- WRREG 7, 0 at its last primitive. -/
def writeEnding : State :=
  { writing 4 .zero with
    j := 15, lines := { busLines with d := (Vector.replicate 16 .input).set 15 .out0 } }

/-- WRREG 7, 0 at a step of SELECT. -/
def writeSelecting (n : Nat) : State :=
  { s0 with es := .busy, req := reqOf (.wrreg 7 0), rapop := .select, rstep := n, lines := busLines }

/-- An IDENTIFY request in a stage that reads register 7 or 0, at a step of READ. -/
def identReading (i : Instr) (st : Stage) (n : Nat) (sample : Word) : State :=
  { s0 with es := .busy, req := reqOf i, seq := st, rapop := .read, rstep := n, sample := sample
            lines := { busLines with sr := .one } }

/-- An IDENTIFY request in a stage that writes, at its last primitive. -/
def identWriteEnding (i : Instr) (st : Stage) (k : BitVec 2) : State :=
  { writeEnding with req := reqOf i, seq := st, k := k }

/-- An IDENTIFY request that waits. -/
def identWaiting (i : Instr) : State :=
  { s0 with es := .busy, req := reqOf i, seq := .awaitDataReady, lines := busLines }

/-- An engine that has met a bus error and answered it. -/
def broken : State :=
  { s0 with bi := true, rspValid := true, rsp := busErrorReply ⟨1⟩ }

/-- A buffer whose first word is written. -/
def oneWord : List Host.Cell := [(0, 0x01), (1, 0x02)]

/-! ## Single steps against 95_test_vectors.md -/

/-- L2.3: `SetLines(AD, 0b110)`. -/
theorem test_setlines_ok : ∃ t, setLines (.ad 0b110) (env s0 [fine 0]) = .ok t ∧ t.lines.ad = #v[.zero, .one, .one]
    ∧ t.bi = false := ⟨_, rfl, rfl, rfl⟩
theorem test_setlines_err : ∃ t, setLines (.ad 0b110) (env s0 [fails ⟨9⟩]) = .err ⟨9⟩ t
    ∧ t.lines.ad = #v[.u, .u, .u] ∧ t.bi = true := ⟨_, rfl, rfl, rfl⟩
/-- L2.3: `SetDir(D[3], OUT(1))`. -/
theorem test_setdir_ok : ∃ t, setDir 3 (.output true) (env s0 [fine 0]) = .ok t
    ∧ t.lines.d = s0.lines.d.set 3 .out1 := ⟨_, rfl, rfl⟩
theorem test_setdir_err : ∃ t, setDir 3 .input (env s0 [fails ⟨9⟩]) = .err ⟨9⟩ t
    ∧ t.lines.d = s0.lines.d.set 3 .u ∧ t.bi = true := ⟨_, rfl, rfl, rfl⟩
/-- L2.3: `GetLines(D)` answered `OKV(0x0058)`. -/
theorem test_getlines : ∃ t, getLines (env s0 [fine 0x0058]) = .ok t ∧ t.sample = 0x0058 ∧ t.lines = s0.lines :=
  ⟨_, rfl, rfl, rfl⟩
/-- L2.3: `Sleep(1, 100)`. -/
theorem test_sleep : ∃ t, sleep 1 100 (env s0 [fine 0]) = .ok t ∧ t.lines = s0.lines ∧ t.trace = [⟨.sleep 1 100, .done⟩] :=
  ⟨_, rfl, rfl, rfl⟩

/-- L1.1: event 18 of RDREG 6 carries the address `0b110`. -/
theorem test_rdreg_address : ∃ t, exec (.rdreg 6) (env { readSelecting 2 with req := reqOf (.rdreg 6) } [fine 0])
    = .next t ∧ t.trace = [⟨.setLines (.ad 0b110), .ok⟩] ∧ t.lines.ad = #v[.zero, .one, .one] := ⟨_, rfl, rfl, rfl⟩
/-- L2.5, {22}: the deassert fails, and the word is dropped. -/
theorem test_rdreg_deassert_fails : ∃ t, exec (.rdreg 7) (env (reading 6) [fails ⟨22⟩]) = .next t
    ∧ t.due = some ⟨2, 0x0000, some ⟨22⟩⟩ ∧ t.lines.sr = .u := ⟨_, rfl, rfl, rfl⟩
/-- L2.6: event 7 of WRREG 3, 0xBEEF drives line 4 to 0, and event 6 drives line 3 to 1. -/
theorem test_wrreg_levels : ∃ t u,
    exec (.wrreg 3 0xBEEF) (env { writing 2 .zero with req := reqOf (.wrreg 3 0xBEEF), j := 3 } [fine 0, fine 0]) = .next t
    ∧ exec (.wrreg 3 0xBEEF) t = .next u
    ∧ u.trace = [⟨.setDir 3 (.output true), .ok⟩, ⟨.setDir 4 (.output false), .ok⟩] := ⟨_, _, rfl, rfl, rfl⟩
/-- L2.6, {28}: line 5 fails to return to input. -/
theorem test_wrreg_return_fails : ∃ t, exec (.wrreg 7 0) (env { writing 4 .zero with j := 5 } [fails ⟨28⟩]) = .next t
    ∧ t.due = some ⟨2, 0x0000, some ⟨28⟩⟩ ∧ t.lines.d = (writing 4 .zero).lines.d.set 5 .u := ⟨_, rfl, rfl, rfl⟩
/-- L2.8: `0xFF00` is a present drive for IDENT.FIX. -/
theorem test_identfix_presence : ∃ t, exec .identFix (env (identReading .identFix .checkPresence 6 0xFF00) [fine 0])
    = .next t ∧ t.due = none ∧ t.seq = .awaitDataReady ∧ t.stw = 0xFF00 := ⟨_, rfl, rfl, rfl, rfl⟩
/-- L1.6: the word `0x0102` lies as `01 02`. -/
theorem test_identfix_bytes : ∃ t, exec .identFix (env (identReading .identFix .burstRead 6 0x0102) [fine 0]) = .next t
    ∧ t.idbuf = oneWord ∧ t.wc = 1 := ⟨_, rfl, rfl, rfl⟩
/-- L2.9: `0x0009` is a device error, although DRQ is set. -/
theorem test_identpoll_error : ∃ t, exec .identPoll (env (identReading .identPoll .awaitDataReady 6 0x0009) [fine 0])
    = .next t ∧ t.due = some ⟨4, 0x0009, none⟩ := ⟨_, rfl, rfl⟩
/-- L2.9: `0x0088` (BSY and DRQ) is not ready. -/
theorem test_identpoll_busy : ∃ t, exec .identPoll (env (identReading .identPoll .awaitDataReady 6 0x0088) [fine 0])
    = .next t ∧ t.due = none ∧ t.seq = .awaitDataReady ∧ t.rapop = .none := ⟨_, rfl, rfl, rfl, rfl⟩

/-- L2.2: response words. -/
theorem test_response_words : (reply .ok 0x0050).word = 0x00500000 ∧ (reply .protocolTimeout 0x0080).word = 0x00800003
    ∧ (busErrorReply ⟨1⟩).word = 0x00000002 := by decide
/-- L2.10: `led` 3 lines and `databus` 15 lines. -/
theorem test_config_order : (({ s0 with claim := { claim with led := good 3, databus := good 15 } } : State).configCheck).cfgerr
    = some .led := rfl
/-- L2.10: `databus` 17 lines, and `reset` not claimed. -/
theorem test_config_exact : firstFailing { claim with databus := good 17 } = some .databus
    ∧ firstFailing { claim with reset := ⟨false, 1⟩ } = some .reset ∧ firstFailing claim = none := by decide
/-- A byte written twice keeps the canonical form, and a lower offset goes before it. -/
theorem test_memory_set : Memory.set (Memory.set oneWord 1 0x05) 0 0x04 = [(0, 0x04), (1, 0x05)]
    ∧ Memory.wf oneWord = true ∧ Memory.wf [(1, 0), (0, 0)] = false ∧ Memory.wf [(512, 0)] = false := by decide

/-- A word placed on the machine right after reset runs in the very next step. -/
theorem test_with_fetch_word : ∃ t, step (State.reset.withFetchWord 32 0xBEEF000D) = .next t ∧ t.es = .busy
    ∧ t.req = ⟨0b01, 3, 0, 0xBEEF⟩ := ⟨_, rfl, rfl, rfl⟩

/-! ## Witnesses: states that meet the hypotheses of each statement -/

/-- The invariant of a state of `s0` that serves a request. -/
theorem inv_serving {s : State} (hp : s.params = params) (hm : s.idbuf = []) (he : s.es = .busy) (hd : s.due = none)
    (hb : s.bi = false) (hq : s.perr = none) (hr : s.rspValid = false) (hw : s.wc = 0) (hn : s.np ≤ 2)
    (hpos : servicePosition s) (hl : callLines (currentCall s) s) : Inv s := by
  refine ⟨by rw [hp]; decide, by rw [hm]; decide, ?_, ⟨by rw [hw]; decide, by rw [hp]; exact hn⟩, ?_, ?_, ?_⟩
  · simp [PositionOk, he, hpos]
  · simp [ResponseOk, hr, hd]
  · simp [BusErrorOk, he, hd, hb, hq]
  · simp [LinesOk, hb, he, hd, hl]

theorem test_inv_s0 : Inv s0 := by
  refine ⟨by decide, by decide, ?_, ?_, ?_, ?_, ?_⟩ <;>
    simp [PositionOk, CountersOk, ResponseOk, BusErrorOk, LinesOk, s0, identWords]

/-- All inputs. -/
theorem inputs_get (i : Fin 16) : (Vector.replicate 16 DState.input)[i] = .input := by simp

/-- All zeros. -/
theorem zeros_get (i : Fin 16) : (Vector.replicate 16 DState.out0)[i] = dOut ((0 : Word).getLsbD i) := by simp [dOut]

/-- The address lines of register 7. -/
theorem address_seven : #v[Tri.one, .one, .one] = adLevels 7 := by decide

/-- The data lines before the last primitive of a write of 0. -/
theorem last_line : ∀ i : Fin 16, ((Vector.replicate 16 DState.input).set 15 .out0)[i]
    = if i.val < 15 then .input else dOut ((0 : Word).getLsbD i) := by decide

theorem inv_reading_1 (a : List (Option Draw)) : Inv (env (reading 1) a) :=
  inv_serving rfl rfl rfl rfl rfl rfl rfl rfl (Nat.zero_le 2) ⟨rfl, Or.inl ⟨rfl, Or.inl rfl⟩, rfl⟩ (fun i _ => inputs_get i)
theorem inv_reading_3 (a : List (Option Draw)) : Inv (env (reading 3) a) :=
  inv_serving rfl rfl rfl rfl rfl rfl rfl rfl (Nat.zero_le 2) ⟨rfl, Or.inl ⟨rfl, Or.inr (Or.inl rfl)⟩, rfl⟩
    ⟨inputs_get, ⟨rfl, address_seven⟩, fun h => absurd h (Nat.lt_irrefl 3)⟩
theorem inv_reading_5 (a : List (Option Draw)) : Inv (env (reading 5) a) :=
  inv_serving rfl rfl rfl rfl rfl rfl rfl rfl (Nat.zero_le 2) ⟨rfl, Or.inl ⟨rfl, Or.inr (Or.inr (Or.inr (Or.inl rfl)))⟩, rfl⟩
    ⟨inputs_get, ⟨rfl, address_seven⟩, fun _ => rfl⟩
theorem inv_reading_6 (a : List (Option Draw)) : Inv (env (reading 6) a) :=
  inv_serving rfl rfl rfl rfl rfl rfl rfl rfl (Nat.zero_le 2) ⟨rfl, Or.inl ⟨rfl, Or.inr (Or.inr (Or.inr (Or.inr rfl)))⟩, rfl⟩
    ⟨inputs_get, ⟨rfl, address_seven⟩, fun _ => rfl⟩
theorem inv_readSelecting_2 (a : List (Option Draw)) : Inv (env (readSelecting 2) a) :=
  inv_serving rfl rfl rfl rfl rfl rfl rfl rfl (Nat.zero_le 2) ⟨rfl, Or.inr ⟨rfl, Or.inr rfl⟩, rfl⟩ ⟨inputs_get, fun _ => rfl⟩

theorem inv_writing_2 (a : List (Option Draw)) : Inv (env (writing 2 .zero) a) :=
  inv_serving rfl rfl rfl rfl rfl rfl rfl rfl (Nat.zero_le 2) ⟨rfl, Or.inl ⟨rfl, Or.inl rfl⟩, rfl⟩
    ⟨⟨rfl, address_seven⟩, fun i _ => zeros_get i⟩
theorem inv_writing_31 (a : List (Option Draw)) : Inv (env (writing 31 .zero) a) :=
  inv_serving rfl rfl rfl rfl rfl rfl rfl rfl (Nat.zero_le 2) ⟨rfl, Or.inl ⟨rfl, Or.inr (Or.inl rfl)⟩, rfl⟩
    ⟨⟨rfl, address_seven⟩, zeros_get, fun h => absurd h (by decide : ¬ (31 = 32 ∨ 31 = 33)), fun h => absurd h (by decide : 31 ≠ 34)⟩
theorem inv_writing_33 (a : List (Option Draw)) : Inv (env (writing 33 .one) a) :=
  inv_serving rfl rfl rfl rfl rfl rfl rfl rfl (Nat.zero_le 2)
    ⟨rfl, Or.inl ⟨rfl, Or.inr (Or.inr (Or.inr (Or.inl rfl)))⟩, rfl⟩
    ⟨⟨rfl, address_seven⟩, zeros_get, fun _ => rfl, fun h => absurd h (by decide : 33 ≠ 34)⟩
theorem inv_writing_4 (a : List (Option Draw)) : Inv (env (writing 4 .zero) a) :=
  inv_serving rfl rfl rfl rfl rfl rfl rfl rfl (Nat.zero_le 2)
    ⟨rfl, Or.inl ⟨rfl, Or.inr (Or.inr (Or.inr (Or.inr (Or.inr rfl))))⟩, rfl⟩
    ⟨⟨rfl, address_seven⟩, rfl, fun i => zeros_get i⟩
theorem inv_writeSelecting_1 (a : List (Option Draw)) : Inv (env (writeSelecting 1) a) :=
  inv_serving rfl rfl rfl rfl rfl rfl rfl rfl (Nat.zero_le 2) ⟨rfl, Or.inr ⟨rfl, Or.inl rfl⟩, rfl⟩
    (fun h => absurd h (by decide : 1 ≠ 2))
theorem inv_writeEnding (a : List (Option Draw)) : Inv (env writeEnding a) :=
  inv_serving rfl rfl rfl rfl rfl rfl rfl rfl (Nat.zero_le 2)
    ⟨rfl, Or.inl ⟨rfl, Or.inr (Or.inr (Or.inr (Or.inr (Or.inr rfl))))⟩, rfl⟩
    ⟨⟨rfl, address_seven⟩, rfl, last_line⟩
theorem inv_polling (w : Word) (n : Nat) (a : List (Option Draw)) (h : n < 2) :
    Inv (env { identReading .identPoll .awaitDataReady 6 w with np := n } a) :=
  inv_serving rfl rfl rfl rfl rfl rfl rfl rfl (Nat.le_of_lt h)
    ⟨rfl, rfl, Or.inr (Or.inl ⟨rfl, Or.inr (Or.inr (Or.inr (Or.inr rfl)))⟩), h⟩
    ⟨inputs_get, ⟨rfl, rfl⟩, fun _ => rfl⟩

/-- `s0` can accept, whatever its answers. -/
theorem accepts (a : List (Option Draw)) : CanAccept (env s0 a) := ⟨rfl, rfl, rfl⟩

/-- `s0` whose host and platform make these moves. -/
def moved (m : List Move) : State := { s0 with inbox := m }

theorem test_hyp_EncodeOfDecode : decode 0xBEEF000D = some (.wrreg 3 0xBEEF) := by decide

/-- One word for each of the five conditions, and a word that meets none. -/
theorem test_hyp_IllegalWord : illegalWord 0x00000003 ∧ illegalWord 0x00008000 ∧ illegalWord 0x00000021
    ∧ illegalWord 0x80000000 ∧ illegalWord 0x0000001E ∧ illegalWord 0x00010022 ∧ ¬ illegalWord 0xFFFF001D := by
  refine ⟨?_, ?_, ?_, ?_, ?_, ?_, ?_⟩ <;> unfold illegalWord <;> decide
theorem test_hyp_IllegalWordIsAnswered : CanAccept (moved [.submit 0x3]) ∧ (moved [.submit 0x3]).inbox = .submit 0x3 :: []
    ∧ s0.seq = .none ∧ s0.rapop = .none ∧ s0.rstep = 0 ∧ s0.due = none := ⟨⟨rfl, rfl, rfl⟩, rfl, rfl, rfl, rfl, rfl⟩
theorem test_hyp_ResponseWordLayout : ResponseOk broken ∧ broken.rspValid = true :=
  ⟨⟨fun _ => ⟨by decide, by decide, fun _ => rfl⟩, fun _ h => by cases h⟩, rfl⟩

/-- A report whose first role alone fails, or whose last one alone does. -/
def badFirst : GroupClaim := { claim with led := good 5 }
/-- See `badFirst`. -/
def badLast : GroupClaim := { claim with strobeWrite := ⟨false, 1⟩ }

theorem test_hyp_ConfigurationCheck : let s : State := { s0 with es := .uninit, claim := badLast }
    s.refused = false ∧ s.es = .uninit ∧ ¬ takesReinit s :=
  ⟨rfl, rfl, fun h => by obtain ⟨c, rest, -, words, after, -, h, -⟩ := h; cases words <;> cases h⟩
/-- Every row passes, the first one fails, and only the last one fails. -/
theorem test_hyp_checkOutcome : (∀ x ∈ roleTable claim, rowPasses x) ∧
    (∃ x after, roleTable badFirst = [] ++ x :: after ∧ ¬ rowPasses x) ∧
    ∃ before x, roleTable badLast = before ++ x :: [] ∧ (∀ y ∈ before, rowPasses y) ∧ ¬ rowPasses x := by
  unfold rowPasses
  exact ⟨by decide, ⟨(good 5, 4, .led), _, rfl, by decide⟩,
    ⟨(roleTable claim).dropLast, (⟨false, 1⟩, 1, .strobeWrite), rfl, by decide, by decide⟩⟩
/-- 95_test_vectors.md L2.10 for a reinit: the first failing role in the order of the table. -/
theorem test_reinit_records_the_first :
    ∃ t, step { s0 with inbox := [.reinit { badLast with databus := good 15, reset := good 2 }] } = .next t
      ∧ t.es = .cfgfail ∧ t.cfgerr = some .databus := ⟨_, rfl, rfl, rfl⟩
/-- A reinit that is the next move, in each state but BUSY; one behind a word that the host waits with, in CFGFAIL. -/
theorem test_hyp_Reinit : let s := moved [.reinit claim]; let u : State := { moved [.submit 2, .reinit claim] with es := .cfgfail }
    s.refused = false ∧ reinitNext s claim [] ∧ reinitNext { s with es := .uninit } claim []
      ∧ reinitNext { s with es := .cfgfail } claim [] ∧ u.refused = false ∧ reinitNext u claim [.submit 2] :=
  ⟨rfl, ⟨by decide, [], [], Or.inr rfl, rfl, rfl⟩, ⟨by decide, [], [], Or.inr rfl, rfl, rfl⟩,
    ⟨by decide, [], [], Or.inl rfl, rfl, rfl⟩, rfl, ⟨by decide, [2], [], Or.inl rfl, rfl, rfl⟩⟩
/-- 10_state.md R22, 60_exceptions.md R207, R208: a word that waits in CFGFAIL does not keep the platform from a reinit, and
is still outside the engine after it. -/
theorem test_reinit_passes_a_waiting_word :
    ∃ t, step { moved [.submit 2, .reinit claim] with es := .cfgfail, cfgerr := some .led } = .next t
      ∧ t.es = .idle ∧ t.cfgerr = none ∧ t.inbox = [.submit 2] := ⟨_, rfl, rfl, rfl, rfl⟩
/-- 10_state.md R22: a reinit in UNINIT. -/
theorem test_reinit_in_uninit :
    ∃ t, step { moved [.reinit badFirst, .submit 2] with es := .uninit } = .next t
      ∧ t.es = .cfgfail ∧ t.cfgerr = some .led ∧ t.inbox = [.submit 2] := ⟨_, rfl, rfl, rfl, rfl⟩
/-- Each of the four ways the engine state changes. -/
theorem test_hyp_EngineStateTransitions :
    (∃ t, step { s0 with es := .uninit } = .next t ∧ t.es = .idle) ∧
    (∃ t, step (moved [.submit 2]) = .next t ∧ t.es = .busy) ∧
    (∃ t, step { reading 6 with due := some (reply .ok 5) } = .next t ∧ t.es = .idle) ∧
    ∃ t, step { moved [.reinit { claim with databus := good 15 }] with es := .idle } = .next t ∧ t.es = .cfgfail :=
  ⟨⟨_, rfl, rfl⟩, ⟨_, rfl, rfl⟩, ⟨_, rfl, rfl⟩, ⟨_, rfl, rfl⟩⟩
/-- With no reinit to come, and with one behind a word. -/
theorem test_hyp_CfgfailAcceptsNothing : let s : State := { moved [.submit 0] with es := .cfgfail }
    s.refused = false ∧ s.es = .cfgfail ∧ (∀ c, Move.reinit c ∉ s.inbox)
      ∧ Move.reinit claim ∈ [Move.submit 0, Move.reinit claim] :=
  ⟨rfl, rfl, fun c h => by simp [moved] at h, by simp⟩
/-- 60_exceptions.md R209: a run is ended with nothing to come or only a reinit, and not with a request pending. -/
theorem test_hyp_EndedRun : RunEnded s0 ∧ RunEnded (moved [.reinit claim])
    ∧ RunEnded { moved [.reinit claim] with es := .cfgfail } ∧ ¬ RunEnded (moved [.submit 0]) :=
  ⟨⟨Or.inl rfl, (fun w h => by simp [s0] at h), rfl⟩, ⟨Or.inl rfl, (fun w h => by simp [moved] at h), rfl⟩,
    ⟨Or.inr rfl, (fun w h => by simp [moved] at h), rfl⟩, fun h => h.2.1 0 (by simp [moved])⟩
/-- A legal word, a word that waits in UNINIT, one that a reinit passes in CFGFAIL, and one submitted while `E.BI` = 1. -/
theorem test_hyp_RequestIsAccepted : CanAccept (moved [.submit 0x22]) ∧ decode 0x22 = some .identPoll
    ∧ (∃ t, step { moved [.submit 0x22] with es := .uninit } = .next t)
    ∧ (∃ t, step { moved [.submit 0x22, .reinit claim] with es := .cfgfail } = .next t ∧ t.inbox = [.submit 0x22])
    ∧ ∃ t, step { moved [.submit 0x22] with bi := true } = .next t :=
  ⟨⟨rfl, rfl, rfl⟩, by decide, ⟨_, rfl⟩, ⟨_, rfl, rfl⟩, ⟨_, rfl⟩⟩
theorem test_hyp_EveryRequestBegins : CanAccept s0 := ⟨rfl, rfl, rfl⟩
theorem test_hyp_ResponseIsDelivered : let s : State := { reading 6 with due := some (reply .ok 5) }
    s.refused = false ∧ s.es = .busy ∧ s.due = some (reply .ok 5) ∧ s.req = reqOf (.rdreg 7) := ⟨rfl, rfl, rfl, rfl⟩
theorem test_hyp_RequestAfterBusError : let s : State := { broken with inbox := [.submit 0x1C] }
    s.es = .idle ∧ s.bi = true ∧ s.refused = false ∧ s.inbox = .submit 0x1C :: [] := ⟨rfl, rfl, rfl, rfl⟩
theorem test_hyp_StepRunsTheDecodedRequest : CanAccept (moved [.submit 0x1C])
    ∧ (moved [.submit 0x1C]).inbox = .submit 0x1C :: [] ∧ decode 0x1C = some (.rdreg 7) :=
  ⟨⟨rfl, rfl, rfl⟩, rfl, by decide⟩
theorem test_hyp_BusyStep : (reading 3).refused = false ∧ (reading 3).es = .busy ∧ (reading 3).req = reqOf (.rdreg 7) :=
  ⟨rfl, rfl, rfl⟩
/-- A BUSY engine goes on, stops at a stray position, and takes no step once REFUSED. -/
theorem test_hyp_BusyEngine : (∃ t, step (env (reading 3) [fine 0]) = .next t)
    ∧ step (env (reading 2) [fine 0]) = .fault .strayPosition
    ∧ step { reading 3 with refused := true } = .refused .requestAfterBusError := ⟨⟨_, rfl⟩, rfl, rfl⟩
/-- Requests that come to owe each kind of response. -/
theorem test_hyp_OutcomesOfEachRequest :
    (∃ t, exec (.rdreg 7) (env (reading 6) [fine 0]) = .next t ∧ t.due = some ⟨0, 0, none⟩) ∧
    (∃ t, exec .identFix (env (identReading .identFix .checkPresence 6 0) [fine 0]) = .next t
      ∧ t.due = some ⟨1, 0, none⟩) ∧
    (∃ t, exec .identPoll (env { identReading .identPoll .awaitDataReady 6 0x80 with np := 1 } [fine 0]) = .next t
      ∧ t.due = some ⟨3, 0x80, none⟩) ∧
    (∃ t, exec .identPoll (env (identReading .identPoll .awaitDataReady 6 0x51) [fine 0]) = .next t
      ∧ t.due = some ⟨4, 0x51, none⟩) ∧
    ∃ t, exec .identFix (env { identReading .identFix .burstRead 6 0 with wc := 255, stw := 0x58 } [fine 0]) = .next t
      ∧ t.due = some ⟨0, 0x58, none⟩ :=
  ⟨⟨_, rfl, rfl⟩, ⟨_, rfl, rfl⟩, ⟨_, rfl, rfl⟩, ⟨_, rfl, rfl⟩, ⟨_, rfl, rfl⟩⟩

/-- What the primitives' statements ask of the environment. -/
theorem test_hyp_Primitives : (env s0 [fine 5]).answer = some ⟨none, 5⟩ ∧ (env s0 [fails ⟨3⟩]).answer = some ⟨some ⟨3⟩, 0⟩ :=
  ⟨rfl, rfl⟩
theorem test_hyp_GetLines : Inv (env (reading 5) [fine 7])
    ∧ ∃ t, step (env (reading 5) [fine 7]) = .next t ∧ t.trace = (env (reading 5) [fine 7]).trace ++ [⟨.getLines, .okv 7⟩] :=
  ⟨inv_reading_5 _, _, rfl, rfl⟩

/-- Whole requests: settled answers in which nothing fails. -/
theorem test_hyp_RdregCompletes (rest : List (Option Draw)) : let ws := List.replicate 22 (0x0050 : Word)
    CanAccept (env s0 (allOk ws ++ rest)) ∧ ws.length = 22 := ⟨accepts _, by decide⟩
theorem test_hyp_WrregCompletes (rest : List (Option Draw)) : let ws := List.replicate 38 (0 : Word)
    CanAccept (env s0 (allOk ws ++ rest)) ∧ ws.length = 38 := ⟨accepts _, by decide⟩
/-- 95_test_vectors.md L1.2: what the trace of WRREG 3, 0xBEEF and of the read's first 20 primitives drives. -/
theorem test_hyp_LoopbackRoundTrip : let ws := List.replicate 38 (0 : Word); let ws' := List.replicate 22 (0xBEEF : Word)
    CanAccept (env s0 (allOk ws ++ (allOk ws' ++ []))) ∧ ws.length = 38 ∧ ws'.length = 22 ∧
      sampled ws' = loopbackWord (writeEvents 3 0xBEEF ++ (readEvents 3 0xBEEF).take 20) :=
  ⟨accepts _, by decide, by decide, by decide⟩

/-- Reads at each of the places where one can fail. -/
theorem test_hyp_ReadErrorPrecedence (a : List (Option Draw)) :
    (∀ s ∈ [reading 1, reading 3, reading 5, reading 6, readSelecting 2],
      Inv (env s a) ∧ Serving (.rdreg 7) (env s a) ∧ currentCall (env s a) = some (.read 7)) ∧
    ∃ t, exec (.rdreg 7) (env (reading 6) [fine 0]) = .next t ∧ t.due = some ⟨0, 0, none⟩ := by
  refine ⟨?_, _, rfl, rfl⟩
  simp only [List.mem_cons, List.not_mem_nil, or_false, forall_eq_or_imp, forall_eq]
  exact ⟨⟨inv_reading_1 a, ⟨rfl, rfl, rfl, rfl⟩, rfl⟩, ⟨inv_reading_3 a, ⟨rfl, rfl, rfl, rfl⟩, rfl⟩,
    ⟨inv_reading_5 a, ⟨rfl, rfl, rfl, rfl⟩, rfl⟩, ⟨inv_reading_6 a, ⟨rfl, rfl, rfl, rfl⟩, rfl⟩,
    ⟨inv_readSelecting_2 a, ⟨rfl, rfl, rfl, rfl⟩, rfl⟩⟩
/-- Reads of an IDENTIFY request, for the same statement. -/
theorem test_hyp_ReadErrorPrecedence_ident (a : List (Option Draw)) : let s := env (identReading .identPoll .awaitDataReady 6 0) a
    Inv s ∧ Serving .identPoll s ∧ currentCall s = some (.read 7) :=
  ⟨inv_polling 0 0 a (by decide), ⟨rfl, rfl, rfl, rfl⟩, rfl⟩
theorem test_hyp_RdregAnswersTheSample : let s := env (reading 6) [fine 0]
    Serving (.rdreg 7) s ∧ s.rapop = .read ∧ s.rstep = 6 ∧ s.perr = none ∧ s.answer = some ⟨none, 0⟩ :=
  ⟨⟨rfl, rfl, rfl, rfl⟩, rfl, rfl, rfl, rfl⟩
theorem test_hyp_WrregAnswersOk : let s := env writeEnding [fine 0]
    Serving (.wrreg 7 0) s ∧ s.rapop = .write ∧ s.rstep = 4 ∧ s.j = 15 ∧ s.answer = some ⟨none, 0⟩ :=
  ⟨⟨rfl, rfl, rfl, rfl⟩, rfl, rfl, rfl, rfl⟩
/-- Writes at each of the places the statement names, for answers of both kinds. -/
theorem test_hyp_DataLinesAfterARapOperation (a : List (Option Draw)) :
    (∀ s ∈ [writing 2 .zero, writing 31 .zero, writing 33 .one, writing 4 .zero, writeEnding, writeSelecting 1],
      Inv (env s a) ∧ Serving (.wrreg 7 0) (env s a) ∧ (env s a).bi = false
        ∧ currentCall (env s a) = some (.write 7 0)) ∧ writeEnding.j = 15 ∧ (env writeEnding [fine 0]).answer = some ⟨none, 0⟩
        ∧ (env writeEnding [fails ⟨1⟩]).answer = some ⟨some ⟨1⟩, 0⟩ := by
  refine ⟨?_, rfl, rfl, rfl⟩
  simp only [List.mem_cons, List.not_mem_nil, or_false, forall_eq_or_imp, forall_eq]
  exact ⟨⟨inv_writing_2 a, ⟨rfl, rfl, rfl, rfl⟩, rfl, rfl⟩, ⟨inv_writing_31 a, ⟨rfl, rfl, rfl, rfl⟩, rfl, rfl⟩,
    ⟨inv_writing_33 a, ⟨rfl, rfl, rfl, rfl⟩, rfl, rfl⟩, ⟨inv_writing_4 a, ⟨rfl, rfl, rfl, rfl⟩, rfl, rfl⟩, ⟨inv_writeEnding a, ⟨rfl, rfl, rfl, rfl⟩, rfl, rfl⟩,
    ⟨inv_writeSelecting_1 a, ⟨rfl, rfl, rfl, rfl⟩, rfl, rfl⟩⟩
/-- Reads at each of the places where that statement lets one fail. -/
theorem test_hyp_DataLinesAfterAFailingRead : let a := [fails ⟨1⟩, fine 0]
    ∀ s ∈ [reading 1, reading 3, reading 5, reading 6, readSelecting 2],
      Inv (env s a) ∧ Serving (.rdreg 7) (env s a) ∧ (env s a).bi = false ∧ currentCall (env s a) = some (.read 7)
        ∧ (env s a).answer = some ⟨some ⟨1⟩, 0⟩ := by
  intro a s hs
  have h := (test_hyp_ReadErrorPrecedence a).1 s hs
  refine ⟨h.1, h.2.1, ?_, h.2.2, rfl⟩
  simp only [List.mem_cons, List.not_mem_nil, or_false] at hs
  rcases hs with rfl | rfl | rfl | rfl | rfl <;> rfl
/-- L2.5, {16}: line 15 fails to go to input. -/
theorem test_rdreg_release_fails : ∃ t, exec (.rdreg 7) (env { reading 1 with j := 15 } [fails ⟨16⟩]) = .next t
    ∧ t.lines.d = (Vector.replicate 16 DState.input).set 15 .u ∧ t.due = some ⟨2, 0x0000, some ⟨16⟩⟩ := ⟨_, rfl, rfl, rfl⟩
theorem test_hyp_SelectBeforeStrobe :
    (Inv (env (reading 3) [fine 0]) ∧ Serving (.rdreg 7) (env (reading 3) [fine 0]) ∧
      ∃ t, exec (.rdreg 7) (env (reading 3) [fine 0]) = .next t ∧ t.trace = [⟨.setLines (.sr 1), .ok⟩]) ∧
    (Inv (env (writing 31 .zero) [fine 0]) ∧ Serving (.wrreg 7 0) (env (writing 31 .zero) [fine 0]) ∧
      ∃ t, exec (.wrreg 7 0) (env (writing 31 .zero) [fine 0]) = .next t ∧ t.trace = [⟨.setLines (.sw 1), .ok⟩]) :=
  ⟨⟨inv_reading_3 _, ⟨rfl, rfl, rfl, rfl⟩, _, rfl, rfl⟩, ⟨inv_writing_31 _, ⟨rfl, rfl, rfl, rfl⟩, _, rfl, rfl⟩⟩
theorem test_hyp_BusErrorEndsTheRequest : let s := env (reading 3) [fails ⟨4⟩]
    Inv s ∧ Serving (.rdreg 7) s ∧ s.bi = false ∧ s.answer = some ⟨some ⟨4⟩, 0⟩ :=
  ⟨inv_reading_3 _, ⟨rfl, rfl, rfl, rfl⟩, rfl, rfl⟩

/-! ### IDENTIFY: blocks of settled answers -/

/-- The answers to one read, all with the same word. -/
def readBlock (w : Word) : List Word := List.replicate 22 w

theorem test_hyp_IdentifyAbsentDrive : let pre := List.replicate 228 (0 : Word)
    CanAccept (env s0 (allOk (pre ++ readBlock 0) ++ [])) ∧ pre.length = 228 ∧ (readBlock 0).length = 22
      ∧ sampled (readBlock 0) = 0x0000 := ⟨accepts _, List.length_replicate, by decide, by decide⟩
theorem test_hyp_IdentFixCompletes : let pre := List.replicate 228 (0 : Word)
    let blocks := List.replicate 256 (readBlock 0x0102)
    CanAccept (env s0 (allOk (pre ++ readBlock 0x58 ++ [0] ++ blocks.flatten) ++ [])) ∧ pre.length = 228
      ∧ (readBlock 0x58).length = 22 ∧ sampled (readBlock 0x58) ≠ 0x0000 ∧ readBlocks 256 blocks :=
  ⟨accepts _, List.length_replicate, by decide, by decide, List.length_replicate, fun b hb => by rw [List.eq_of_mem_replicate hb]; decide⟩
/-- A poll read that goes on. -/
theorem polling_one : pollingBlocks [readBlock 0x80 ++ [0]] := by
  intro b hb
  rw [List.mem_singleton] at hb
  subst hb
  decide
theorem test_hyp_IdentPollCompletes : let pre := List.replicate 228 (0 : Word)
    let polls := [readBlock 0x80 ++ [0]]; let blocks := List.replicate 256 (readBlock 0x0102)
    CanAccept (env s0 (allOk (pre ++ readBlock 0x80 ++ polls.flatten ++ readBlock 0x58 ++ blocks.flatten) ++ []))
      ∧ pre.length = 228 ∧ (readBlock 0x80).length = 22 ∧ sampled (readBlock 0x80) ≠ 0x0000 ∧ pollingBlocks polls
      ∧ polls.length + 1 ≤ s0.params.pollMaxReads ∧ (readBlock 0x58).length = 22
      ∧ (sampled (readBlock 0x58))[0] = false ∧ (sampled (readBlock 0x58))[7] = false
      ∧ (sampled (readBlock 0x58))[3] = true ∧ readBlocks 256 blocks :=
  ⟨accepts _, List.length_replicate, by decide, by decide, polling_one, by decide, by decide, by decide, by decide, by decide,
    List.length_replicate, fun b hb => by rw [List.eq_of_mem_replicate hb]; decide⟩
/-- The last poll read still shows BSY with DRQ (timeout), or shows ERR with DRQ (device error). -/
theorem test_hyp_PollFailures : let pre := List.replicate 228 (0 : Word); let polls := [readBlock 0x80 ++ [0]]
    CanAccept (env s0 (allOk (pre ++ readBlock 0x80 ++ polls.flatten ++ readBlock 0x88) ++ [])) ∧ pre.length = 228
      ∧ sampled (readBlock 0x80) ≠ 0x0000 ∧ pollingBlocks polls ∧ polls.length + 1 = s0.params.pollMaxReads
      ∧ (readBlock 0x88).length = 22 ∧ (sampled (readBlock 0x88))[0] = false
      ∧ ¬ ((sampled (readBlock 0x88))[7] = false ∧ (sampled (readBlock 0x88))[3] = true)
      ∧ (readBlock 0x09).length = 22 ∧ (sampled (readBlock 0x09))[0] = true :=
  ⟨accepts _, List.length_replicate, by decide, polling_one, by decide, by decide, by decide, by decide, by decide, by decide⟩
theorem test_hyp_LinesAfterAPollFailure : let s := env (identReading .identPoll .awaitDataReady 6 0x09) [fine 0]
    Inv s ∧ Serving .identPoll s ∧ ∃ t u, exec .identPoll s = .next t ∧ t.due = some ⟨4, 0x09, none⟩
      ∧ exec .identPoll t = .next u := ⟨inv_polling _ _ _ (by decide), ⟨rfl, rfl, rfl, rfl⟩, _, _, rfl, rfl, rfl⟩
/-- The same for code 3: the second of two poll reads is not ready. -/
theorem test_hyp_LinesAfterAPollTimeout :
    let s := env { identReading .identPoll .awaitDataReady 6 0x80 with np := 1 } [fine 0]
    Inv s ∧ Serving .identPoll s ∧ ∃ t u, exec .identPoll s = .next t ∧ t.due = some ⟨3, 0x80, none⟩
      ∧ exec .identPoll t = .next u := ⟨inv_polling _ _ _ (by decide), ⟨rfl, rfl, rfl, rfl⟩, _, _, rfl, rfl, rfl⟩
theorem test_hyp_FixedWaitIsOneSleep : let s := env (identWaiting .identFix) [fine 0]
    Serving .identFix s ∧ s.seq = .awaitDataReady ∧ s.rapop = .none ∧ s.answer = some ⟨none, 0⟩ :=
  ⟨⟨rfl, rfl, rfl, rfl⟩, rfl, rfl, rfl⟩
theorem test_hyp_PresenceTest (w : Word) : let s := env (identReading .identPoll .checkPresence 6 w) [fine 0]
    Serving .identPoll s ∧ s.seq = .checkPresence ∧ s.rapop = .read ∧ s.rstep = 6 ∧ s.perr = none
      ∧ s.answer = some ⟨none, 0⟩ ∧ s.sample = w := ⟨⟨rfl, rfl, rfl, rfl⟩, rfl, rfl, rfl, rfl, rfl, rfl⟩
/-- Any sampled word, so each branch of the tests, with the read that is the last one and with one before it. -/
theorem test_hyp_PollTestsInOrder (w : Word) (n : Nat) :
    let s := env { identReading .identPoll .awaitDataReady 6 w with np := n } [fine 0]
    Serving .identPoll s ∧ s.seq = .awaitDataReady ∧ s.rapop = .read ∧ s.rstep = 6 ∧ s.perr = none
      ∧ s.answer = some ⟨none, 0⟩ ∧ s.sample = w ∧ s.np = n :=
  ⟨⟨rfl, rfl, rfl, rfl⟩, rfl, rfl, rfl, rfl, rfl, rfl, rfl⟩
/-- The first Data word and the last one. -/
theorem test_hyp_DataWord : ∀ n ∈ [(0 : BitVec 9), 255],
    let s := env { identReading .identFix .burstRead 6 0x0102 with wc := n } [fine 0]
    Serving .identFix s ∧ s.seq = .burstRead ∧ s.rapop = .read ∧ s.rstep = 6 ∧ s.perr = none ∧ s.wc.toNat < 256
      ∧ s.answer = some ⟨none, 0⟩ := by
  simp only [List.mem_cons, List.not_mem_nil, or_false, forall_eq_or_imp, forall_eq]
  exact ⟨⟨⟨rfl, rfl, rfl, rfl⟩, rfl, rfl, rfl, rfl, by decide, rfl⟩,
    ⟨⟨rfl, rfl, rfl, rfl⟩, rfl, rfl, rfl, rfl, by decide, rfl⟩⟩
/-- Each of the five transitions between stages. -/
theorem test_hyp_StagesAreLinear :
    (∃ t, exec .identFix (env (identWriteEnding .identFix .selectDrive 0) [fine 0]) = .next t ∧ t.seq = .clearParams) ∧
    (∃ t, exec .identFix (env (identWriteEnding .identFix .clearParams 3) [fine 0]) = .next t ∧ t.seq = .issueCommand) ∧
    (∃ t, exec .identFix (env (identWriteEnding .identFix .issueCommand 3) [fine 0]) = .next t
      ∧ t.seq = .checkPresence) ∧
    (∃ t, exec .identFix (env (identReading .identFix .checkPresence 6 1) [fine 0]) = .next t
      ∧ t.seq = .awaitDataReady) ∧
    ∃ t, exec .identFix (env (identWaiting .identFix) [fine 0]) = .next t ∧ t.seq = .burstRead :=
  ⟨⟨_, rfl, rfl⟩, ⟨_, rfl, rfl⟩, ⟨_, rfl, rfl⟩, ⟨_, rfl, rfl⟩, ⟨_, rfl, rfl⟩⟩

/-! ### Frames and rules of the whole machine -/

theorem test_hyp_Frames : (∃ t, exec (.rdreg 7) (env (reading 3) [fine 0]) = .next t)
    ∧ (∃ t, exec (.wrreg 7 0) (env (writing 31 .zero) [fine 0]) = .next t)
    ∧ (∃ t, exec .identFix (env (identReading .identFix .burstRead 6 0) [fine 0]) = .next t)
    ∧ storesAt (env { identReading .identFix .burstRead 6 0 with wc := 3 } [fine 0]) = some 6
    ∧ storesAt (env (identReading .identFix .burstRead 5 0) [fine 0]) = none := ⟨⟨_, rfl⟩, ⟨_, rfl⟩, ⟨_, rfl⟩, rfl, rfl⟩
/-- 42_identify.md R163, R169: the last deassert of a Data read counts the word when it is answered `OK`, and not when it is
answered `ERR`. -/
theorem test_readSucceeds : readSucceeds (env (identReading .identFix .burstRead 6 0) [fine 0])
    ∧ ¬ readSucceeds (env (identReading .identFix .burstRead 6 0) [fails ⟨1⟩])
    ∧ ∃ t, exec .identFix (env (identReading .identFix .burstRead 6 0) [fails ⟨1⟩]) = .next t ∧ t.wc = 0 :=
  ⟨⟨⟨rfl, rfl, rfl⟩, rfl, rfl, 0, rfl⟩, (fun h => by obtain ⟨-, -, -, w, h⟩ := h; cases h), ⟨_, rfl, rfl⟩⟩
theorem test_hyp_Invariant : Inv (env (reading 3) [fine 0]) ∧ (∃ t, step (env (reading 3) [fine 0]) = .next t)
    ∧ Inv s0 ∧ s0.refused = false := ⟨inv_reading_3 _, ⟨_, rfl⟩, test_inv_s0, rfl⟩
theorem test_hyp_RefusedRun : Inv { s0 with refused := true } :=
  ⟨test_inv_s0.params, test_inv_s0.buffer, test_inv_s0.position, test_inv_s0.counters, test_inv_s0.responses,
    test_inv_s0.busErrors, test_inv_s0.lines⟩
/-- A step that sets `E.BI`, a step that keeps it, and a reinit that clears it. -/
theorem test_hyp_WholeMachine : (∃ t, step (env (reading 3) [fails ⟨1⟩]) = .next t ∧ t.bi = true)
    ∧ (∃ t, step (env (reading 3) [fine 0]) = .next t ∧ t.bi = false)
    ∧ ∃ t, step { broken with inbox := [.reinit claim] } = .next t ∧ t.bi = false ∧ t.rspValid = false :=
  ⟨⟨_, rfl, rfl⟩, ⟨_, rfl, rfl⟩, ⟨_, rfl, rfl, rfl⟩⟩
theorem test_hyp_StrobesOnlyPulse : PlatformStrobesOff params ∧ StrobesOk (env (reading 4) [fine 0])
    ∧ (reading 4).lines.sr = .one ∧ ∃ t, step (env (reading 4) [fine 0]) = .next t :=
  ⟨by unfold PlatformStrobesOff; decide, ⟨fun _ => ⟨rfl, rfl, rfl, Or.inl rfl⟩, fun h => by cases h⟩, rfl, ⟨_, rfl⟩⟩
theorem test_hyp_HostReads : let s : State := { s0 with idbuf := oneWord }
    s.es ≠ .busy ∧ Memory.get s.idbuf (1 : BitVec 9).toNat = some 0x02 := ⟨by decide, rfl⟩
theorem test_hyp_BufferIsNeverRead : ∃ t, step { env (identReading .identFix .burstRead 6 0x0102) [fine 0]
    with idbuf := oneWord } = .next t ∧ t.idbuf = oneWord := ⟨_, rfl, rfl⟩
theorem test_hyp_SilentEnvironment : let s := env (reading 5) [none]
    Inv s ∧ Serving (.rdreg 7) s ∧ s.answer = none := ⟨inv_reading_5 _, ⟨rfl, rfl, rfl, rfl⟩, rfl⟩
/-- The bounds of 70_reset_and_hazards.md R237 with two poll reads, and an environment that answers so often. -/
theorem test_hyp_EveryRequestEnds : let ds := List.replicate 5927 (⟨none, 0⟩ : Draw)
    CanAccept (env s0 (ds.map some ++ [])) ∧ 1 ≤ s0.params.pollMaxReads ∧
      ∀ i ∈ [Instr.rdreg 0, .wrreg 0 0, .identFix, .identPoll], primitiveBound s0.params i ≤ ds.length := by
  refine ⟨accepts _, by decide, fun i hi => ?_⟩
  rw [List.length_replicate]
  revert i
  decide

end Sys2Proof.Tests
end

section
/-! PROOFS. What one step of the machine does to the trace and the lines, and which request a BUSY step serves
(00_scope.md R7, R14). -/

namespace Sys2Proof.Machine

/-! ## What performs no primitive -/

@[simp] theorem beginOf_trace (i : Instr) (s : State) : (beginOf i s).trace = s.trace := by
  cases i <;> rfl

@[simp] theorem beginOf_lines (i : Instr) (s : State) : (beginOf i s).lines = s.lines := by
  cases i <;> rfl

@[simp] theorem reinit_trace (s : State) (c : GroupClaim) : (s.reinit c).trace = s.trace := by
  simp [State.reinit]

@[simp] theorem reinit_lines (s : State) (c : GroupClaim) : (s.reinit c).lines = s.params.platInit := by
  simp [State.reinit]

/-! ## The statements -/

/-- Settles O55: a request in service performs at most one primitive by `work_frame`, and every other step of
`step_cases` leaves the trace alone, and the lines too unless it is a reinit. -/
theorem onePrimitiveAtATime : Obligations.OnePrimitiveAtATime := by
  intro s t h
  obtain ⟨-, ⟨-, -, rfl⟩ | ⟨-, rfl⟩ | ⟨c, rest, hc, rfl⟩ | ⟨w, rest, -, -, -, rfl⟩ | ⟨w, rest, -, -, -, rfl⟩ |
    ⟨w, rest, i, -, -, -, rfl⟩ | ⟨r, -, -, rfl⟩ | ⟨i, hs, hw⟩ | ⟨i, -, -, -, -, rfl⟩⟩ := step_cases h
  case inr.inr.inl => -- a reinit
    exact Or.inr ⟨by simp, Or.inr ⟨⟨c, rest, hc⟩, by simp⟩⟩
  case inr.inr.inr.inr.inr.inr.inr.inl => -- the request in service
    obtain ⟨-, hbusy, -, -⟩ := hs
    rcases (work_frame hw).trace with rfl | ⟨ev, a, htrace, hfits, -⟩
    · exact Or.inr ⟨rfl, Or.inl rfl⟩
    · exact Or.inl ⟨ev, a, hbusy, htrace, hfits⟩
  all_goals exact Or.inr ⟨by simp, Or.inl (by simp)⟩

/-- Settles O20: a response owed is delivered by both; otherwise the latched record stands for `i` alone
(`instr_reqOf`), and the step is its meaning. -/
theorem busyStepServesTheLatchedRequest : Obligations.BusyStepServesTheLatchedRequest := by
  intro s i hr hb hq
  have hstep : step s = busyStep s := by simp [step, engineStep, hr, hb]
  rw [hstep, busyStep]
  cases hd : s.due with
  | some rsp => exact (exec_due hr hb hq hd).symm
  | none => simp [hq]

end Sys2Proof.Machine
end

section
/-! PROOFS. The invariant: it holds at reset, every step keeps it, and no step from one of its states is a fault
(10_state.md R28, R39, R40, 60_exceptions.md R192, R196). -/

namespace Sys2Proof.Machine

/-! ## The position and the RAP call of each request -/

section
variable {s : State}

theorem servicePosition_rdreg {reg : RegIdx} (hq : s.req = reqOf (.rdreg reg)) :
    servicePosition s ↔ readPosition s ∧ s.seq = .none := by simp [servicePosition, hq]

theorem servicePosition_wrreg {reg : RegIdx} {v : Word} (hq : s.req = reqOf (.wrreg reg v)) :
    servicePosition s ↔ writePosition s ∧ s.seq = .none := by simp [servicePosition, hq]

theorem servicePosition_identify {i : Instr} (hi : i = .identFix ∨ i = .identPoll) (hq : s.req = reqOf i) :
    servicePosition s ↔ identifyPosition s := by rcases hi with rfl | rfl <;> simp [servicePosition, hq]

theorem currentCall_rdreg {reg : RegIdx} (hq : s.req = reqOf (.rdreg reg)) : currentCall s = some (.read reg) := by
  simp [currentCall, hq]

theorem currentCall_wrreg {reg : RegIdx} {v : Word} (hq : s.req = reqOf (.wrreg reg v)) :
    currentCall s = some (.write reg v) := by simp [currentCall, hq]

theorem currentCall_identify {i : Instr} (hi : i = .identFix ∨ i = .identPoll) (hq : s.req = reqOf i) :
    currentCall s = stageCall s := by rcases hi with rfl | rfl <;> simp [currentCall, hq]

theorem servicePosition_req (h : servicePosition s) : ∃ i, s.req = reqOf i := by
  unfold servicePosition at h
  split at h
  · exact ⟨_, h.1⟩
  · exact h.elim

end

/-! ## The invariant while the engine is BUSY -/

/-- What the invariant says of a BUSY state wherever it stands: all but the position, the response owed and the lines. -/
structure BusyOk (s : State) : Prop where
  es : s.es = .busy
  params : s.params.wf = true
  buffer : Memory.wf s.idbuf = true
  counters : CountersOk s
  rsp : s.rspValid = true → responseForm s.rsp
  marked : s.perr.isSome = true → s.bi = true

theorem Inv.busyOk {s : State} (h : Inv s) (hes : s.es = .busy) : BusyOk s :=
  ⟨hes, h.params, h.buffer, h.counters, h.responses.1, h.busErrors.1⟩

/-- A step of a RAP function keeps it, whatever it does to `E.BI` and `E.PERR`. -/
theorem BusyOk.of_kept {s u : State} (h : BusyOk s) (hk : RapKept s u) (hm : u.perr.isSome = true → u.bi = true) :
    BusyOk u := by
  refine ⟨hk.es.trans h.es, by rw [hk.params]; exact h.params, by rw [hk.idbuf]; exact h.buffer, ?_, ?_, hm⟩
  · simpa only [CountersOk, hk.wc, hk.np, hk.params] using h.counters
  · simpa only [hk.rspValid, hk.rsp] using h.rsp

/-- A response is owed: `E.BI` says whether it is BUS_IO_ERROR, and a request that performed a RAP operation has released
the bus. -/
theorem BusyOk.inv_owe {u : State} {r : Response} (h : BusyOk u) (hform : responseForm r)
    (hbi : u.bi = true ↔ r.code = 2) (hl : u.bi = false → r.code = 5 ∨ released u.lines) : Inv (u.owe r) where
  params := h.params
  buffer := h.buffer
  position := by simp [PositionOk, h.es]
  counters := h.counters
  responses := ⟨h.rsp, by simpa using hform⟩
  busErrors := ⟨h.marked, by simpa [h.es] using hbi⟩
  lines := fun hb => by simpa [h.es] using hl hb

/-- The request in service has a next primitive. -/
theorem BusyOk.inv_working {u : State} (h : BusyOk u) (hd : u.due = none) (hp : servicePosition u)
    (hbi : u.bi = true → u.perr.isSome = true ∧ u.rapop = .read ∧ u.rstep = 6)
    (hl : u.bi = false → callLines (currentCall u) u) : Inv u where
  params := h.params
  buffer := h.buffer
  position := by simpa only [PositionOk, h.es, if_true] using fun _ => hp
  counters := h.counters
  responses := ⟨h.rsp, by simp [hd]⟩
  busErrors := ⟨h.marked, by simpa only [h.es, hd] using hbi⟩
  lines := fun hb => by simpa only [h.es, hd] using hl hb

/-- An IDENTIFY request before any failure. -/
theorem BusyOk.inv_identify {i : Instr} {u : State} (h : BusyOk u) (hi : i = .identFix ∨ i = .identPoll)
    (hq : u.req = reqOf i) (hd : u.due = none) (hb : u.bi = false) (hp : identifyPosition u)
    (hl : callLines (stageCall u) u) : Inv u :=
  h.inv_working hd ((servicePosition_identify hi hq).mpr hp) (by simp [hb])
    (fun _ => by rw [currentCall_identify hi hq]; exact hl)

theorem Inv.service {s : State} (h : Inv s) (hes : s.es = .busy) (hd : s.due = none) : servicePosition s := by
  simpa only [PositionOk, hes, if_true, hd, true_implies] using h.position

theorem Inv.held {s : State} (h : Inv s) (hes : s.es = .busy) (hd : s.due = none) (hb : s.bi = true) :
    s.perr.isSome = true ∧ s.rapop = .read ∧ s.rstep = 6 := by
  have := h.busErrors.2
  simp only [hes, hd] at this
  exact this hb

theorem Inv.lines_of_call {s : State} (h : Inv s) (hes : s.es = .busy) (hd : s.due = none) (hb : s.bi = false) :
    callLines (currentCall s) s := by
  have := h.lines hb
  simpa only [hes, hd] using this

/-- Only the cleanup of a read runs with `E.BI` set. -/
theorem Inv.fine {s : State} (h : Inv s) (hes : s.es = .busy) (hd : s.due = none) (hop : s.rapop ≠ .read) :
    s.bi = false := by
  cases hb : s.bi with
  | false => rfl
  | true => exact absurd (h.held hes hd hb).2.1 hop

theorem Inv.readState {r : RegIdx} {s : State} (h : Inv s) (hes : s.es = .busy) (hd : s.due = none)
    (hc : currentCall s = some (.read r)) (hp : readPosition s) : ReadState r s :=
  ⟨hp, h.held hes hd, h.busErrors.1, fun hb => by have := h.lines_of_call hes hd hb; rwa [hc] at this⟩

theorem writePosition_rapop {s : State} (h : writePosition s) : s.rapop ≠ .read := by
  rcases h with ⟨h, -⟩ | ⟨h, -⟩ <;> simp [h]

theorem readPosition_rapop {s : State} (h : readPosition s) : s.rapop ≠ .none := by
  rcases h with ⟨h, -⟩ | ⟨h, -⟩ <;> simp [h]

theorem Inv.writeState {r : RegIdx} {v : Word} {s : State} (h : Inv s) (hes : s.es = .busy) (hd : s.due = none)
    (hc : currentCall s = some (.write r v)) (hp : writePosition s) : WriteState r v s := by
  have hb := h.fine hes hd (writePosition_rapop hp)
  refine ⟨hp, hb, ?_⟩
  have := h.lines_of_call hes hd hb
  rwa [hc] at this

/-! ## Where a stage of IDENTIFY begins, or goes on after a RAP operation -/

section
variable {v : State}

theorem identifyPosition_startWrite (hw : v.wc = 0)
    (hst : v.seq = .selectDrive ∨ v.seq = .clearParams ∨ v.seq = .issueCommand) : identifyPosition v.startWrite := by
  have hpos : writePosition v.startWrite := Or.inr ⟨rfl, Or.inl rfl⟩
  rcases hst with hst | hst | hst <;> simpa [identifyPosition, hst, hw] using hpos

theorem identifyPosition_startRead
    (hst : v.seq = .checkPresence ∧ v.wc = 0 ∨
      v.seq = .awaitDataReady ∧ v.wc = 0 ∧ v.req.mode ≠ 0 ∧ v.np < v.params.pollMaxReads ∨
      v.seq = .burstRead ∧ v.wc.toNat < identWords) : identifyPosition v.startRead := by
  have hpos : readPosition v.startRead := Or.inl ⟨rfl, Or.inl rfl⟩
  rcases hst with ⟨hst, hw⟩ | ⟨hst, hw, hm, hnp⟩ | ⟨hst, hw⟩
  · simpa [identifyPosition, hst, hw] using hpos
  · simp only [identifyPosition, startRead_seq, hst]
    exact ⟨hw, by rw [if_neg (by simpa using hm)]; exact ⟨Or.inr hpos, hnp⟩⟩
  · simpa [identifyPosition, hst, hw] using hpos

theorem identifyPosition_startWait (hst : v.seq = .awaitDataReady) (hw : v.wc = 0)
    (hnp : v.req.mode ≠ 0 → v.np < v.params.pollMaxReads) : identifyPosition v.startWait := by
  have hpos : waitPosition v.startWait := ⟨rfl, rfl⟩
  simp only [identifyPosition, startWait_seq, hst]
  refine ⟨hw, ?_⟩
  split
  · exact hpos
  · rename_i hm
    exact ⟨Or.inl hpos, hnp hm⟩

end

/-! ## A RAP operation in service -/

theorem stageCall_of_read {r : RegIdx} {s u : State} (hk : RapKept s u) (hs : identifyPosition s)
    (hc : stageCall s = some (.read r)) (hp : readPosition u) :
    identifyPosition u ∧ stageCall u = some (.read r) := by
  unfold identifyPosition stageCall at *
  rw [hk.seq, hk.wc, hk.np, hk.req, hk.params]
  cases hq : s.seq <;> simp [hq] at hs hc ⊢
  case checkPresence => exact ⟨⟨hp, hs.2⟩, hc⟩
  case burstRead => exact ⟨⟨hp, hs.2⟩, hc⟩
  case awaitDataReady =>
    obtain ⟨hw, hs⟩ := hs
    obtain ⟨hop, hr⟩ := hc
    refine ⟨⟨hw, ?_⟩, readPosition_rapop hp, hr⟩
    split at hs
    · exact absurd hs.1 hop
    · rename_i hm
      rw [if_neg hm]
      exact ⟨Or.inr hp, hs.2⟩

theorem stageCall_of_write {r : RegIdx} {v : Word} {s u : State} (hk : RapKept s u) (hs : identifyPosition s)
    (hc : stageCall s = some (.write r v)) (hp : writePosition u) :
    identifyPosition u ∧ stageCall u = some (.write r v) := by
  unfold identifyPosition stageCall at *
  rw [hk.seq, hk.wc, hk.k]
  cases hq : s.seq <;> simp [hq] at hs hc ⊢
  all_goals exact ⟨⟨hp, hs.2⟩, hc⟩

/-- A read in service stays in service while it goes on. -/
theorem service_of_read {r : RegIdx} {s u : State} (hk : RapKept s u) (hs : servicePosition s)
    (hc : currentCall s = some (.read r)) (hp : readPosition u) :
    servicePosition u ∧ currentCall u = some (.read r) := by
  obtain ⟨i, hq⟩ := servicePosition_req hs
  have hq' := hk.req.trans hq
  have ident (hi : i = .identFix ∨ i = .identPoll) : servicePosition u ∧ currentCall u = some (.read r) := by
    rw [servicePosition_identify hi hq] at hs
    rw [currentCall_identify hi hq] at hc
    rw [servicePosition_identify hi hq', currentCall_identify hi hq']
    exact stageCall_of_read hk hs hc hp
  cases i with
  | rdreg reg =>
    rw [servicePosition_rdreg hq] at hs
    rw [servicePosition_rdreg hq', currentCall_rdreg hq', ← currentCall_rdreg hq]
    exact ⟨⟨hp, hk.seq.trans hs.2⟩, hc⟩
  | wrreg reg value => simp [currentCall_wrreg hq] at hc
  | identFix => exact ident (Or.inl rfl)
  | identPoll => exact ident (Or.inr rfl)

/-- A write in service stays in service while it goes on. -/
theorem service_of_write {r : RegIdx} {v : Word} {s u : State} (hk : RapKept s u) (hs : servicePosition s)
    (hc : currentCall s = some (.write r v)) (hp : writePosition u) :
    servicePosition u ∧ currentCall u = some (.write r v) := by
  obtain ⟨i, hq⟩ := servicePosition_req hs
  have hq' := hk.req.trans hq
  have ident (hi : i = .identFix ∨ i = .identPoll) : servicePosition u ∧ currentCall u = some (.write r v) := by
    rw [servicePosition_identify hi hq] at hs
    rw [currentCall_identify hi hq] at hc
    rw [servicePosition_identify hi hq', currentCall_identify hi hq']
    exact stageCall_of_write hk hs hc hp
  cases i with
  | rdreg reg => simp [currentCall_rdreg hq] at hc
  | wrreg reg value =>
    rw [servicePosition_wrreg hq] at hs
    rw [servicePosition_wrreg hq', currentCall_wrreg hq', ← currentCall_wrreg hq]
    exact ⟨⟨hp, hk.seq.trans hs.2⟩, hc⟩
  | identFix => exact ident (Or.inl rfl)
  | identPoll => exact ident (Or.inr rfl)

theorem responseForm_busError (e : AdapterError) : responseForm (busErrorReply e) := by
  simp [responseForm, busErrorReply, Code.bits]

/-- A reply without an adapter error has the form of 30_encoding.md R92 if its code wants none and its value is zero
where it must be. -/
theorem responseForm_reply {c : Code} {v : Word} (hc : c ≠ .busIoError)
    (hv : c = .absent ∨ c = .illegalRequest → v = 0) : responseForm (reply c v) := by
  cases c <;> simp_all [responseForm, reply, Code.bits]

theorem reply_code_ne_two {c : Code} {v : Word} (hc : c ≠ .busIoError) : ¬ (reply c v).code = 2 := by
  cases c <;> simp_all [reply, Code.bits]

/-- A reply owed after a RAP operation that nothing failed. -/
theorem BusyOk.inv_reply {u : State} {c : Code} {v : Word} (h : BusyOk u) (hb : u.bi = false)
    (hr : released u.lines) (hc : c ≠ .busIoError) (hv : c = .absent ∨ c = .illegalRequest → v = 0) :
    Inv (u.owe (reply c v)) :=
  h.inv_owe (responseForm_reply hc hv) (by simpa [hb] using reply_code_ne_two hc) (fun _ => Or.inr hr)

/-- A primitive that ends a request with its error leaves a state of the invariant. -/
theorem BusyOk.inv_busError {u : State} (e : AdapterError) (h : BusyOk u) (hb : u.bi = true) :
    Inv (u.owe (busErrorReply e)) :=
  h.inv_owe (responseForm_busError e) (by simp [hb, busErrorReply, Code.bits]) (by simp [hb])

/-- What a RAP operation that returned `Ok` hands back to the request that called it, from state `s` on. -/
structure Returned (s u : State) : Prop where
  kept : RapKept s u
  ok : BusyOk u
  fine : u.bi = false
  free : released u.lines

/-- A step of a read in service: the engine goes on, and keeps the invariant if the request does once the read has
returned. -/
theorem Inv.outcome_read {r : RegIdx} {s : State} {onOk : State → State} (h : Inv s) (hes : s.es = .busy)
    (hd : s.due = none) (hc : currentCall s = some (.read r)) (hp : readPosition s)
    (hok : ∀ u, Returned s u → Inv (onOk u)) : ∃ t, (rapRead r s).outcome s onOk = .next t ∧ Inv t := by
  have hbusy := h.busyOk hes
  rcases rapRead_spec (h.readState hes hd hc hp) with ⟨-, hx⟩ | ⟨u, hx, hu⟩ | ⟨u, hx, hb, hpe, hr, -, -⟩ |
    ⟨e, u, hx, hb⟩
  · exact ⟨s, by rw [hx]; rfl, h⟩
  · have hk := (rapRead_frame (Or.inl hx)).1.kept
    obtain ⟨hpos, hcall⟩ := service_of_read hk (h.service hes hd) hc hu.pos
    exact ⟨u, by rw [hx]; rfl, (hbusy.of_kept hk hu.marked).inv_working (hk.due.trans hd) hpos hu.held
      (fun hb => by rw [hcall]; exact hu.lines hb)⟩
  · have hk := (rapRead_frame (Or.inr (Or.inl hx))).1.kept
    exact ⟨onOk u, by rw [hx]; rfl, hok u ⟨hk, hbusy.of_kept hk (by simp [hpe]), hb, hr⟩⟩
  · have hk := (rapRead_frame (Or.inr (Or.inr ⟨e, hx⟩))).1.kept
    exact ⟨_, by rw [hx]; rfl, (hbusy.of_kept hk fun _ => hb).inv_busError e hb⟩

/-- A step of a write in service, likewise. -/
theorem Inv.outcome_write {r : RegIdx} {v : Word} {s : State} {onOk : State → State} (h : Inv s) (hes : s.es = .busy)
    (hd : s.due = none) (hc : currentCall s = some (.write r v)) (hp : writePosition s)
    (hok : ∀ u, Returned s u → Inv (onOk u)) : ∃ t, (rapWrite r v s).outcome s onOk = .next t ∧ Inv t := by
  have hbusy := h.busyOk hes
  have hws := h.writeState hes hd hc hp
  have hfine : ¬ s.perr.isSome = true := fun hs => by simpa [hws.fine] using h.busErrors.1 hs
  have kept : ∀ {u}, (rapWrite r v s).Yields u → RapKept s u ∧ ¬ u.perr.isSome = true := fun hy => by
    obtain ⟨hf, -, -, hperr⟩ := rapWrite_frame hy
    exact ⟨hf.kept, by rwa [hperr]⟩
  rcases rapWrite_spec hws with ⟨-, hx⟩ | ⟨u, hx, hu⟩ | ⟨u, hx, hb, hr, -, -⟩ | ⟨e, u, hx, hb⟩
  · exact ⟨s, by rw [hx]; rfl, h⟩
  · obtain ⟨hk, hperr⟩ := kept (Or.inl hx)
    obtain ⟨hpos, hcall⟩ := service_of_write hk (h.service hes hd) hc hu.pos
    exact ⟨u, by rw [hx]; rfl, (hbusy.of_kept hk (absurd · hperr)).inv_working (hk.due.trans hd) hpos
      (by simp [hu.fine]) (fun _ => by rw [hcall]; exact hu.lines)⟩
  · obtain ⟨hk, hperr⟩ := kept (Or.inr (Or.inl hx))
    exact ⟨onOk u, by rw [hx]; rfl, hok u ⟨hk, hbusy.of_kept hk (absurd · hperr), hb, hr⟩⟩
  · obtain ⟨hk, -⟩ := kept (Or.inr (Or.inr ⟨e, hx⟩))
    exact ⟨_, by rw [hx]; rfl, (hbusy.of_kept hk fun _ => hb).inv_busError e hb⟩

theorem record_kept (s : State) (ev : Event) (a : Answer) : RapKept s (s.record ev a) := by constructor <;> simp

/-- The Sequencer's own sleep, likewise; it cannot fail. -/
theorem Inv.outcome_sleep {lo hi : Nat} {s : State} {next : State → State} (h : Inv s) (hes : s.es = .busy)
    (hb : s.bi = false) (hr : released s.lines)
    (hok : ∀ u, Returned s u → Inv (next u)) :
    ∃ t, ((sleep lo hi s).thenMore next).outcome s id = .next t ∧ Inv t := by
  rcases sleep_cases lo hi s with ⟨-, hx⟩ | ⟨a, -, hx⟩
  · exact ⟨s, by rw [hx]; rfl, h⟩
  · refine ⟨_, by rw [hx]; rfl, hok _ ?_⟩
    have hk := record_kept s (.sleep lo hi) .done
    exact ⟨hk, (h.busyOk hes).of_kept hk (by simpa using h.busErrors.1), by simpa using hb, by simpa using hr⟩

/-! ## Between the RAP operations of an IDENTIFY request (42_identify.md R150 to R164) -/

theorem wc_succ {w : BitVec 9} (h : w.toNat < identWords) : (w + 1).toNat = w.toNat + 1 := by
  have : w.toNat < 256 := h
  rw [BitVec.toNat_add]
  exact Nat.mod_eq_of_lt (by simp; omega)

section
variable {i : Instr} {s u : State} (hi : i = .identFix ∨ i = .identPoll) (hq : s.req = reqOf i) (hd : s.due = none)
  (h : Returned s u)
include hi hq hd h

/-- A stage that begins with a write. -/
theorem Returned.inv_startWrite {v : State} (hv : BusyOk v) (hbi : v.bi = u.bi) (hreq : v.req = u.req)
    (hdue : v.due = u.due) (hw : v.wc = 0)
    (hst : v.seq = .selectDrive ∨ v.seq = .clearParams ∨ v.seq = .issueCommand) : Inv v.startWrite := by
  refine BusyOk.inv_identify (i := i) ⟨hv.es, hv.params, hv.buffer, hv.counters, hv.rsp, hv.marked⟩ hi
    (hreq.trans (h.kept.req.trans hq)) (hdue.trans (h.kept.due.trans hd)) (hbi.trans h.fine)
    (identifyPosition_startWrite hw hst) ?_
  rcases hst with hst | hst | hst <;> simp [stageCall, hst, callLines, writeLines]

/-- A stage that begins with a read, and a Data read or a poll read after another. -/
theorem Returned.inv_startRead {v : State} (hv : BusyOk v) (hbi : v.bi = u.bi) (hreq : v.req = u.req)
    (hdue : v.due = u.due)
    (hst : v.seq = .checkPresence ∧ v.wc = 0 ∨
      v.seq = .awaitDataReady ∧ v.wc = 0 ∧ v.req.mode ≠ 0 ∧ v.np < v.params.pollMaxReads ∨
      v.seq = .burstRead ∧ v.wc.toNat < identWords) : Inv v.startRead := by
  refine BusyOk.inv_identify (i := i) ⟨hv.es, hv.params, hv.buffer, hv.counters, hv.rsp, by simp⟩ hi
    (hreq.trans (h.kept.req.trans hq)) (hdue.trans (h.kept.due.trans hd)) (hbi.trans h.fine)
    (identifyPosition_startRead hst) ?_
  rcases hst with ⟨hst, -⟩ | ⟨hst, -⟩ | ⟨hst, -⟩ <;> simp [stageCall, hst, callLines, readLines]

/-- AWAIT_DATA_READY goes on with the Sequencer's own sleep. -/
theorem Returned.inv_startWait {v : State} (hv : BusyOk v) (hbi : v.bi = u.bi) (hreq : v.req = u.req)
    (hdue : v.due = u.due) (hlines : v.lines = u.lines) (hst : v.seq = .awaitDataReady) (hw : v.wc = 0)
    (hnp : v.req.mode ≠ 0 → v.np < v.params.pollMaxReads) : Inv v.startWait := by
  refine BusyOk.inv_identify (i := i) ⟨hv.es, hv.params, hv.buffer, hv.counters, hv.rsp, hv.marked⟩ hi
    (hreq.trans (h.kept.req.trans hq)) (hdue.trans (h.kept.due.trans hd)) (hbi.trans h.fine)
    (identifyPosition_startWait hst hw hnp) ?_
  simpa [stageCall, hst, callLines, hlines] using h.free

end

section
variable {i : Instr} {s u : State} (hi : i = .identFix ∨ i = .identPoll) (hq : s.req = reqOf i) (hd : s.due = none)
  (h : Returned s u)
include hi hq hd h

theorem inv_afterSelectDrive (hw : u.wc = 0) : Inv (afterSelectDrive u) :=
  have hu := h.ok
  h.inv_startWrite hi hq hd (v := (u.inStage .clearParams).withK 0)
    ⟨hu.es, hu.params, hu.buffer, hu.counters, hu.rsp, hu.marked⟩ rfl rfl rfl hw (Or.inr (Or.inl rfl))

theorem inv_afterClear (hw : u.wc = 0) (hseq : u.seq = .clearParams) : Inv (afterClear u) := by
  have hu := h.ok
  unfold afterClear
  split
  · exact h.inv_startWrite hi hq hd (v := u.inStage .issueCommand)
      ⟨hu.es, hu.params, hu.buffer, hu.counters, hu.rsp, hu.marked⟩ rfl rfl rfl hw (Or.inr (Or.inr rfl))
  · exact h.inv_startWrite hi hq hd (v := u.withK (u.k + 1))
      ⟨hu.es, hu.params, hu.buffer, hu.counters, hu.rsp, hu.marked⟩ rfl rfl rfl hw (Or.inr (Or.inl hseq))

theorem inv_afterCommand (hw : u.wc = 0) : Inv (afterCommand u) :=
  have hu := h.ok
  h.inv_startRead hi hq hd (v := u.inStage .checkPresence)
    ⟨hu.es, hu.params, hu.buffer, hu.counters, hu.rsp, hu.marked⟩ rfl rfl rfl (Or.inl ⟨rfl, hw⟩)

theorem inv_startBurst {v : State} (hv : BusyOk v) (hbi : v.bi = u.bi) (hreq : v.req = u.req) (hdue : v.due = u.due)
    (hw : v.wc = 0) : Inv (startBurst v) :=
  h.inv_startRead hi hq hd (v := v.inStage .burstRead)
    ⟨hv.es, hv.params, hv.buffer, hv.counters, hv.rsp, hv.marked⟩ hbi hreq hdue
    (Or.inr (Or.inr ⟨rfl, by simp [hw, identWords]⟩))

theorem inv_afterPresence (hw : u.wc = 0) : Inv (afterPresence u) := by
  have hu := h.ok
  have hreads : 1 ≤ u.params.pollMaxReads := by
    have := hu.params
    simp only [Params.wf, Bool.and_eq_true, decide_eq_true_eq] at this
    exact this.1.1
  unfold afterPresence
  split
  · exact BusyOk.inv_reply (u := u.withStw u.sample) ⟨hu.es, hu.params, hu.buffer, hu.counters, hu.rsp, hu.marked⟩
      h.fine h.free (by decide) (fun _ => rfl)
  · split
    · rename_i hm
      exact h.inv_startWait hi hq hd (v := (u.withStw u.sample).inStage .awaitDataReady)
        ⟨hu.es, hu.params, hu.buffer, hu.counters, hu.rsp, hu.marked⟩ rfl rfl rfl rfl rfl hw (absurd hm)
    · rename_i hm
      exact h.inv_startRead hi hq hd (v := ((u.withStw u.sample).inStage .awaitDataReady).withNp 0)
        ⟨hu.es, hu.params, hu.buffer, ⟨hu.counters.1, Nat.zero_le _⟩, hu.rsp, hu.marked⟩ rfl rfl rfl
        (Or.inr (Or.inl ⟨rfl, hw, hm, hreads⟩))

theorem inv_afterPoll (hw : u.wc = 0) (hseq : u.seq = .awaitDataReady) (hnp : u.np < u.params.pollMaxReads) :
    Inv (afterPoll u) := by
  have hu := h.ok
  have hv : BusyOk ((u.withNp (u.np + 1)).withStw u.sample) :=
    ⟨hu.es, hu.params, hu.buffer, ⟨hu.counters.1, hnp⟩, hu.rsp, hu.marked⟩
  simp only [afterPoll]
  split
  · exact hv.inv_reply h.fine h.free (by decide) (by simp)
  · split
    · exact inv_startBurst hi hq hd h hv rfl rfl rfl hw
    · split
      · exact hv.inv_reply h.fine h.free (by decide) (by simp)
      · rename_i hne
        exact h.inv_startWait hi hq hd hv rfl rfl rfl rfl hseq hw (fun _ => Nat.lt_of_le_of_ne hnp hne)

theorem inv_afterData (hw : u.wc.toNat < identWords) (hseq : u.seq = .burstRead) : Inv (afterData u) := by
  have hu := h.ok
  have hle : (u.wc + 1).toNat ≤ identWords := by rw [wc_succ hw]; exact hw
  have hv : BusyOk ((u.storeWord u.sample).withWc (u.wc + 1)) :=
    ⟨hu.es, hu.params, wf_storeWord u _ hu.buffer hw, ⟨hle, hu.counters.2⟩, hu.rsp, hu.marked⟩
  simp only [afterData]
  split
  · exact hv.inv_reply h.fine h.free (by decide) (by simp)
  · rename_i hne
    exact h.inv_startRead hi hq hd hv rfl rfl rfl (Or.inr (Or.inr ⟨hseq, Nat.lt_of_le_of_ne hle hne⟩))

end

/-! ## A step of a request in service -/

theorem Inv.identify_work {i : Instr} {s : State} (h : Inv s) (hi : i = .identFix ∨ i = .identPoll)
    (hs : Serving i s) : ∃ t, identifyStep s = .next t ∧ Inv t := by
  obtain ⟨-, hes, hq, hd⟩ := hs
  have hpos := (servicePosition_identify hi hq).mp (h.service hes hd)
  have hcall := currentCall_identify hi hq
  unfold identifyStep
  unfold identifyPosition at hpos
  unfold stageCall at hcall
  cases hst : s.seq <;> simp only [hst] at hpos hcall ⊢
  case selectDrive =>
    exact h.outcome_write hes hd hcall hpos.1 fun u hu =>
      inv_afterSelectDrive hi hq hd hu (hu.kept.wc.trans hpos.2)
  case clearParams =>
    exact h.outcome_write hes hd hcall hpos.1 fun u hu =>
      inv_afterClear hi hq hd hu (hu.kept.wc.trans hpos.2) (hu.kept.seq.trans hst)
  case issueCommand =>
    exact h.outcome_write hes hd hcall hpos.1 fun u hu =>
      inv_afterCommand hi hq hd hu (hu.kept.wc.trans hpos.2)
  case checkPresence =>
    exact h.outcome_read hes hd hcall hpos.1 fun u hu =>
      inv_afterPresence hi hq hd hu (hu.kept.wc.trans hpos.2)
  case burstRead =>
    rw [if_pos hpos.2]
    exact h.outcome_read hes hd hcall hpos.1 fun u hu =>
      inv_afterData hi hq hd hu (by rw [hu.kept.wc]; exact hpos.2) (hu.kept.seq.trans hst)
  case awaitDataReady =>
    obtain ⟨hw, hpos⟩ := hpos
    by_cases hop : s.rapop = .none
    · -- the Sequencer's own sleep
      rw [if_pos hop] at hcall ⊢
      have hb := h.fine hes hd (by simp [hop])
      have hfree : released s.lines := by
        have := h.lines_of_call hes hd hb
        rwa [hcall] at this
      unfold awaitSleep
      split
      · exact h.outcome_sleep hes hb hfree fun u hu =>
          inv_startBurst hi hq hd hu hu.ok rfl rfl rfl (hu.kept.wc.trans hw)
      · rename_i hm
        rw [if_neg hm] at hpos
        exact h.outcome_sleep hes hb hfree fun u hu => hu.inv_startRead hi hq hd hu.ok rfl rfl rfl
          (Or.inr (Or.inl ⟨hu.kept.seq.trans hst, hu.kept.wc.trans hw, by rwa [hu.kept.req],
            by rw [hu.kept.np, hu.kept.params]; exact hpos.2⟩))
    · -- a poll read
      rw [if_neg hop] at hcall ⊢
      split at hpos
      · exact absurd hpos.1 hop
      · rename_i hm
        rw [if_neg hm]
        refine h.outcome_read hes hd hcall (hpos.1.resolve_left fun hw => hop hw.1) fun u hu => ?_
        exact inv_afterPoll hi hq hd hu (hu.kept.wc.trans hw) (hu.kept.seq.trans hst)
          (by rw [hu.kept.np, hu.kept.params]; exact hpos.2)

/-- A step of a request in service is no fault and keeps the invariant. -/
theorem Inv.work {i : Instr} {s : State} (h : Inv s) (hs : Serving i s) : ∃ t, workOf i s = .next t ∧ Inv t := by
  obtain ⟨-, hes, hq, hd⟩ := id hs
  have hpos := h.service hes hd
  cases i with
  | rdreg reg =>
    exact h.outcome_read hes hd (currentCall_rdreg hq) ((servicePosition_rdreg hq).mp hpos).1 fun u hu =>
      hu.ok.inv_reply hu.fine hu.free (by decide) (by simp)
  | wrreg reg value =>
    exact h.outcome_write hes hd (currentCall_wrreg hq) ((servicePosition_wrreg hq).mp hpos).1 fun u hu =>
      hu.ok.inv_reply hu.fine hu.free (by decide) (by simp)
  | identFix => exact h.identify_work (Or.inl rfl) hs
  | identPoll => exact h.identify_work (Or.inr rfl) hs

/-! ## The other steps -/

theorem Inv.withInbox {s : State} (h : Inv s) (moves : List Move) : Inv (s.withInbox moves) :=
  ⟨h.params, h.buffer, h.position, h.counters, h.responses, h.busErrors, h.lines⟩

theorem Inv.refuse {s : State} (h : Inv s) : Inv s.refuse :=
  ⟨h.params, h.buffer, h.position, h.counters, h.responses, h.busErrors, h.lines⟩

/-- Outside BUSY the engine stands at no position and owes nothing. -/
theorem Inv.resting {s : State} (h : Inv s) (hes : s.es ≠ .busy) :
    s.seq = .none ∧ s.rapop = .none ∧ s.rstep = 0 ∧ s.due = none := by
  simpa only [PositionOk, if_neg hes] using h.position

/-- An accepted word makes the engine BUSY, whatever is then latched. -/
theorem Inv.busyOk_accept {s : State} (h : Inv s) (r : Req) : BusyOk (s.accept r) :=
  ⟨rfl, h.params, h.buffer, h.counters, h.responses.1, h.busErrors.1⟩

theorem Inv.acceptIllegal {s : State} (h : Inv s) (hb : s.bi = false) : Inv s.acceptIllegal :=
  (h.busyOk_accept s.req).inv_owe (responseForm_reply (c := .illegalRequest) (by decide) (fun _ => rfl))
    (by simpa [hb] using reply_code_ne_two (by decide)) (fun _ => Or.inl rfl)

theorem Inv.accept {s : State} (h : Inv s) (hc : CanAccept s) (i : Instr) : Inv (beginOf i (s.accept (reqOf i))) := by
  obtain ⟨hes, hb, -⟩ := hc
  have hseq := (h.resting (by simp [hes])).1
  have hu := h.busyOk_accept (reqOf i)
  have identify (hi : i = .identFix ∨ i = .identPoll) : Inv (s.accept (reqOf i)).startIdentify :=
    BusyOk.inv_identify ⟨hu.es, hu.params, hu.buffer, ⟨Nat.zero_le _, hu.counters.2⟩, hu.rsp, hu.marked⟩ hi rfl rfl hb
      ⟨Or.inr ⟨rfl, Or.inl rfl⟩, rfl⟩ (by simp [stageCall, callLines, writeLines])
  cases i with
  | rdreg reg =>
    refine BusyOk.inv_working ⟨hu.es, hu.params, hu.buffer, hu.counters, hu.rsp, by simp [beginOf]⟩ rfl
      ((servicePosition_rdreg rfl).mpr ⟨Or.inl ⟨rfl, Or.inl rfl⟩, hseq⟩) (by simp [beginOf, hb]) fun _ => ?_
    rw [currentCall_rdreg rfl]
    simp [beginOf, callLines, readLines]
  | wrreg reg value =>
    refine BusyOk.inv_working ⟨hu.es, hu.params, hu.buffer, hu.counters, hu.rsp, hu.marked⟩ rfl
      ((servicePosition_wrreg rfl).mpr ⟨Or.inr ⟨rfl, Or.inl rfl⟩, hseq⟩) (by simp [beginOf, hb]) fun _ => ?_
    rw [currentCall_wrreg rfl]
    simp [beginOf, callLines, writeLines]
  | identFix => exact identify (Or.inl rfl)
  | identPoll => exact identify (Or.inr rfl)

theorem Inv.respond {s : State} {r : Response} (h : Inv s) (hes : s.es = .busy) (hd : s.due = some r) :
    Inv (s.respond r) where
  params := h.params
  buffer := h.buffer
  position := ⟨rfl, rfl, rfl, rfl⟩
  counters := h.counters
  responses := ⟨fun _ => h.responses.2 r hd, by simp⟩
  busErrors := ⟨h.busErrors.1, by
    have := h.busErrors.2
    simp only [hes, hd] at this
    simpa using this⟩
  lines := fun hb => by
    have := h.lines hb
    simp only [hes, hd] at this
    exact fun _ => this

theorem configCheck_es (s : State) : s.configCheck.es = .idle ∨ s.configCheck.es = .cfgfail := by
  rcases configCheck_cases s with ⟨-, he, -⟩ | ⟨r, -, -, he, -⟩ <;> simp [he]

/-- The configuration check in UNINIT. -/
theorem Inv.configCheck {s : State} (h : Inv s) (hes : s.es = .uninit) : Inv s.configCheck := by
  have hrest := h.resting (by simp [hes])
  have hbus := h.busErrors.2
  simp only [hes] at hbus
  obtain ⟨hb, hv⟩ := hbus
  refine ⟨by simpa using h.params, by simpa using h.buffer, ?_, ?_, ?_, ?_, ?_⟩
  · rcases configCheck_es s with he | he <;> simpa [PositionOk, he] using hrest
  · simpa [CountersOk] using h.counters
  · simpa [ResponseOk] using h.responses
  · rcases configCheck_es s with he | he <;> simpa [BusErrorOk, he, hb, hv] using h.busErrors.1
  · rcases configCheck_es s with he | he <;> simp [LinesOk, he, hv]

/-- The registers that a reinit sets, before the check: a state of UNINIT. -/
theorem Inv.reinitRegs {s : State} (h : Inv s) (c : GroupClaim) : Inv (s.reinitRegs c) where
  params := h.params
  buffer := h.buffer
  position := ⟨rfl, rfl, rfl, rfl⟩
  counters := ⟨Nat.zero_le _, Nat.zero_le _⟩
  responses := ⟨by simp, by simp⟩
  busErrors := ⟨by simp, rfl, rfl⟩
  lines := fun _ => trivial

theorem Inv.reinit {s : State} (h : Inv s) (c : GroupClaim) : Inv (s.reinit c) :=
  (h.reinitRegs c).configCheck rfl

/-! ## The statements -/

/-- Settles O9: every conjunct says something of what State.reset sets, or of what it has not set yet. -/
theorem invariantHoldsAtReset : Obligations.InvariantHoldsAtReset where
  params := by simp [State.reset, Config.params, Params.wf]
  buffer := wf_reset
  position := ⟨rfl, rfl, rfl, rfl⟩
  counters := ⟨Nat.zero_le _, Nat.zero_le _⟩
  responses := ⟨by simp [State.reset], by simp [State.reset]⟩
  busErrors := ⟨by simp [State.reset], rfl, rfl⟩
  lines := fun _ => trivial

/-- Settles O50: a request in service by `Inv.work`, and each other way of `step_cases` by its own rule. -/
theorem invariantIsKept : Obligations.InvariantIsKept := by
  intro s t h hstep
  obtain ⟨-, ⟨hes, -, rfl⟩ | ⟨-, rfl⟩ | ⟨c, rest, -, rfl⟩ | ⟨w, rest, -, -, -, rfl⟩ | ⟨w, rest, hc, -, -, rfl⟩ |
    ⟨w, rest, i, hc, -, -, rfl⟩ | ⟨r, hes, hd, rfl⟩ | ⟨i, hs, hw⟩ | ⟨i, -, -, -, -, rfl⟩⟩ := step_cases hstep
  · exact h.configCheck hes
  · exact h
  · exact (h.withInbox rest).reinit c
  · exact (h.withInbox rest).refuse
  · exact (h.withInbox rest).acceptIllegal hc.2.1
  · exact (h.withInbox rest).accept hc i
  · exact h.respond hes hd
  · obtain ⟨t', hw', ht'⟩ := h.work hs
    obtain rfl : t' = t := by simpa [hw'] using hw
    exact ht'
  · exact h

/-- A BUSY state of the invariant has a next step: the response owed, or the primitive of the request latched. -/
theorem Inv.busy_next {s : State} (h : Inv s) (hr : s.refused = false) (hes : s.es = .busy) :
    ∃ t, busyStep s = .next t := by
  unfold busyStep
  cases hd : s.due with
  | some r => exact ⟨_, rfl⟩
  | none =>
    obtain ⟨i, hq⟩ := servicePosition_req (h.service hes hd)
    have hs : Serving i s := ⟨hr, hes, hq, hd⟩
    obtain ⟨t, ht, -⟩ := h.work hs
    exact ⟨t, by simp [hq, exec_serving hs, ht]⟩

theorem uninitStep_next (s : State) : ∃ t, uninitStep s = .next t := by
  unfold uninitStep; split <;> exact ⟨_, rfl⟩

theorem cfgfailStep_next (s : State) : ∃ t, cfgfailStep s = .next t := by
  unfold cfgfailStep; split <;> exact ⟨_, rfl⟩

theorem idleStep_next {s : State} (hr : s.refused = false) (hes : s.es = .idle) : ∃ t, idleStep s = .next t := by
  unfold idleStep
  split
  · exact ⟨_, rfl⟩
  · rename_i w rest _
    unfold submitWord
    split
    · exact ⟨_, rfl⟩
    · rename_i hb
      split
      · exact ⟨_, exec_accept ⟨hes, by simpa using hb, hr⟩⟩
      · exact ⟨_, rfl⟩
  · exact ⟨_, rfl⟩

/-- Settles O51: without the mark each of the four kinds of step has a next state, a BUSY one by the invariant; with
it the step is the refusal. -/
theorem onlyARefusedRunStops : Obligations.OnlyARefusedRunStops := by
  intro s h
  refine ⟨fun hr => ?_, fun hr => by simp [step, engineStep, hr]⟩
  unfold step engineStep
  rw [if_neg (by simp [hr])]
  cases hes : s.es with
  | uninit => exact uninitStep_next s
  | cfgfail => exact cfgfailStep_next s
  | idle => exact idleStep_next hr hes
  | busy => exact h.busy_next hr hes

end Sys2Proof.Machine
end

section
/-! PROOFS. What a step of the machine does to the engine state, the response, `E.BI`, the stage and the lines that the
engine never drives (10_state.md R22, R24 to R26, R29, R33, R40). -/

namespace Sys2Proof.Machine

/-! ## Acceptance and reinit, register by register -/

section
variable (i : Instr) (s : State) (c : GroupClaim)

@[simp] theorem beginOf_es : (beginOf i s).es = s.es := by cases i <;> rfl
@[simp] theorem beginOf_rsp : (beginOf i s).rsp = s.rsp := by cases i <;> rfl
@[simp] theorem beginOf_rspValid : (beginOf i s).rspValid = s.rspValid := by cases i <;> rfl
@[simp] theorem beginOf_bi : (beginOf i s).bi = s.bi := by cases i <;> rfl

@[simp] theorem reinit_bi : (s.reinit c).bi = false := by simp [State.reinit]
@[simp] theorem reinit_rspValid : (s.reinit c).rspValid = false := by simp [State.reinit]

end

theorem reinit_es (s : State) (c : GroupClaim) : (s.reinit c).es = .idle ∨ (s.reinit c).es = .cfgfail :=
  configCheck_es _

theorem configCheck_es_idle_iff (s : State) : s.configCheck.es = .idle ↔ s.configCheck.cfgerr = none := by
  rcases configCheck_cases s with ⟨-, he, hc⟩ | ⟨r, -, -, he, hc⟩ <;> simp [he, hc]

/-! ## The statements -/

/-- Settles O8: the first step is the configuration check, which leaves all registers but `E.ES` and `E.CFGERR` as
State.reset has them. -/
theorem resetValues : Obligations.ResetValues :=
  ⟨rfl, State.reset.configCheck, rfl, configCheck_es _, configCheck_es_idle_iff _, by simp [State.reset, Config.params]⟩

/-- Settles O12: of the ways of `step_cases`, the check, an acceptance, a delivery and a reinit are the four of the
table, and the others keep `E.ES`. -/
theorem engineStateTransitions : Obligations.EngineStateTransitions := by
  intro s t h hne
  obtain ⟨-, ⟨hes, -, rfl⟩ | ⟨-, rfl⟩ | ⟨c, rest, hc, rfl⟩ | ⟨w, rest, -, -, -, rfl⟩ | ⟨w, rest, hc, hi, -, rfl⟩ |
    ⟨w, rest, i, hc, hi, -, rfl⟩ | ⟨r, hes, hd, rfl⟩ | ⟨i, -, hw⟩ | ⟨i, -, -, -, -, rfl⟩⟩ := step_cases h
  · exact Or.inl ⟨hes, configCheck_es s, rfl⟩
  · exact absurd rfl hne
  · exact Or.inr (Or.inr (Or.inr ⟨⟨c, rest, hc⟩, hc.1, reinit_es _ c⟩))
  · exact absurd rfl hne
  · exact Or.inr (Or.inl ⟨hc.1, rfl, hc, w, rest, hi⟩)
  · exact Or.inr (Or.inl ⟨hc.1, by simp, hc, w, rest, hi⟩)
  · exact Or.inr (Or.inr (Or.inl ⟨hes, rfl, rfl, hd⟩))
  · exact absurd (work_frame hw).es.symm hne
  · exact absurd rfl hne

/-- Settles O52: a request in service keeps both lines by `work_frame`; a reinit alone sets them. -/
theorem ledAndResetLinesAreNeverDriven : Obligations.LedAndResetLinesAreNeverDriven := by
  intro s t h
  obtain ⟨-, ⟨-, -, rfl⟩ | ⟨-, rfl⟩ | ⟨c, rest, hc, rfl⟩ | ⟨w, rest, -, -, -, rfl⟩ | ⟨w, rest, -, -, -, rfl⟩ |
    ⟨w, rest, i, -, -, -, rfl⟩ | ⟨r, -, -, rfl⟩ | ⟨i, -, hw⟩ | ⟨i, -, -, -, -, rfl⟩⟩ := step_cases h
  case inr.inr.inl => -- a reinit
    exact Or.inr ⟨⟨c, rest, hc⟩, by simp⟩
  case inr.inr.inr.inr.inr.inr.inr.inl => -- the request in service
    exact Or.inl ⟨(work_frame hw).led, (work_frame hw).rst⟩
  all_goals exact Or.inl (by simp)

/-- Settles O53: a request in service sets `E.BI` exactly with an error it records (`work_frame`); a reinit clears it,
and every other step records nothing and keeps it. -/
theorem busIndeterminateIsSticky : Obligations.BusIndeterminateIsSticky := by
  intro s t h
  obtain ⟨-, ⟨-, -, rfl⟩ | ⟨-, rfl⟩ | ⟨c, rest, hc, rfl⟩ | ⟨w, rest, -, -, -, rfl⟩ | ⟨w, rest, -, -, -, rfl⟩ |
    ⟨w, rest, i, -, -, -, rfl⟩ | ⟨r, -, -, rfl⟩ | ⟨i, -, hw⟩ | ⟨i, -, -, -, -, rfl⟩⟩ := step_cases h
  case inr.inr.inl => -- a reinit
    exact Or.inl ⟨⟨c, rest, hc⟩, by simp⟩
  case inr.inr.inr.inr.inr.inr.inr.inl => -- the request in service
    rcases (work_frame hw).trace with rfl | ⟨ev, a, htrace, -, hbi⟩
    · exact Or.inr (by simp)
    · refine Or.inr (hbi.trans (or_congr_right ?_))
      exact ⟨fun ha => ⟨ev, a, htrace, ha⟩, fun ⟨ev', a', h', ha⟩ => by simp_all⟩
  all_goals exact Or.inr (by simp)

/-- Settles O54: a delivery writes the response owed, a reinit makes it invalid, and every other step keeps it. -/
theorem responseIsHeld : Obligations.ResponseIsHeld := by
  refine ⟨rfl, fun s t h => ?_⟩
  obtain ⟨-, ⟨-, -, rfl⟩ | ⟨-, rfl⟩ | ⟨c, rest, hc, rfl⟩ | ⟨w, rest, -, -, -, rfl⟩ | ⟨w, rest, -, -, -, rfl⟩ |
    ⟨w, rest, i, -, -, -, rfl⟩ | ⟨r, hes, hd, rfl⟩ | ⟨i, -, hw⟩ | ⟨i, -, -, -, -, rfl⟩⟩ := step_cases h
  case inr.inr.inl => -- a reinit
    exact Or.inl ⟨⟨c, rest, hc⟩, by simp⟩
  case inr.inr.inr.inr.inr.inr.inl => -- a delivery
    exact Or.inr (Or.inl ⟨hes, rfl, hd, rfl⟩)
  case inr.inr.inr.inr.inr.inr.inr.inl => -- the request in service
    exact Or.inr (Or.inr ⟨(work_frame hw).rsp, (work_frame hw).rspValid⟩)
  all_goals exact Or.inr (Or.inr (by simp))

/-! ## The stages of IDENTIFY -/

/-- A RAP step as the engine's step keeps `E.SEQ`, unless it returns `Ok` to the Sequencer. -/
theorem outcome_seq {x : RapStep} {s t : State} {onOk : State → State} (hx : ∀ u, x.Yields u → RapFrame s u)
    (h : x.outcome s onOk = .next t) : t.seq = s.seq ∨ ∃ u, RapFrame s u ∧ t = onOk u := by
  rcases outcome_cases h with ⟨-, rfl⟩ | ⟨u, h1, rfl⟩ | ⟨u, h1, rfl⟩ | ⟨e, u, h1, rfl⟩
  · exact Or.inl rfl
  · exact Or.inl (hx _ (Or.inl h1)).seq
  · exact Or.inr ⟨u, hx _ (Or.inr (Or.inl h1)), rfl⟩
  · exact Or.inl (hx _ (Or.inr (Or.inr ⟨e, h1⟩))).seq

theorem outcome_read_seq {r : RegIdx} {s t : State} {onOk : State → State}
    (h : (rapRead r s).outcome s onOk = .next t) : t.seq = s.seq ∨ ∃ u, RapFrame s u ∧ t = onOk u :=
  outcome_seq (fun _ hu => (rapRead_frame hu).1) h

theorem outcome_write_seq {r : RegIdx} {v : Word} {s t : State} {onOk : State → State}
    (h : (rapWrite r v s).outcome s onOk = .next t) : t.seq = s.seq ∨ ∃ u, RapFrame s u ∧ t = onOk u :=
  outcome_seq (fun _ hu => (rapWrite_frame hu).1) h

theorem afterClear_seq (u : State) : (afterClear u).seq = u.seq ∨ (afterClear u).seq = .issueCommand ∧ u.k = 3 := by
  unfold afterClear
  split
  · exact Or.inr ⟨rfl, by assumption⟩
  · exact Or.inl rfl

theorem afterPresence_seq (u : State) :
    (afterPresence u).seq = u.seq ∨ (afterPresence u).seq = .awaitDataReady := by
  unfold afterPresence
  split
  · exact Or.inl rfl
  · split <;> exact Or.inr rfl

theorem afterPoll_seq (u : State) : (afterPoll u).seq = u.seq ∨ (afterPoll u).seq = .burstRead := by
  simp only [afterPoll]
  split
  · exact Or.inl rfl
  · split
    · exact Or.inr rfl
    · split <;> exact Or.inl rfl

theorem afterData_seq (u : State) : (afterData u).seq = u.seq := by
  simp only [afterData]
  split <;> rfl

theorem awaitSleep_seq {s t : State} (h : awaitSleep s = .next t) : t.seq = s.seq ∨ t.seq = .burstRead := by
  unfold awaitSleep at h
  split at h
  · rcases sleep_cases identDelayMinUs s.params.identDelayMaxUs s with ⟨-, hx⟩ | ⟨a, -, hx⟩ <;>
      simp only [hx, Exchange.thenMore, RapStep.outcome, Host.Outcome.next.injEq] at h <;> subst h
    · exact Or.inl rfl
    · exact Or.inr rfl
  · rcases sleep_cases s.params.pollSleepMinUs s.params.pollSleepMaxUs s with ⟨-, hx⟩ | ⟨a, -, hx⟩ <;>
      simp only [hx, Exchange.thenMore, RapStep.outcome, Host.Outcome.next.injEq] at h <;> subst h <;>
      exact Or.inl (by simp)

/-- Settles O46: only the RAP operation that ends a stage, or the fixed delay, can change `E.SEQ`, and each stage is
followed by the next. -/
theorem stagesAreLinear : Obligations.StagesAreLinear := by
  intro i s t hi hs h hne
  have hw : identifyStep s = .next t := by
    rw [exec_serving hs] at h
    rcases hi with rfl | rfl <;> exact h
  unfold identifyStep at hw
  cases hst : s.seq <;> simp only [hst] at hw
  case none => simp at hw
  case selectDrive =>
    obtain ⟨u, -, rfl⟩ := (outcome_write_seq hw).resolve_left hne
    simp
  case clearParams =>
    obtain ⟨u, hu, rfl⟩ := (outcome_write_seq hw).resolve_left hne
    obtain ⟨hseq, hk⟩ := (afterClear_seq u).resolve_left fun he => hne (he.trans hu.seq)
    simp [hseq, ← hu.k, hk]
  case issueCommand =>
    obtain ⟨u, -, rfl⟩ := (outcome_write_seq hw).resolve_left hne
    simp
  case checkPresence =>
    obtain ⟨u, hu, rfl⟩ := (outcome_read_seq hw).resolve_left hne
    simp [(afterPresence_seq u).resolve_left fun he => hne (he.trans hu.seq)]
  case awaitDataReady =>
    have hburst : t.seq = .burstRead := by
      split at hw
      · exact (awaitSleep_seq hw).resolve_left hne
      · split at hw
        · simp at hw
        · obtain ⟨u, hu, rfl⟩ := (outcome_read_seq hw).resolve_left hne
          exact (afterPoll_seq u).resolve_left fun he => hne (he.trans hu.seq)
    simp [hburst]
  case burstRead =>
    split at hw
    · obtain ⟨u, hu, rfl⟩ := (outcome_read_seq hw).resolve_left hne
      exact absurd ((afterData_seq u).trans hu.seq) hne
    · simp at hw

end Sys2Proof.Machine
end

section
/-! PROOFS. The contents of the Identify Buffer make no difference to a run: every operation of the model carries a
buffer with other contents along (10_state.md R31, 20_memory.md R66). -/

namespace Sys2Proof.Machine

/-- The same state with other contents of the Identify Buffer. -/
def State.withBuffer (s : State) (m : List Host.Cell) : State := { s with idbuf := m }

section
variable (s : State) (m : List Host.Cell)

@[simp] theorem withBuffer_es : (s.withBuffer m).es = s.es := rfl
@[simp] theorem withBuffer_req : (s.withBuffer m).req = s.req := rfl
@[simp] theorem withBuffer_bi : (s.withBuffer m).bi = s.bi := rfl
@[simp] theorem withBuffer_stw : (s.withBuffer m).stw = s.stw := rfl
@[simp] theorem withBuffer_k : (s.withBuffer m).k = s.k := rfl
@[simp] theorem withBuffer_wc : (s.withBuffer m).wc = s.wc := rfl
@[simp] theorem withBuffer_np : (s.withBuffer m).np = s.np := rfl
@[simp] theorem withBuffer_seq : (s.withBuffer m).seq = s.seq := rfl
@[simp] theorem withBuffer_rapop : (s.withBuffer m).rapop = s.rapop := rfl
@[simp] theorem withBuffer_rstep : (s.withBuffer m).rstep = s.rstep := rfl
@[simp] theorem withBuffer_j : (s.withBuffer m).j = s.j := rfl
@[simp] theorem withBuffer_sample : (s.withBuffer m).sample = s.sample := rfl
@[simp] theorem withBuffer_perr : (s.withBuffer m).perr = s.perr := rfl
@[simp] theorem withBuffer_refused : (s.withBuffer m).refused = s.refused := rfl
@[simp] theorem withBuffer_params : (s.withBuffer m).params = s.params := rfl
@[simp] theorem withBuffer_due : (s.withBuffer m).due = s.due := rfl
@[simp] theorem withBuffer_inbox : (s.withBuffer m).inbox = s.inbox := rfl
@[simp] theorem withBuffer_answer : (s.withBuffer m).answer = s.answer := rfl

/-! ## The operations -/

theorem record_withBuffer (ev : Event) (a : Answer) :
    (s.withBuffer m).record ev a = (s.record ev a).withBuffer m := by
  unfold State.record State.consume
  cases h : s.answers <;> simp only [State.withBuffer, h]

theorem configCheck_withBuffer : (s.withBuffer m).configCheck = s.configCheck.withBuffer m := by
  unfold State.configCheck
  cases h : firstFailing s.claim <;> simp only [State.withBuffer, h]

theorem reinit_withBuffer (c : GroupClaim) : (s.withBuffer m).reinit c = (s.reinit c).withBuffer m :=
  configCheck_withBuffer (s.reinitRegs c) m

theorem beginOf_withBuffer (i : Instr) : beginOf i (s.withBuffer m) = (beginOf i s).withBuffer m := by
  cases i <;> rfl

end

/-! ## The primitives and the RAP functions -/

/-- An exchange with every state in it replaced. -/
def Exchange.onState (f : State → State) : Exchange → Exchange
  | .silent => .silent
  | .ok s => .ok (f s)
  | .err e s => .err e (f s)

/-- A step of a RAP function with every state in it replaced. -/
def RapStep.onState (f : State → State) : RapStep → RapStep
  | .silent => .silent
  | .more s => .more (f s)
  | .ok s => .ok (f s)
  | .err e s => .err e (f s)
  | .stray => .stray

section
variable (s : State) (m : List Host.Cell)

theorem setLines_withBuffer (g : GroupWrite) :
    setLines g (s.withBuffer m) = (setLines g s).onState (·.withBuffer m) := by
  unfold setLines
  rw [withBuffer_answer]
  rcases s.answer with _ | ⟨_ | e, w⟩
  · rfl
  · simp only [record_withBuffer]; rfl
  · simp only [record_withBuffer]; rfl

theorem getLines_withBuffer : getLines (s.withBuffer m) = (getLines s).onState (·.withBuffer m) := by
  unfold getLines
  rw [withBuffer_answer]
  rcases s.answer with _ | ⟨_ | e, w⟩
  · rfl
  · simp only [record_withBuffer]; rfl
  · simp only [record_withBuffer]; rfl

theorem setDir_withBuffer (i : BitVec 4) (d : DirCmd) :
    setDir i d (s.withBuffer m) = (setDir i d s).onState (·.withBuffer m) := by
  unfold setDir
  rw [withBuffer_answer]
  rcases s.answer with _ | ⟨_ | e, w⟩
  · rfl
  · simp only [record_withBuffer]; rfl
  · simp only [record_withBuffer]; rfl

theorem sleep_withBuffer (lo hi : Nat) :
    sleep lo hi (s.withBuffer m) = (sleep lo hi s).onState (·.withBuffer m) := by
  unfold sleep
  rw [withBuffer_answer]
  rcases s.answer with _ | a
  · rfl
  · simp only [record_withBuffer]; rfl

theorem nextLine_withBuffer {next : State → State} (h : ∀ u, next (u.withBuffer m) = (next u).withBuffer m) :
    State.nextLine next (s.withBuffer m) = (State.nextLine next s).withBuffer m := by
  unfold State.nextLine
  rw [withBuffer_j, h]
  split <;> rfl

end

theorem Exchange.onState_thenMore {f next : State → State} (x : Exchange) (h : ∀ u, next (f u) = f (next u)) :
    (x.onState f).thenMore next = (x.thenMore next).onState f := by
  cases x <;> simp [Exchange.onState, Exchange.thenMore, RapStep.onState, h]

theorem Exchange.onState_thenOk {f : State → State} (x : Exchange) : (x.onState f).thenOk = x.thenOk.onState f := by
  cases x <;> rfl

section
variable (s : State) (m : List Host.Cell)

theorem rapSelect_withBuffer (r : RegIdx) {next : State → State}
    (h : ∀ u, next (u.withBuffer m) = (next u).withBuffer m) :
    rapSelect r next (s.withBuffer m) = (rapSelect r next s).onState (·.withBuffer m) := by
  unfold rapSelect
  rw [withBuffer_rstep, setLines_withBuffer, setLines_withBuffer]
  split
  · exact Exchange.onState_thenMore _ fun _ => rfl
  · exact Exchange.onState_thenMore _ h
  · rfl

theorem readAssert_withBuffer : readAssert (s.withBuffer m) = (readAssert s).onState (·.withBuffer m) := by
  unfold readAssert
  rw [setLines_withBuffer]
  cases setLines (.sr strobeOn) s <;> rfl

theorem readSample_withBuffer : readSample (s.withBuffer m) = (readSample s).onState (·.withBuffer m) := by
  unfold readSample
  rw [getLines_withBuffer]
  cases getLines s <;> rfl

theorem readDeassert_withBuffer : readDeassert (s.withBuffer m) = (readDeassert s).onState (·.withBuffer m) := by
  unfold readDeassert
  rw [setLines_withBuffer, withBuffer_perr]
  cases setLines (.sr strobeOff) s <;> cases s.perr <;> rfl

theorem rapRead_withBuffer (r : RegIdx) :
    rapRead r (s.withBuffer m) = (rapRead r s).onState (·.withBuffer m) := by
  unfold rapRead
  rw [withBuffer_rapop, withBuffer_rstep, withBuffer_j]
  split
  · split
    · rw [setDir_withBuffer]
      exact Exchange.onState_thenMore _ fun u => nextLine_withBuffer u m fun _ => rfl
    · exact readAssert_withBuffer s m
    · rw [sleep_withBuffer]
      exact Exchange.onState_thenMore _ fun _ => rfl
    · exact readSample_withBuffer s m
    · exact readDeassert_withBuffer s m
    · rfl
  · exact rapSelect_withBuffer s m r fun _ => rfl
  · rfl
  · rfl

theorem writeReturn_withBuffer : writeReturn (s.withBuffer m) = (writeReturn s).onState (·.withBuffer m) := by
  unfold writeReturn
  rw [withBuffer_j, setDir_withBuffer]
  split
  · exact Exchange.onState_thenOk _
  · exact Exchange.onState_thenMore _ fun _ => rfl

theorem rapWrite_withBuffer (r : RegIdx) (v : Word) :
    rapWrite r v (s.withBuffer m) = (rapWrite r v s).onState (·.withBuffer m) := by
  unfold rapWrite
  rw [withBuffer_rapop, withBuffer_rstep, withBuffer_j]
  split
  · exact rapSelect_withBuffer s m r fun _ => rfl
  · split
    · rw [setDir_withBuffer]
      exact Exchange.onState_thenMore _ fun u => nextLine_withBuffer u m fun _ => rfl
    · rw [setLines_withBuffer]; exact Exchange.onState_thenMore _ fun _ => rfl
    · rw [sleep_withBuffer]; exact Exchange.onState_thenMore _ fun _ => rfl
    · rw [setLines_withBuffer]; exact Exchange.onState_thenMore _ fun _ => rfl
    · rw [sleep_withBuffer]; exact Exchange.onState_thenMore _ fun _ => rfl
    · exact writeReturn_withBuffer s m
    · rfl
  · rfl
  · rfl

end

/-! ## The engine's steps -/

/-- The second outcome is the first one but for the contents of the buffer in its next state. -/
def SameButBuffer (x y : Host.Outcome State Fault Refusal) : Prop :=
  match x with
  | .next t => ∃ m, y = .next (t.withBuffer m)
  | .fault f => y = .fault f
  | .refused r => y = .refused r

section
variable (s : State) (m : List Host.Cell)

theorem same_outcome (x : RapStep) {onOk : State → State}
    (h : ∀ u, ∃ m', onOk (u.withBuffer m) = (onOk u).withBuffer m') :
    SameButBuffer (x.outcome s onOk) ((x.onState (·.withBuffer m)).outcome (s.withBuffer m) onOk) := by
  cases x with
  | silent => exact ⟨m, rfl⟩
  | more u => exact ⟨m, rfl⟩
  | ok u =>
    obtain ⟨m', hm⟩ := h u
    exact ⟨m', by simp [RapStep.onState, RapStep.outcome, hm]⟩
  | err e u => exact ⟨m, rfl⟩
  | stray => rfl

theorem same_rapRead (r : RegIdx) {onOk : State → State}
    (h : ∀ u, ∃ m', onOk (u.withBuffer m) = (onOk u).withBuffer m') :
    SameButBuffer ((rapRead r s).outcome s onOk) ((rapRead r (s.withBuffer m)).outcome (s.withBuffer m) onOk) := by
  rw [rapRead_withBuffer]
  exact same_outcome s m _ h

theorem same_rapWrite (r : RegIdx) (v : Word) {onOk : State → State}
    (h : ∀ u, ∃ m', onOk (u.withBuffer m) = (onOk u).withBuffer m') :
    SameButBuffer ((rapWrite r v s).outcome s onOk) ((rapWrite r v (s.withBuffer m)).outcome (s.withBuffer m) onOk) := by
  rw [rapWrite_withBuffer]
  exact same_outcome s m _ h

theorem same_awaitSleep : SameButBuffer (awaitSleep s) (awaitSleep (s.withBuffer m)) := by
  unfold awaitSleep
  rw [withBuffer_req, withBuffer_params, sleep_withBuffer, sleep_withBuffer]
  split
  · rw [Exchange.onState_thenMore (f := (·.withBuffer m)) _ fun _ => rfl]
    exact same_outcome s m _ fun _ => ⟨m, rfl⟩
  · rw [Exchange.onState_thenMore (f := (·.withBuffer m)) _ fun _ => rfl]
    exact same_outcome s m _ fun _ => ⟨m, rfl⟩

theorem afterClear_withBuffer : afterClear (s.withBuffer m) = (afterClear s).withBuffer m := by
  unfold afterClear
  rw [withBuffer_k]
  split <;> rfl

theorem afterPresence_withBuffer : afterPresence (s.withBuffer m) = (afterPresence s).withBuffer m := by
  unfold afterPresence
  rw [withBuffer_sample, withBuffer_req]
  split
  · rfl
  · split <;> rfl

theorem afterPoll_withBuffer : afterPoll (s.withBuffer m) = (afterPoll s).withBuffer m := by
  unfold afterPoll
  rw [withBuffer_sample, withBuffer_np, withBuffer_params]
  dsimp only
  split
  · rfl
  · split
    · rfl
    · split <;> rfl

/-- The one place where the buffer is written: the word goes into whatever contents it has. -/
theorem afterData_withBuffer : ∃ m', afterData (s.withBuffer m) = (afterData s).withBuffer m' := by
  unfold afterData
  rw [withBuffer_sample, withBuffer_wc, withBuffer_stw]
  dsimp only
  split <;> exact ⟨((s.withBuffer m).storeWord s.sample).idbuf, rfl⟩

theorem same_identifyStep : SameButBuffer (identifyStep s) (identifyStep (s.withBuffer m)) := by
  unfold identifyStep
  rw [withBuffer_seq, withBuffer_rapop, withBuffer_req, withBuffer_wc, withBuffer_k]
  split
  · exact same_rapWrite s m _ _ fun _ => ⟨m, rfl⟩
  · exact same_rapWrite s m _ _ fun u => ⟨m, afterClear_withBuffer u m⟩
  · exact same_rapWrite s m _ _ fun _ => ⟨m, rfl⟩
  · exact same_rapRead s m _ fun u => ⟨m, afterPresence_withBuffer u m⟩
  · split
    · exact same_awaitSleep s m
    · split
      · rfl
      · exact same_rapRead s m _ fun u => ⟨m, afterPoll_withBuffer u m⟩
  · split
    · exact same_rapRead s m _ fun u => afterData_withBuffer u m
    · rfl
  · rfl

theorem same_work (i : Instr) : SameButBuffer (workOf i s) (workOf i (s.withBuffer m)) := by
  cases i with
  | rdreg reg => exact same_rapRead s m reg fun _ => ⟨m, rfl⟩
  | wrreg reg value => exact same_rapWrite s m reg value fun _ => ⟨m, rfl⟩
  | identFix => exact same_identifyStep s m
  | identPoll => exact same_identifyStep s m

theorem same_exec (i : Instr) : SameButBuffer (exec i s) (exec i (s.withBuffer m)) := by
  rw [exec_eq_serve, exec_eq_serve]
  unfold serve
  rw [withBuffer_refused, withBuffer_es, withBuffer_bi, withBuffer_req, withBuffer_due]
  split
  · rfl
  · split
    · split
      · exact ⟨m, rfl⟩
      · exact ⟨m, congrArg _ (beginOf_withBuffer (s.accept (reqOf i)) m i)⟩
    · split
      · split
        · exact ⟨m, rfl⟩
        · exact same_work s m i
      · exact ⟨m, rfl⟩
    · exact ⟨m, rfl⟩
    · exact ⟨m, rfl⟩

theorem same_submitWord (w : Word32) : SameButBuffer (submitWord w s) (submitWord w (s.withBuffer m)) := by
  unfold submitWord
  rw [withBuffer_bi]
  split
  · exact ⟨m, rfl⟩
  · split
    · exact same_exec s m _
    · exact ⟨m, rfl⟩

theorem same_uninitStep : SameButBuffer (uninitStep s) (uninitStep (s.withBuffer m)) := by
  unfold uninitStep
  rw [withBuffer_inbox, configCheck_withBuffer]
  split
  · exact ⟨m, rfl⟩
  · exact ⟨m, rfl⟩
  · exact ⟨m, congrArg _ (reinit_withBuffer (s.withInbox _) m _)⟩

theorem same_idleStep : SameButBuffer (idleStep s) (idleStep (s.withBuffer m)) := by
  unfold idleStep
  rw [withBuffer_inbox]
  split
  · exact ⟨m, rfl⟩
  · exact same_submitWord (s.withInbox _) m _
  · exact ⟨m, congrArg _ (reinit_withBuffer (s.withInbox _) m _)⟩

theorem same_cfgfailStep : SameButBuffer (cfgfailStep s) (cfgfailStep (s.withBuffer m)) := by
  unfold cfgfailStep
  rw [withBuffer_inbox]
  split
  · exact ⟨m, rfl⟩
  · exact ⟨m, congrArg _ (reinit_withBuffer (s.withInbox _) m _)⟩

theorem same_busyStep : SameButBuffer (busyStep s) (busyStep (s.withBuffer m)) := by
  unfold busyStep
  rw [withBuffer_due, withBuffer_req]
  split
  · exact ⟨m, rfl⟩
  · split
    · exact same_exec s m _
    · rfl

theorem same_step : SameButBuffer (step s) (step (s.withBuffer m)) := by
  unfold step engineStep
  rw [withBuffer_refused, withBuffer_es]
  split
  · rfl
  · split
    · exact same_uninitStep s m
    · exact same_cfgfailStep s m
    · exact same_idleStep s m
    · exact same_busyStep s m

end

/-- Settles O58: `same_step`, read for each of the three outcomes. -/
theorem bufferIsNeverRead : Obligations.BufferIsNeverRead := by
  intro s m
  have h : SameButBuffer (step s) (step { s with idbuf := m }) := same_step s m
  refine ⟨fun t ht => ?_, fun f hf => ?_, fun r hr => ?_⟩
  · rw [ht] at h
    obtain ⟨m', hm⟩ := h
    exact ⟨t.withBuffer m', hm, rfl⟩
  · rwa [hf] at h
  · rwa [hr] at h

end Sys2Proof.Machine
end

section
/-! PROOFS. Every request ends: each primitive that the environment answers brings a request nearer to its response
(41_register_access.md R141, 42_identify.md R168, 70_reset_and_hazards.md R237). -/

namespace Sys2Proof.Machine

/-! ## How many primitives are left at most -/

/-- The primitives that `RAP_Read` has left: 22 at its first one (41_register_access.md R141). -/
def readLeft (s : State) : Nat :=
  match s.rapop with
  | .read => if s.rstep = 1 then 22 - s.j.toNat else 7 - s.rstep
  | .select => 7 - s.rstep
  | .write => 0
  | .none => 0

/-- The primitives that `RAP_Write` has left: 38 at its first one. -/
def writeLeft (s : State) : Nat :=
  match s.rapop with
  | .write => if s.rstep = 2 then 36 - s.j.toNat else if s.rstep = 4 then 16 - s.j.toNat else 51 - s.rstep
  | .select => 39 - s.rstep
  | .read => 0
  | .none => 0

/-- What follows a drive's presence: the delay and 256 Data reads, or as many poll reads as there can be, a sleep between
any two, and the Data reads (42_identify.md R168). -/
def presentLeft (s : State) : Nat :=
  if s.req.mode = 0 then 5633 else 5654 + 23 * (s.params.pollMaxReads - 1)

/-- The primitives that an IDENTIFY request has left at most, by its stage. -/
def identifyLeft (s : State) : Nat :=
  match s.seq with
  | .selectDrive => writeLeft s + 212 + presentLeft s
  | .clearParams => writeLeft s + 38 * (3 - s.k.toNat) + 60 + presentLeft s
  | .issueCommand => writeLeft s + 22 + presentLeft s
  | .checkPresence => readLeft s + presentLeft s
  | .awaitDataReady =>
    if s.rapop ≠ .none then readLeft s + 23 * (s.params.pollMaxReads - s.np - 1) + 5632
    else if s.req.mode = 0 then 5633
    else 23 + 23 * (s.params.pollMaxReads - s.np - 1) + 5632
  | .burstRead => readLeft s + 22 * (255 - s.wc.toNat)
  | .none => 0

/-- The primitives that a request in service has left at most. -/
def workLeft : Instr → State → Nat
  | .rdreg _ => readLeft
  | .wrreg _ _ => writeLeft
  | .identFix => identifyLeft
  | .identPoll => identifyLeft

/-- The position is a step of the request, whatever `E.SEQ` holds during RDREG and WRREG. -/
def workPosition : Instr → State → Prop
  | .rdreg _ => readPosition
  | .wrreg _ _ => writePosition
  | .identFix => identifyPosition
  | .identPoll => identifyPosition

theorem readLeft_pos {s : State} (h : readPosition s) : 0 < readLeft s := by
  have := s.j.isLt
  rcases h with ⟨hop, hst⟩ | ⟨hop, hst⟩ <;> simp only [readLeft, hop]
  · split <;> omega
  · omega

theorem writeLeft_pos {s : State} (h : writePosition s) : 0 < writeLeft s := by
  have := s.j.isLt
  rcases h with ⟨hop, hst⟩ | ⟨hop, hst⟩ <;> simp only [writeLeft, hop]
  · split
    · omega
    · split <;> omega
  · omega

theorem identifyLeft_pos {s : State} (h : identifyPosition s) : 0 < identifyLeft s := by
  unfold identifyPosition at h
  unfold identifyLeft
  cases hst : s.seq <;> simp only [hst] at h ⊢
  case selectDrive => have := writeLeft_pos h.1; omega
  case clearParams => have := writeLeft_pos h.1; omega
  case issueCommand => have := writeLeft_pos h.1; omega
  case checkPresence => have := readLeft_pos h.1; omega
  case burstRead => have := readLeft_pos h.1; omega
  case awaitDataReady => split <;> [omega; (split <;> omega)]

theorem workLeft_pos {i : Instr} {s : State} (h : workPosition i s) : 0 < workLeft i s := by
  cases i with
  | rdreg reg => exact readLeft_pos h
  | wrreg reg value => exact writeLeft_pos h
  | identFix => exact identifyLeft_pos h
  | identPoll => exact identifyLeft_pos h

/-! ## A primitive that is answered -/

/-- One primitive has been exchanged: its answer is used up and its event is on record. -/
structure Exchanged (s t : State) : Prop where
  answers : t.answers = s.consume.answers
  trace : t.trace.length = s.trace.length + 1

/-- A primitive of a RAP function came to a state, and left the position to the function. -/
structure Answered (s u : State) : Prop where
  exchanged : Exchanged s u
  kept : RapKept s u
  rapop : u.rapop = s.rapop
  rstep : u.rstep = s.rstep
  j : u.j = s.j

/-- The environment answered, with `Ok` or with an error. -/
def Exchange.Answered (s : State) : Exchange → Prop
  | .silent => False
  | .ok u => Machine.Answered s u
  | .err _ u => Machine.Answered s u

section
variable {s : State} {d : Draw} (ha : s.answer = some d)
include ha

theorem setLines_answered (g : GroupWrite) : (setLines g s).Answered s := by
  rcases setLines_cases g s with ⟨hn, -⟩ | ⟨w, -, h⟩ | ⟨e, w, -, h⟩
  · simp [ha] at hn
  all_goals rw [h]; exact ⟨⟨by simp, by simp⟩, by constructor <;> simp, by simp, by simp, by simp⟩

theorem getLines_answered : (getLines s).Answered s := by
  rcases getLines_cases s with ⟨hn, -⟩ | ⟨w, -, h⟩ | ⟨e, w, -, h⟩
  · simp [ha] at hn
  all_goals rw [h]; exact ⟨⟨by simp, by simp⟩, by constructor <;> simp, by simp, by simp, by simp⟩

theorem setDir_answered (i : BitVec 4) (c : DirCmd) : (setDir i c s).Answered s := by
  rcases setDir_cases i c s with ⟨hn, -⟩ | ⟨w, -, h⟩ | ⟨e, w, -, h⟩
  · simp [ha] at hn
  all_goals rw [h]; exact ⟨⟨by simp, by simp⟩, by constructor <;> simp, by simp, by simp, by simp⟩

theorem sleep_answered (lo hi : Nat) : (sleep lo hi s).Answered s := by
  rcases sleep_cases lo hi s with ⟨hn, -⟩ | ⟨a, -, h⟩
  · simp [ha] at hn
  · rw [h]; exact ⟨⟨by simp, by simp⟩, by constructor <;> simp, by simp, by simp, by simp⟩

end

/-! ## A step of a RAP function -/

/-- A step of a RAP function exchanges one primitive, and if the function goes on, it stands at a position with less
left. -/
def RapStep.Progress (s : State) (pos : State → Prop) (left : State → Nat) : RapStep → Prop
  | .silent => False
  | .more u => Exchanged s u ∧ RapKept s u ∧ pos u ∧ left u < left s
  | .ok u => Exchanged s u ∧ RapKept s u
  | .err _ u => Exchanged s u ∧ RapKept s u
  | .stray => False

/-- Only the position and the latches of the RAP differ. -/
def Repositioned (u v : State) : Prop :=
  ∃ op n j e, v = ((u.atStep op n).withJ j).withPerr e

theorem repositioned_atStep (u : State) (op : RapOp) (n : Nat) : Repositioned u (u.atStep op n) :=
  ⟨op, n, u.j, u.perr, rfl⟩

theorem repositioned_withJ (u : State) (j : BitVec 4) : Repositioned u (u.withJ j) :=
  ⟨u.rapop, u.rstep, j, u.perr, rfl⟩

theorem Answered.moved {s u v : State} (hu : Answered s u) (hv : Repositioned u v) :
    Exchanged s v ∧ RapKept s v := by
  obtain ⟨op, n, j, e, rfl⟩ := hv
  exact ⟨⟨hu.exchanged.answers, hu.exchanged.trace⟩, hu.kept.trans (by constructor <;> rfl)⟩

section
variable {s : State} {pos : State → Prop} {left : State → Nat} {x : Exchange}

theorem Answered.more {u v : State} (hu : Answered s u) (hv : Repositioned u v) (hp : pos v) (hl : left v < left s) :
    (RapStep.more v).Progress s pos left :=
  have hm := hu.moved hv
  ⟨hm.1, hm.2, hp, hl⟩

theorem thenMore_progress {next : State → State} (hx : x.Answered s)
    (h : ∀ u, Answered s u → Repositioned u (next u) ∧ pos (next u) ∧ left (next u) < left s) :
    (x.thenMore next).Progress s pos left := by
  cases x with
  | silent => exact hx.elim
  | ok u => exact Answered.more hx (h u hx).1 (h u hx).2.1 (h u hx).2.2
  | err e u => exact ⟨hx.exchanged, hx.kept⟩

theorem thenOk_progress (hx : x.Answered s) : x.thenOk.Progress s pos left := by
  cases x with
  | silent => exact hx.elim
  | ok u => exact ⟨hx.exchanged, hx.kept⟩
  | err e u => exact ⟨hx.exchanged, hx.kept⟩

end

theorem readAssert_progress {s : State} {d : Draw} (ha : s.answer = some d) (hop : s.rapop = .read) (hst : s.rstep = 3) :
    (readAssert s).Progress s readPosition readLeft := by
  have hx := setLines_answered ha (.sr strobeOn)
  unfold readAssert
  cases hs : setLines (.sr strobeOn) s with
  | silent => simp [hs, Exchange.Answered] at hx
  | ok u =>
    rw [hs] at hx
    exact Answered.more hx (repositioned_atStep _ _ _) (Or.inl ⟨rfl, by simp⟩) (by simp [readLeft, hop, hst])
  | err e u =>
    rw [hs] at hx
    exact Answered.more hx ⟨.read, 6, u.j, some e, rfl⟩ (Or.inl ⟨rfl, by simp⟩) (by simp [readLeft, hop, hst])

theorem readSample_progress {s : State} {d : Draw} (ha : s.answer = some d) (hop : s.rapop = .read) (hst : s.rstep = 5) :
    (readSample s).Progress s readPosition readLeft := by
  have hx := getLines_answered ha
  unfold readSample
  cases hs : getLines s with
  | silent => simp [hs, Exchange.Answered] at hx
  | ok u =>
    rw [hs] at hx
    exact Answered.more hx (repositioned_atStep _ _ _) (Or.inl ⟨rfl, by simp⟩) (by simp [readLeft, hop, hst])
  | err e u =>
    rw [hs] at hx
    exact Answered.more hx ⟨.read, 6, u.j, some e, rfl⟩ (Or.inl ⟨rfl, by simp⟩) (by simp [readLeft, hop, hst])

theorem readDeassert_progress {s : State} {d : Draw} {pos : State → Prop} {left : State → Nat}
    (ha : s.answer = some d) : (readDeassert s).Progress s pos left := by
  have hx := setLines_answered ha (.sr strobeOff)
  unfold readDeassert
  cases hs : setLines (.sr strobeOff) s with
  | silent => simp [hs, Exchange.Answered] at hx
  | ok u => rw [hs] at hx; cases s.perr <;> exact ⟨hx.exchanged, hx.kept⟩
  | err e u => rw [hs] at hx; cases s.perr <;> exact ⟨hx.exchanged, hx.kept⟩

/-- `RAP_Select`, for the function that calls it. -/
theorem rapSelect_progress {r : RegIdx} {s : State} {d : Draw} {pos : State → Prop} {left : State → Nat}
    {next : State → State} (ha : s.answer = some d) (hst : s.rstep = 1 ∨ s.rstep = 2)
    (hsel : s.rstep = 1 → ∀ u : State, pos (u.atStep .select 2) ∧ left (u.atStep .select 2) < left s)
    (hnext : s.rstep = 2 → ∀ u, Repositioned u (next u) ∧ pos (next u) ∧ left (next u) < left s) :
    (rapSelect r next s).Progress s pos left := by
  rcases hst with hst | hst <;> simp only [rapSelect, hst]
  · exact thenMore_progress (setLines_answered ha _) fun u _ => ⟨repositioned_atStep _ _ _, hsel hst u⟩
  · exact thenMore_progress (setLines_answered ha _) fun u _ => hnext hst u

theorem rapRead_progress {r : RegIdx} {s : State} {d : Draw} (ha : s.answer = some d) (hp : readPosition s) :
    (rapRead r s).Progress s readPosition readLeft := by
  rcases hp with ⟨hop, hst | hst | hst | hst | hst⟩ | ⟨hop, hst⟩
  · -- one data line to input
    simp only [rapRead, hop, hst]
    refine thenMore_progress (setDir_answered ha _ _) fun u hu => ?_
    unfold State.nextLine
    split
    · exact ⟨repositioned_atStep _ _ _, Or.inr ⟨rfl, Or.inl rfl⟩, by
        have := s.j.isLt
        simp [readLeft, hop, hst]; omega⟩
    · rename_i hj
      rw [hu.j] at hj
      exact ⟨repositioned_withJ _ _, Or.inl ⟨hu.rapop.trans hop, Or.inl (hu.rstep.trans hst)⟩, by
        have := j_succ hj
        simp only [readLeft, withJ_rapop, withJ_rstep, withJ_j, hu.rapop, hu.rstep, hu.j, hop, hst, if_true]; omega⟩
  · simp only [rapRead, hop, hst]
    exact readAssert_progress ha hop hst
  · simp only [rapRead, hop, hst]
    exact thenMore_progress (sleep_answered ha _ _) fun u _ =>
      ⟨repositioned_atStep _ _ _, Or.inl ⟨rfl, by simp⟩, by simp [readLeft, hop, hst]⟩
  · simp only [rapRead, hop, hst]
    exact readSample_progress ha hop hst
  · simp only [rapRead, hop, hst]
    exact readDeassert_progress ha
  · simp only [rapRead, hop]
    exact rapSelect_progress ha hst (fun hst u => ⟨Or.inr ⟨rfl, Or.inr rfl⟩, by simp [readLeft, hop, hst]⟩)
      fun hst u => ⟨repositioned_atStep _ _ _, Or.inl ⟨rfl, by simp⟩, by simp [readLeft, hop, hst]⟩

theorem rapWrite_progress {r : RegIdx} {v : Word} {s : State} {d : Draw} (ha : s.answer = some d)
    (hp : writePosition s) : (rapWrite r v s).Progress s writePosition writeLeft := by
  have hj15 := s.j.isLt
  rcases hp with ⟨hop, hst | hst | hst | hst | hst | hst⟩ | ⟨hop, hst⟩
  · -- one data line driven
    simp only [rapWrite, hop, hst]
    refine thenMore_progress (setDir_answered ha _ _) fun u hu => ?_
    unfold State.nextLine
    split
    · exact ⟨repositioned_atStep _ _ _, Or.inl ⟨rfl, by simp⟩, by simp [writeLeft, hop, hst]; omega⟩
    · rename_i hj
      rw [hu.j] at hj
      exact ⟨repositioned_withJ _ _, Or.inl ⟨hu.rapop.trans hop, Or.inl (hu.rstep.trans hst)⟩, by
        have := j_succ hj
        simp only [writeLeft, withJ_rapop, withJ_rstep, withJ_j, hu.rapop, hu.rstep, hu.j, hop, hst, if_true]; omega⟩
  · simp only [rapWrite, hop, hst]
    exact thenMore_progress (setLines_answered ha _) fun u _ =>
      ⟨repositioned_atStep _ _ _, Or.inl ⟨rfl, by simp⟩, by simp [writeLeft, hop, hst]⟩
  · simp only [rapWrite, hop, hst]
    exact thenMore_progress (sleep_answered ha _ _) fun u _ =>
      ⟨repositioned_atStep _ _ _, Or.inl ⟨rfl, by simp⟩, by simp [writeLeft, hop, hst]⟩
  · simp only [rapWrite, hop, hst]
    exact thenMore_progress (setLines_answered ha _) fun u _ =>
      ⟨repositioned_atStep _ _ _, Or.inl ⟨rfl, by simp⟩, by simp [writeLeft, hop, hst]⟩
  · simp only [rapWrite, hop, hst]
    exact thenMore_progress (sleep_answered ha _ _) fun u _ =>
      ⟨⟨.write, 4, 0, u.perr, rfl⟩, Or.inl ⟨rfl, by simp⟩, by simp [writeLeft, hop, hst]⟩
  · -- one data line back to input
    simp only [rapWrite, hop, hst, writeReturn]
    split
    · exact thenOk_progress (setDir_answered ha _ _)
    · rename_i hj
      refine thenMore_progress (setDir_answered ha _ _) fun u hu => ?_
      have := j_succ hj
      exact ⟨repositioned_withJ _ _, Or.inl ⟨hu.rapop.trans hop, by simp [hu.rstep, hst]⟩, by
        simp [writeLeft, hu.rapop, hu.rstep, hop, hst]; omega⟩
  · simp only [rapWrite, hop]
    exact rapSelect_progress ha hst (fun hst u => ⟨Or.inr ⟨rfl, Or.inr rfl⟩, by simp [writeLeft, hop, hst]⟩)
      fun hst u => ⟨⟨.write, 2, 0, u.perr, rfl⟩, Or.inl ⟨rfl, by simp⟩, by simp [writeLeft, hop, hst]⟩

/-! ## A step of a request in service -/

/-- The request owes its response, or stands at a position with less than `n` primitives left. -/
def Nearer (i : Instr) (n : Nat) (t : State) : Prop :=
  (∃ r, t.due = some r) ∨ (t.due = none ∧ workPosition i t ∧ workLeft i t < n)

/-- A step of a RAP function as the request's step: it is nearer its response if it is while the function goes on, and
once the function has returned. -/
theorem outcome_nearer {i : Instr} {n : Nat} {s : State} {pos : State → Prop} {left : State → Nat} {x : RapStep}
    {onOk : State → State} (hx : x.Progress s pos left) (hd : s.due = none) (hb : ∀ u, Between u (onOk u))
    (hmore : ∀ u, RapKept s u → pos u → left u < left s → workPosition i u ∧ workLeft i u < n)
    (hok : ∀ u, RapKept s u → Nearer i n (onOk u)) :
    ∃ t, x.outcome s onOk = .next t ∧ Exchanged s t ∧ Nearer i n t := by
  cases x with
  | silent => exact hx.elim
  | more u =>
    obtain ⟨he, hk, hp, hl⟩ := hx
    exact ⟨u, rfl, he, Or.inr ⟨hk.due.trans hd, hmore u hk hp hl⟩⟩
  | ok u =>
    obtain ⟨he, hk⟩ := hx
    exact ⟨onOk u, rfl, ⟨(hb u).answers.trans he.answers, by rw [(hb u).trace]; exact he.trace⟩, hok u hk⟩
  | err e u =>
    obtain ⟨he, hk⟩ := hx
    exact ⟨_, rfl, ⟨he.answers, he.trace⟩, Or.inl ⟨_, rfl⟩⟩
  | stray => exact hx.elim

section
variable {i : Instr} {s : State} (hi : i = .identFix ∨ i = .identPoll)
include hi

theorem workPosition_identify : workPosition i s ↔ identifyPosition s := by
  rcases hi with rfl | rfl <;> rfl

theorem workLeft_identify : workLeft i s = identifyLeft s := by
  rcases hi with rfl | rfl <;> rfl

theorem nearer_identify {n : Nat} {t : State} (hd : t.due = none) (hp : identifyPosition t) (hl : identifyLeft t < n) :
    Nearer i n t :=
  Or.inr ⟨hd, (workPosition_identify hi).mpr hp, by rwa [workLeft_identify hi]⟩

end

theorem presentLeft_eq {s u : State} (hk : RapKept s u) : presentLeft u = presentLeft s := by
  simp only [presentLeft, hk.req, hk.params]

section
variable (s : State)

@[simp] theorem readLeft_startRead : readLeft s.startRead = 22 := rfl
@[simp] theorem writeLeft_startWrite : writeLeft s.startWrite = 38 := rfl
@[simp] theorem presentLeft_startRead : presentLeft s.startRead = presentLeft s := rfl
@[simp] theorem presentLeft_startWrite : presentLeft s.startWrite = presentLeft s := rfl
@[simp] theorem presentLeft_inStage (st : Stage) : presentLeft (s.inStage st) = presentLeft s := rfl
@[simp] theorem presentLeft_withK (k : BitVec 2) : presentLeft (s.withK k) = presentLeft s := rfl

end

theorem k_succ {k : BitVec 2} (h : ¬ k = 3) : (k + 1).toNat = k.toNat + 1 ∧ k.toNat < 3 := by
  have h1 := k.isLt
  have h2 : k.toNat ≠ 3 := fun hc => h (BitVec.eq_of_toNat_eq hc)
  rw [BitVec.toNat_add]
  exact ⟨Nat.mod_eq_of_lt (by simp; omega), by omega⟩

/-- Between two poll reads: the sleep, and the reads that the bound still admits. -/
theorem identifyLeft_pollGap {s : State} (hop : s.rapop = .none) (hst : s.seq = .awaitDataReady) (hm : s.req.mode ≠ 0) :
    identifyLeft s = 23 + 23 * (s.params.pollMaxReads - s.np - 1) + 5632 := by
  simp only [identifyLeft, hst]
  rw [if_neg (by simp [hop]), if_neg hm]

theorem identifyLeft_delay {s : State} (hop : s.rapop = .none) (hst : s.seq = .awaitDataReady) (hm : s.req.mode = 0) :
    identifyLeft s = 5633 := by
  simp only [identifyLeft, hst]
  rw [if_neg (by simp [hop]), if_pos hm]

theorem identifyLeft_poll {s : State} (hop : s.rapop ≠ .none) (hst : s.seq = .awaitDataReady) :
    identifyLeft s = readLeft s + 23 * (s.params.pollMaxReads - s.np - 1) + 5632 := by
  simp only [identifyLeft, hst]
  rw [if_pos hop]

/-- While a read goes on, an IDENTIFY request has less left as the read has. -/
theorem identifyLeft_read {r : RegIdx} {s u : State} (hk : RapKept s u) (hc : stageCall s = some (.read r))
    (hp : readPosition u) (hl : readLeft u < readLeft s) : identifyLeft u < identifyLeft s := by
  unfold stageCall at hc
  unfold identifyLeft
  rw [hk.seq, presentLeft_eq hk, hk.wc, hk.np, hk.params]
  cases hst : s.seq <;> simp only [hst, reduceCtorEq, Option.some.injEq] at hc ⊢
  case checkPresence => omega
  case burstRead => omega
  case awaitDataReady =>
    have hop : s.rapop ≠ .none := fun hop => by simp [hop] at hc
    rw [if_pos (readPosition_rapop hp), if_pos hop]
    omega

theorem identifyLeft_write {r : RegIdx} {v : Word} {s u : State} (hk : RapKept s u)
    (hc : stageCall s = some (.write r v)) (hl : writeLeft u < writeLeft s) : identifyLeft u < identifyLeft s := by
  unfold stageCall at hc
  unfold identifyLeft
  rw [hk.seq, presentLeft_eq hk, hk.k]
  cases hst : s.seq <;> simp only [hst, reduceCtorEq, Option.some.injEq] at hc ⊢
  case awaitDataReady => split at hc <;> simp at hc
  all_goals omega

section
variable {i : Instr} {s u : State} (hi : i = .identFix ∨ i = .identPoll) (hd : s.due = none)
include hi hd

/-- A step of a read in service. -/
theorem identify_read_nearer {r : RegIdx} {d : Draw} {onOk : State → State} (ha : s.answer = some d)
    (hs : identifyPosition s) (hc : stageCall s = some (.read r)) (hp : readPosition s)
    (hb : ∀ u, Between u (onOk u)) (hok : ∀ u, RapKept s u → Nearer i (identifyLeft s) (onOk u)) :
    ∃ t, (rapRead r s).outcome s onOk = .next t ∧ Exchanged s t ∧ Nearer i (identifyLeft s) t :=
  outcome_nearer (rapRead_progress ha hp) hd hb
    (fun u hk hpu hl => ⟨(workPosition_identify hi).mpr (stageCall_of_read hk hs hc hpu).1, by
      rw [workLeft_identify hi]; exact identifyLeft_read hk hc hpu hl⟩) hok

/-- A step of a write in service. -/
theorem identify_write_nearer {r : RegIdx} {v : Word} {d : Draw} {onOk : State → State} (ha : s.answer = some d)
    (hs : identifyPosition s) (hc : stageCall s = some (.write r v)) (hp : writePosition s)
    (hb : ∀ u, Between u (onOk u)) (hok : ∀ u, RapKept s u → Nearer i (identifyLeft s) (onOk u)) :
    ∃ t, (rapWrite r v s).outcome s onOk = .next t ∧ Exchanged s t ∧ Nearer i (identifyLeft s) t :=
  outcome_nearer (rapWrite_progress ha hp) hd hb
    (fun u hk hpu hl => ⟨(workPosition_identify hi).mpr (stageCall_of_write hk hs hc hpu).1, by
      rw [workLeft_identify hi]; exact identifyLeft_write hk hc hl⟩) hok

/-! ### Between the RAP operations of an IDENTIFY request -/

variable (hk : RapKept s u)
include hk

theorem nearer_afterSelectDrive (hst : s.seq = .selectDrive) (hp : writePosition s) (hw : s.wc = 0) :
    Nearer i (identifyLeft s) (afterSelectDrive u) := by
  refine nearer_identify hi (hk.due.trans hd) (identifyPosition_startWrite (hk.wc.trans hw) (Or.inr (Or.inl rfl))) ?_
  have := writeLeft_pos hp
  simp [identifyLeft, afterSelectDrive, hst, presentLeft_eq hk]
  omega

theorem nearer_afterClear (hst : s.seq = .clearParams) (hp : writePosition s) (hw : s.wc = 0) :
    Nearer i (identifyLeft s) (afterClear u) := by
  have := writeLeft_pos hp
  unfold afterClear
  rw [hk.k]
  split
  · refine nearer_identify hi (hk.due.trans hd) (identifyPosition_startWrite (hk.wc.trans hw) (Or.inr (Or.inr rfl))) ?_
    simp [identifyLeft, hst, presentLeft_eq hk]
    omega
  · rename_i h3
    refine nearer_identify hi (hk.due.trans hd)
      (identifyPosition_startWrite (hk.wc.trans hw) (Or.inr (Or.inl (hk.seq.trans hst)))) ?_
    have hk1 := k_succ h3
    simp only [identifyLeft, hst, startWrite_seq, withK_seq, hk.seq, presentLeft_startWrite, presentLeft_withK,
      presentLeft_eq hk, startWrite_k, withK_k, writeLeft_startWrite, hk1.1]
    omega

theorem nearer_afterCommand (hst : s.seq = .issueCommand) (hp : writePosition s) (hw : s.wc = 0) :
    Nearer i (identifyLeft s) (afterCommand u) := by
  refine nearer_identify hi (hk.due.trans hd) (identifyPosition_startRead (Or.inl ⟨rfl, hk.wc.trans hw⟩)) ?_
  have := writeLeft_pos hp
  simp [identifyLeft, afterCommand, hst, presentLeft_eq hk]
  omega

/-- BURST_READ begins with 256 Data reads to come. -/
theorem nearer_startBurst {n : Nat} {v : State} (hdue : v.due = u.due) (hw : v.wc = 0) (hn : 5632 < n) :
    Nearer i n (startBurst v) := by
  refine nearer_identify hi (hdue.trans (hk.due.trans hd))
    (identifyPosition_startRead (Or.inr (Or.inr ⟨rfl, by simp [hw, identWords]⟩))) ?_
  simpa [identifyLeft, startBurst, hw] using hn

theorem nearer_afterPresence (hst : s.seq = .checkPresence) (hp : readPosition s) (hw : s.wc = 0)
    (hreads : 1 ≤ s.params.pollMaxReads) : Nearer i (identifyLeft s) (afterPresence u) := by
  have := readLeft_pos hp
  unfold afterPresence
  split
  · exact Or.inl ⟨_, rfl⟩
  · rw [hk.req]
    split
    · rename_i hm
      refine nearer_identify hi (hk.due.trans hd)
        (identifyPosition_startWait rfl (hk.wc.trans hw) fun hn => absurd (by simp [hk.req, hm]) hn) ?_
      simp [identifyLeft, hst, presentLeft, hk.req, hm]
      omega
    · rename_i hm
      refine nearer_identify hi (hk.due.trans hd) (identifyPosition_startRead
        (Or.inr (Or.inl ⟨rfl, hk.wc.trans hw, by simpa [hk.req] using hm, by simp [hk.params]; omega⟩))) ?_
      simp only [identifyLeft, hst, presentLeft, if_neg hm]
      simp [hk.params]
      omega

theorem nearer_afterPoll (hst : s.seq = .awaitDataReady) (hp : readPosition s) (hw : s.wc = 0) (hm : s.req.mode ≠ 0)
    (hnp : s.np < s.params.pollMaxReads) : Nearer i (identifyLeft s) (afterPoll u) := by
  have := readLeft_pos hp
  have hleft := identifyLeft_poll (readPosition_rapop hp) hst
  simp only [afterPoll]
  split
  · exact Or.inl ⟨_, rfl⟩
  · split
    · exact nearer_startBurst hi hd hk rfl (hk.wc.trans hw) (by omega)
    · split
      · exact Or.inl ⟨_, rfl⟩
      · rename_i hne
        rw [hk.np, hk.params] at hne
        refine nearer_identify hi (hk.due.trans hd) (identifyPosition_startWait (hk.seq.trans hst) (hk.wc.trans hw)
          fun _ => by simp [hk.np, hk.params]; omega) ?_
        rw [hleft, identifyLeft_pollGap (startWait_rapop _) (by simpa using hk.seq.trans hst)
          (by simpa [hk.req] using hm)]
        simp [hk.np, hk.params]
        omega

theorem nearer_afterData (hst : s.seq = .burstRead) (hp : readPosition s) (hw : s.wc.toNat < identWords) :
    Nearer i (identifyLeft s) (afterData u) := by
  have := readLeft_pos hp
  have hw1 := wc_succ hw
  simp only [afterData, hk.wc]
  split
  · exact Or.inl ⟨_, rfl⟩
  · rename_i hne
    have hlt : (s.wc + 1).toNat < identWords := Nat.lt_of_le_of_ne (by rw [hw1]; exact hw) hne
    refine nearer_identify hi (hk.due.trans hd)
      (identifyPosition_startRead (Or.inr (Or.inr ⟨hk.seq.trans hst, hlt⟩))) ?_
    rw [hw1] at hlt
    have hlt' : s.wc.toNat + 1 < 256 := hlt
    simp only [identifyLeft, hst, startRead_seq, withWc_seq, storeWord_seq, hk.seq, readLeft_startRead, startRead_wc,
      withWc_wc, hw1]
    omega

end

theorem sleep_then {s : State} {d : Draw} (ha : s.answer = some d) (lo hi : Nat) (next : State → State) :
    ((sleep lo hi s).thenMore next).outcome s id = .next (next (s.record (.sleep lo hi) .done)) := by
  rcases sleep_cases lo hi s with ⟨hn, -⟩ | ⟨a, -, hx⟩
  · simp [ha] at hn
  · rw [hx]; rfl

/-- The Sequencer's own sleep. -/
theorem awaitSleep_nearer {i : Instr} {s : State} {d : Draw} (hi : i = .identFix ∨ i = .identPoll)
    (ha : s.answer = some d) (hd : s.due = none) (hst : s.seq = .awaitDataReady) (hop : s.rapop = .none) (hw : s.wc = 0)
    (hnp : s.req.mode ≠ 0 → s.np < s.params.pollMaxReads) :
    ∃ t, awaitSleep s = .next t ∧ Exchanged s t ∧ Nearer i (identifyLeft s) t := by
  unfold awaitSleep
  split
  · rename_i hm
    refine ⟨_, sleep_then ha _ _ _, ⟨by simp, by simp⟩, ?_⟩
    exact nearer_startBurst hi hd (record_kept s _ _) rfl (by simpa using hw) (by rw [identifyLeft_delay hop hst hm]; omega)
  · rename_i hm
    refine ⟨_, sleep_then ha _ _ _, ⟨by simp, by simp⟩, nearer_identify hi (by simpa using hd)
      (identifyPosition_startRead (Or.inr (Or.inl (by simpa [hst, hw] using ⟨hm, hnp hm⟩)))) ?_⟩
    rw [identifyLeft_pollGap hop hst hm, identifyLeft_poll (by simp) (by simpa using hst)]
    simp

/-- An answered step of an IDENTIFY request: one primitive, and nearer the response. -/
theorem identifyStep_nearer {i : Instr} {s : State} {d : Draw} (hi : i = .identFix ∨ i = .identPoll)
    (ha : s.answer = some d) (hd : s.due = none) (hp : identifyPosition s) (hreads : 1 ≤ s.params.pollMaxReads) :
    ∃ t, identifyStep s = .next t ∧ Exchanged s t ∧ Nearer i (identifyLeft s) t := by
  have hpos := hp
  unfold identifyPosition at hpos
  unfold identifyStep
  cases hst : s.seq <;> simp only [hst] at hpos ⊢
  case selectDrive =>
    exact identify_write_nearer hi hd ha hp (by simp [stageCall, hst]) hpos.1 between_afterSelectDrive fun u hk =>
      nearer_afterSelectDrive hi hd hk hst hpos.1 hpos.2
  case clearParams =>
    exact identify_write_nearer hi hd ha hp (by simp [stageCall, hst]) hpos.1 between_afterClear fun u hk =>
      nearer_afterClear hi hd hk hst hpos.1 hpos.2
  case issueCommand =>
    exact identify_write_nearer hi hd ha hp (by simp [stageCall, hst]) hpos.1 between_afterCommand fun u hk =>
      nearer_afterCommand hi hd hk hst hpos.1 hpos.2
  case checkPresence =>
    exact identify_read_nearer hi hd ha hp (by simp [stageCall, hst]) hpos.1 between_afterPresence fun u hk =>
      nearer_afterPresence hi hd hk hst hpos.1 hpos.2 hreads
  case burstRead =>
    rw [if_pos hpos.2]
    exact identify_read_nearer hi hd ha hp (by simp [stageCall, hst]) hpos.1 between_afterData fun u hk =>
      nearer_afterData hi hd hk hst hpos.1 hpos.2
  case awaitDataReady =>
    obtain ⟨hw, hpos⟩ := hpos
    by_cases hop : s.rapop = .none
    · rw [if_pos hop]
      exact awaitSleep_nearer hi ha hd hst hop hw fun hm => by rw [if_neg hm] at hpos; exact hpos.2
    · rw [if_neg hop]
      split at hpos
      · exact absurd hpos.1 hop
      · rename_i hm
        rw [if_neg hm]
        have hread := hpos.1.resolve_left fun hwait => hop hwait.1
        exact identify_read_nearer hi hd ha hp (by simp [stageCall, hst, hop]) hread between_afterPoll fun u hk =>
          nearer_afterPoll hi hd hk hst hread hw hm hpos.2

/-- An answered step of a request in service: one primitive, and nearer the response. -/
theorem work_nearer {i : Instr} {s : State} {d : Draw} (ha : s.answer = some d) (hd : s.due = none)
    (hp : workPosition i s) (hreads : 1 ≤ s.params.pollMaxReads) :
    ∃ t, workOf i s = .next t ∧ Exchanged s t ∧ Nearer i (workLeft i s) t := by
  cases i with
  | rdreg reg =>
    exact outcome_nearer (rapRead_progress ha hp) hd (fun u => between_owe u _) (fun u _ hpu hl => ⟨hpu, hl⟩)
      fun u _ => Or.inl ⟨_, rfl⟩
  | wrreg reg value =>
    exact outcome_nearer (rapWrite_progress ha hp) hd (fun u => between_owe u _) (fun u _ hpu hl => ⟨hpu, hl⟩)
      fun u _ => Or.inl ⟨_, rfl⟩
  | identFix => exact identifyStep_nearer (Or.inl rfl) ha hd hp hreads
  | identPoll => exact identifyStep_nearer (Or.inr rfl) ha hd hp hreads

/-! ## The whole request -/

theorem Serving.of_work {i : Instr} {s t : State} (hs : Serving i s) (hw : workOf i s = .next t) (hd : t.due = none) :
    Serving i t :=
  have hf := work_frame hw
  ⟨hf.refused.trans hs.1, hf.es.trans hs.2.1, hf.req.trans hs.2.2.1, hd⟩

/-- A request in service ends after at most as many primitives as it has left, and one step more for its response. -/
theorem service_ends {i : Instr} (m : Nat) {s : State} {ds : List Draw} {rest : List (Option Draw)}
    (hs : Serving i s) (hp : workPosition i s) (hreads : 1 ≤ s.params.pollMaxReads) (hl : workLeft i s ≤ m)
    (ha : s.answers = ds.map some ++ rest) (hm : m ≤ ds.length) :
    ∃ p t, p ≤ m ∧ execTimes i (p + 1) s = .next t ∧ t.es = .idle ∧ t.rspValid = true ∧
      t.traceMark = s.traceMark ∧ t.trace.length = s.trace.length + p := by
  induction m generalizing s ds with
  | zero => exact absurd (workLeft_pos hp) (by omega)
  | succ m ih =>
    obtain _ | ⟨d, ds⟩ := ds
    · simp at hm
    have ha' : s.answers = some d :: (ds.map some ++ rest) := ha
    obtain ⟨u, hw, he, hn⟩ := work_nearer (answer_cons ha') hs.2.2.2 hp hreads
    have hf := work_frame hw
    have hx : exec i s = .next u := (exec_serving hs).trans hw
    rcases hn with ⟨r, hr⟩ | ⟨hd, hpu, hlu⟩
    · have hy : exec i u = .next (u.respond r) :=
        exec_due (hf.refused.trans hs.1) (hf.es.trans hs.2.1) (hf.req.trans hs.2.2.1) hr
      exact ⟨1, u.respond r, by omega, by simp [execTimes, hx, hy], rfl, rfl, hf.traceMark, he.trace⟩
    · obtain ⟨p, t, hpm, ht, hes, hv, hmark, htr⟩ := ih (hs.of_work hw hd) hpu (by rwa [hf.params]) (by omega)
        (by rw [he.answers, (consume_cons ha').1]) (by simpa using hm)
      exact ⟨p + 1, t, by omega, by rw [execTimes_succ hx]; exact ht, hes, hv, hmark.trans hf.traceMark, by
        rw [htr, he.trace]; omega⟩

/-- An accepted request stands at its first primitive, with its whole bound left (41_register_access.md R141,
42_identify.md R168). -/
theorem begin_left (i : Instr) (s : State) :
    workPosition i (beginOf i (s.accept (reqOf i))) ∧
      workLeft i (beginOf i (s.accept (reqOf i))) = primitiveBound s.params i := by
  cases i with
  | rdreg reg => exact ⟨Or.inl ⟨rfl, Or.inl rfl⟩, rfl⟩
  | wrreg reg value => exact ⟨Or.inr ⟨rfl, Or.inl rfl⟩, rfl⟩
  | identFix => exact ⟨⟨Or.inr ⟨rfl, Or.inl rfl⟩, rfl⟩, rfl⟩
  | identPoll =>
    refine ⟨⟨Or.inr ⟨rfl, Or.inl rfl⟩, rfl⟩, ?_⟩
    show 38 + 212 + (5654 + 23 * (s.params.pollMaxReads - 1)) = 5904 + 23 * (s.params.pollMaxReads - 1)
    omega

/-- Settles O60: the acceptance, then `service_ends` from the request's first primitive. -/
theorem everyRequestEnds : Obligations.EveryRequestEnds := by
  intro i s ds rest hc hreads ha hbound
  let u := beginOf i (s.accept (reqOf i))
  obtain ⟨hp, hl⟩ := begin_left i s
  have hx : exec i s = .next u := exec_accept hc
  have hu : Serving i u ∧ u.params = s.params ∧ u.answers = s.answers ∧ u.trace = s.trace ∧
      u.traceMark = s.trace.length := by
    have hr := hc.2.2
    cases i <;> exact ⟨⟨hr, rfl, rfl, rfl⟩, rfl, rfl, rfl, rfl⟩
  obtain ⟨hs, hpar, hans, htr, hmark⟩ := hu
  obtain ⟨p, t, hp, ht, hes, hv, htm, hlen⟩ :=
    service_ends (primitiveBound s.params i) hs hp (by rwa [hpar]) (le_of_eq hl) (hans.trans ha) hbound
  refine ⟨p + 2, t, by omega, by rw [execTimes_succ hx]; exact ht, hes, hv, ?_⟩
  rw [State.requestTrace, List.length_drop, htm, hmark, hlen, htr]
  omega

end Sys2Proof.Machine
end

section
/-! PROOFS. The Identify Buffer: what a successful Data read stores, and what the host reads of it
(20_memory.md R67, R68, 42_identify.md R162, R163, 60_exceptions.md R208). -/

namespace Sys2Proof.Machine

/-! ## The end of a Data read -/

/-- The converse of `rapRead_ok_inv`: at its last primitive, answered `OK`, `RAP_Read` returns the word that it has
sampled (41_register_access.md R125). -/
theorem rapRead_ok_of_readEnds (r : RegIdx) {s : State} {w : Word} (h : readEnds s) (ha : s.answer = some ⟨none, w⟩) :
    ∃ u, rapRead r s = .ok u ∧ RapKept s u ∧ u.sample = s.sample := by
  obtain ⟨hop, hst, hperr⟩ := h
  have hx : rapRead r s =
      .ok ((s.record (.setLines (.sr strobeOff)) .ok).withLines (Lines.drive s.lines (.sr strobeOff))) := by
    simp [rapRead, hop, hst, readDeassert, setLines, ha, hperr]
  exact ⟨_, hx, (rapRead_frame (Or.inr (Or.inl hx))).1.kept, by simp⟩

section
variable (u : State)

@[simp] theorem afterData_wc : (afterData u).wc = u.wc + 1 := by
  simp only [afterData]
  split <;> rfl

@[simp] theorem afterData_idbuf : (afterData u).idbuf = (u.storeWord u.sample).idbuf := by
  simp only [afterData]
  split <;> rfl

end

/-- Word 255 is the last one: OK is owed with `E.STW` (42_identify.md R163). -/
theorem afterData_due_of_last {u : State} (h : (u.wc + 1).toNat = identWords) :
    (afterData u).due = some (reply .ok u.stw) := by
  simp only [afterData, if_pos h, owe_due]

/-- Before word 255 the next Data read begins (42_identify.md R162). -/
theorem afterData_of_not_last {u : State} (h : (u.wc + 1).toNat ≠ identWords) :
    afterData u = ((u.storeWord u.sample).withWc (u.wc + 1)).startRead := by
  simp only [afterData, if_neg h]

/-- A Data read that succeeds goes on to `afterData` with the registers it began with and the word it sampled. -/
theorem exec_dataRead_ok {i : Instr} {s : State} {w : Word} (hi : i = .identFix ∨ i = .identPoll) (hs : Serving i s)
    (hseq : s.seq = .burstRead) (hends : readEnds s) (hwc : s.wc.toNat < identWords)
    (ha : s.answer = some ⟨none, w⟩) :
    ∃ u, exec i s = .next (afterData u) ∧ RapKept s u ∧ u.sample = s.sample := by
  obtain ⟨u, hx, hk, hsample⟩ := rapRead_ok_of_readEnds regData hends ha
  have hstep : identifyStep s = .next (afterData u) := by simp [identifyStep, hseq, hwc, hx, RapStep.outcome]
  refine ⟨u, ?_, hk, hsample⟩
  rw [exec_serving hs]
  rcases hi with rfl | rfl <;> exact hstep

/-! ## The statements -/

/-- Settles O45: the read returns by `exec_dataRead_ok`; the bytes are those of `get_storeWord`, and the count says
whether the word was the last one. -/
theorem dataWordIsStoredHighByteFirst : Obligations.DataWordIsStoredHighByteFirst := by
  intro i s w hi hs hseq hop hst hperr hwc ha
  obtain ⟨u, hx, hk, hsample⟩ := exec_dataRead_ok hi hs hseq ⟨hop, hst, hperr⟩ hwc ha
  have hcount : (u.wc + 1).toNat = s.wc.toNat + 1 := by rw [hk.wc]; exact wc_succ hwc
  have hoff : wordOffset u = 2 * s.wc.toNat := by rw [wordOffset, hk.wc]
  refine ⟨afterData u, hx, by rw [afterData_wc, hcount], ?_, ?_, fun k hhigh hlow => ?_, ?_⟩
  · rw [afterData_idbuf, get_storeWord, hoff, hsample, if_neg (by omega), if_pos rfl, highByte]
  · rw [afterData_idbuf, get_storeWord, hoff, hsample, if_pos rfl, lowByte]
  · rw [afterData_idbuf, get_storeWord, hoff, if_neg hlow, if_neg hhigh, hk.idbuf]
  · split
    · rename_i hlast
      rw [afterData_due_of_last (by rw [hcount, hlast]; rfl), hk.stw]
      rfl
    · rename_i hmore
      have hne : (u.wc + 1).toNat ≠ identWords := by
        rw [hcount, show identWords = 256 from rfl]
        omega
      obtain ⟨-, -, -, hd⟩ := hs
      rw [afterData_of_not_last hne]
      exact ⟨hk.due.trans hd, hk.seq.trans hseq, rfl, rfl⟩

/-- Settles O57: outside BUSY the host's read is the byte listed at the offset; the response is as R208 has it. -/
theorem hostReadsWhatWasWritten : Obligations.HostReadsWhatWasWritten := by
  intro s hes
  refine ⟨fun read k b hb => ?_, rfl⟩
  rw [State.hostReadByte, if_neg hes, hb]
  rfl

end Sys2Proof.Machine
end

section
/-! PROOFS. The encodings: the fields of a request word and the word of its fields, the decoder as the inverse of the
encoder, which words are illegal and how the engine answers one, the words that the assembler makes, and the layout of a
response (30_encoding.md R85 to R98). -/

namespace Sys2Proof.Machine

/-! ## A word and its fields (R85) -/

/-- Concatenation as arithmetic: the upper part is shifted past the lower one. -/
theorem toNat_append_eq_add {m n : Nat} (x : BitVec m) (y : BitVec n) : (x ++ y).toNat = x.toNat * 2 ^ n + y.toNat := by
  rw [BitVec.toNat_append, ← Nat.shiftLeft_add_eq_or_of_lt y.isLt, Nat.shiftLeft_eq]

theorem toNat_extractLsb'_eq_div_mod {m : Nat} (w : BitVec m) (k n : Nat) :
    (w.extractLsb' k n).toNat = w.toNat / 2 ^ k % 2 ^ n := by
  rw [BitVec.extractLsb'_toNat, Nat.shiftRight_eq_div_pow]

theorem toNat_word (f : ReqFields) :
    f.word.toNat =
      2 ^ 16 * f.value.toNat + 2 ^ 6 * f.rsv.toNat + 2 ^ 5 * f.mode.toNat + 2 ^ 2 * f.reg.toNat + f.op.toNat := by
  simp only [ReqFields.word, toNat_append_eq_add]
  omega

@[simp] theorem word_fieldsOf (w : Word32) : (fieldsOf w).word = w := by
  apply BitVec.eq_of_toNat_eq
  have := w.isLt
  simp only [toNat_word, fieldsOf, toNat_extractLsb'_eq_div_mod]
  omega

@[simp] theorem fieldsOf_word (f : ReqFields) : fieldsOf f.word = f := by
  obtain ⟨op, reg, mode, rsv, value⟩ := f
  have := op.isLt
  have := reg.isLt
  have := mode.isLt
  have := rsv.isLt
  have := value.isLt
  simp only [fieldsOf, ReqFields.mk.injEq, BitVec.toNat_eq, toNat_extractLsb'_eq_div_mod, toNat_word]
  omega

theorem fieldsOf_eq_iff {w : Word32} {f : ReqFields} : fieldsOf w = f ↔ f.word = w :=
  ⟨fun h => by rw [← h, word_fieldsOf], fun h => by rw [← h, fieldsOf_word]⟩

/-! ## The decoder and the encoder (R86 to R91, R97) -/

theorem decodeFields_fields (i : Instr) : decodeFields i.fields = some i := by
  cases i <;> simp [decodeFields, Instr.fields]

/-- The tests that lead to a request fix every field that its form does not leave to an operand (R91). -/
theorem fields_of_decodeFields {f : ReqFields} {i : Instr} (h : decodeFields f = some i) : i.fields = f := by
  obtain ⟨op, reg, mode, rsv, value⟩ := f
  simp only [decodeFields] at h
  split_ifs at h with hrsv hread hwrite hident hmode <;> cases h
  · simp_all [Instr.fields]
  · simp_all [Instr.fields]
  · simp_all [Instr.fields]
  · have hpoll : mode = 1 := (BitVec.eq_zero_or_eq_one mode).resolve_left hmode
    simp_all [Instr.fields]

theorem decodeFields_eq_some_iff {f : ReqFields} {i : Instr} : decodeFields f = some i ↔ i.fields = f :=
  ⟨fields_of_decodeFields, fun h => by rw [← h, decodeFields_fields]⟩

/-- The decoder and the encoder are inverse to each other. -/
theorem decode_eq_some_iff {w : Word32} {i : Instr} : decode w = some i ↔ encode i = w := by
  rw [decode, decodeFields_eq_some_iff, encode, eq_comm, fieldsOf_eq_iff]

/-! ## Legal fields and illegal words (R90) -/

theorem wellFormed_eq_true (i : Instr) : i.wellFormed = true := by
  cases i <;> simp [Instr.wellFormed, Instr.fields, ReqFields.wellFormed]

/-- Legal fields are those of a request: one form for each legal operation, and two for IDENTIFY. -/
theorem exists_fields_of_wellFormed {f : ReqFields} (h : f.wellFormed = true) : ∃ i : Instr, i.fields = f := by
  obtain ⟨op, reg, mode, rsv, value⟩ := f
  have hmode : mode = 0 ∨ mode = 1 := BitVec.eq_zero_or_eq_one mode
  have hops : ∀ b : BitVec 2, b = 0b00 ∨ b = 0b01 ∨ b = 0b10 ∨ b = 0b11 := by decide
  rcases hops op with rfl | rfl | rfl | rfl
  · exact ⟨.rdreg reg, by rcases hmode with rfl | rfl <;> simp_all [ReqFields.wellFormed, Instr.fields]⟩
  · exact ⟨.wrreg reg value, by rcases hmode with rfl | rfl <;> simp_all [ReqFields.wellFormed, Instr.fields]⟩
  · rcases hmode with rfl | rfl
    · exact ⟨.identFix, by simp_all [ReqFields.wellFormed, Instr.fields]⟩
    · exact ⟨.identPoll, by simp_all [ReqFields.wellFormed, Instr.fields]⟩
  · simp [ReqFields.wellFormed] at h

theorem wellFormed_iff_exists_fields {f : ReqFields} : f.wellFormed = true ↔ ∃ i : Instr, i.fields = f :=
  ⟨exists_fields_of_wellFormed, by rintro ⟨i, rfl⟩; exact wellFormed_eq_true i⟩

/-- The five conditions are those that the fields of a word are checked for. -/
theorem illegalWord_iff {w : Word32} : illegalWord w ↔ ¬ (fieldsOf w).wellFormed = true := by
  simp [illegalWord, ReqFields.wellFormed, fieldsOf, imp_iff_not_or, or_assoc]

theorem decode_eq_none_iff {w : Word32} : decode w = none ↔ illegalWord w := by
  rw [illegalWord_iff, wellFormed_iff_exists_fields, Option.eq_none_iff_forall_ne_some, not_exists]
  simp only [decode, ne_eq, decodeFields_eq_some_iff]

/-! ## The answer to an illegal word (R90, 60_exceptions.md R193, R201) -/

/-- An engine that can accept takes an illegal word and owes the answer to it (log 14). -/
theorem step_of_illegalWord {s : State} {w : Word32} {rest : List Move} (hc : CanAccept s)
    (hi : s.inbox = .submit w :: rest) (hw : illegalWord w) : step s = .next (s.withInbox rest).acceptIllegal := by
  obtain ⟨hes, hbi, hr⟩ := hc
  simp [step, engineStep, hr, hes, idleStep, hi, submitWord, hbi, decode_eq_none_iff.mpr hw]

/-- A BUSY engine delivers the response that it owes. -/
theorem step_of_due {s : State} {r : Response} (hr : s.refused = false) (hes : s.es = .busy) (hd : s.due = some r) :
    step s = .next (s.respond r) := by
  simp [step, engineStep, hr, hes, busyStep, hd]

/-- Between two requests the position is NONE and no response is owed, so the answer changes the response only. -/
theorem respond_acceptIllegal {s : State} (r : Response) (hes : s.es = .idle) (hseq : s.seq = .none)
    (hop : s.rapop = .none) (hst : s.rstep = 0) (hd : s.due = none) :
    s.acceptIllegal.respond r = { s with rsp := r, rspValid := true, traceMark := s.trace.length } := by
  cases s
  simp_all [State.acceptIllegal, State.respond]

/-- The step that accepts an illegal word and the step that answers it. -/
theorem stepTimes_two_of_illegalWord {s : State} {w : Word32} {rest : List Move} (hc : CanAccept s)
    (hi : s.inbox = .submit w :: rest) (hw : illegalWord w) :
    stepTimes 2 s = .next ((s.withInbox rest).acceptIllegal.respond (reply .illegalRequest 0x0000)) := by
  have haccept := step_of_illegalWord hc hi hw
  obtain ⟨-, -, hr⟩ := hc
  have hrespond := step_of_due (s := (s.withInbox rest).acceptIllegal) hr rfl rfl
  simp only [stepTimes, haccept, hrespond]

/-! ## The words of the assembler (R95 to R98) -/

theorem encode_rdreg (reg : RegIdx) : encode (.rdreg reg) = BitVec.ofNat 32 (4 * reg.toNat) := by
  apply BitVec.eq_of_toNat_eq
  have := reg.isLt
  simp only [encode, toNat_word, Instr.fields, BitVec.ofNat_eq_ofNat, BitVec.toNat_ofNat]
  omega

theorem encode_wrreg (reg : RegIdx) (value : Word) :
    encode (.wrreg reg value) = BitVec.ofNat 32 (65536 * value.toNat + 4 * reg.toNat + 1) := by
  apply BitVec.eq_of_toNat_eq
  have := reg.isLt
  have := value.isLt
  simp only [encode, toNat_word, Instr.fields, BitVec.ofNat_eq_ofNat, BitVec.toNat_ofNat]
  omega

theorem assemble_rdreg_number (n : Nat) :
    assemble (.rdreg (.number n)) = if n ≤ 7 then some [BitVec.ofNat 32 (4 * n)] else none := by
  by_cases hn : n ≤ 7
  · have hindex : n % 8 = n := Nat.mod_eq_of_lt (by omega)
    simp [assemble, AsmLine.wellFormed, AsmReg.wellFormed, AsmLine.requests, AsmReg.index, encode_rdreg, hn, hindex]
  · simp [assemble, AsmLine.wellFormed, AsmReg.wellFormed, hn]

theorem assemble_wrreg_number (n v : Nat) :
    assemble (.wrreg (.number n) v) =
      if n ≤ 7 ∧ v ≤ 0xFFFF then some [BitVec.ofNat 32 (65536 * v + 4 * n + 1)] else none := by
  by_cases h : n ≤ 7 ∧ v ≤ 0xFFFF
  · obtain ⟨hn, hv⟩ := h
    have hindex : n % 8 = n := Nat.mod_eq_of_lt (by omega)
    have hvalue : v % 65536 = v := Nat.mod_eq_of_lt (by omega)
    simp [assemble, AsmLine.wellFormed, AsmReg.wellFormed, AsmLine.requests, AsmReg.index, encode_wrreg, hn, hv, hindex,
      hvalue]
  · simp [assemble, AsmLine.wellFormed, AsmReg.wellFormed, h]

/-- A register request depends on its operand only by the index and by whether it is in range. -/
theorem assemble_reg_congr {a b : AsmReg} (hw : a.wellFormed = b.wellFormed) (hi : a.index = b.index) :
    assemble (.rdreg a) = assemble (.rdreg b) ∧ ∀ v, assemble (.wrreg a v) = assemble (.wrreg b v) := by
  simp [assemble, AsmLine.wellFormed, AsmLine.requests, hw, hi]

/-! ## The word of a response (R92) -/

theorem value_word (r : Response) : r.word.extractLsb' 16 16 = r.value :=
  (BitVec.extractLsb'_append_eq_of_le (by decide)).trans BitVec.extractLsb'_append_eq_left

theorem reserved_word (r : Response) : r.word.extractLsb' 4 12 = 0 :=
  (BitVec.extractLsb'_append_eq_of_le (by decide)).trans BitVec.extractLsb'_append_eq_right

theorem code_word (r : Response) : r.word.extractLsb' 0 4 = r.code :=
  BitVec.extractLsb'_append_eq_right

/-! ## The statements -/

/-- Settles O1: every request has legal fields, and `decode_eq_some_iff` reads its word back. -/
theorem decodeOfEncode : Obligations.DecodeOfEncode :=
  fun i => ⟨wellFormed_eq_true i, decode_eq_some_iff.mpr rfl⟩

/-- Settles O2, by the other direction of `decode_eq_some_iff`. -/
theorem encodeOfDecode : Obligations.EncodeOfDecode :=
  fun _ _ h => decode_eq_some_iff.mp h

/-- Settles O4: `decode_eq_none_iff` tells the illegal words from the legal ones, and the two steps are
`acceptIllegal` and `respond`. -/
theorem illegalWordIsAnswered : Obligations.IllegalWordIsAnswered := by
  refine ⟨fun w => ⟨decode_eq_none_iff.mpr, fun hw => ?_⟩, fun s w rest hc hi hw hseq hop hst hd => ?_⟩
  · obtain ⟨i, hi⟩ := Option.ne_none_iff_exists'.mp (mt decode_eq_none_iff.mp hw)
    exact ⟨i, hi, decode_eq_some_iff.mp hi⟩
  · have hframe := respond_acceptIllegal (s := s.withInbox rest) (reply .illegalRequest 0x0000) hc.1 hseq hop hst hd
    exact ⟨_, stepTimes_two_of_illegalWord hc hi hw, rfl, hframe⟩

/-- Settles O7: the numbered registers by the two arithmetic lemmas, and a register name because it has the range and
the index of its number. -/
theorem assembledWords : Obligations.AssembledWords := by
  refine ⟨assemble_rdreg_number, assemble_wrreg_number, by decide, by decide, fun p hp => ?_, rfl, by decide⟩
  have hname : (AsmReg.name p.1).wellFormed = (AsmReg.number p.2).wellFormed ∧
      (AsmReg.name p.1).index = (AsmReg.number p.2).index := by
    revert p
    decide
  exact assemble_reg_congr hname.1 hname.2

/-- Settles O3: the decoder runs on each of the words. -/
theorem sampleWordsDecode : Obligations.SampleWordsDecode := by
  unfold Obligations.SampleWordsDecode
  decide

/-- Settles O6: the fields of the word are those of the response, and a valid response has the form of R93. -/
theorem responseWordLayout : Obligations.ResponseWordLayout := by
  intro s hok hv
  obtain ⟨-, herrv, -⟩ := hok.1 hv
  exact ⟨value_word _, reserved_word _, code_word _, by rw [code_word]; exact herrv⟩

end Sys2Proof.Machine
end

section
/-! PROOFS. The adapter primitives, each with the answer it is given: what it records, the lines it moves, and `E.BI`
(40_bus_primitives.md R101 to R109). -/

namespace Sys2Proof.Machine

/-! ## A primitive with its answer -/

section
variable {s : State} {w : Word} {e : AdapterError}

theorem setLines_of_ok (g : GroupWrite) (ha : s.answer = some ⟨none, w⟩) :
    setLines g s = .ok ((s.record (.setLines g) .ok).withLines (Lines.drive s.lines g)) := by
  simp [setLines, ha]

theorem setLines_of_err (g : GroupWrite) (ha : s.answer = some ⟨some e, w⟩) :
    setLines g s = .err e ((s.record (.setLines g) (.err e)).markIndeterminate.withLines (Lines.blur s.lines g)) := by
  simp [setLines, ha]

theorem getLines_of_ok (ha : s.answer = some ⟨none, w⟩) :
    getLines s = .ok ((s.record .getLines (.okv w)).withSample w) := by
  simp [getLines, ha]

theorem getLines_of_err (ha : s.answer = some ⟨some e, w⟩) :
    getLines s = .err e (s.record .getLines (.err e)).markIndeterminate := by
  simp [getLines, ha]

theorem setDir_of_ok (i : BitVec 4) (c : DirCmd) (ha : s.answer = some ⟨none, w⟩) :
    setDir i c s = .ok ((s.record (.setDir i c) .ok).withLines (Lines.setD s.lines i c.state)) := by
  simp [setDir, ha]

theorem setDir_of_err (i : BitVec 4) (c : DirCmd) (ha : s.answer = some ⟨some e, w⟩) :
    setDir i c s =
      .err e ((s.record (.setDir i c) (.err e)).markIndeterminate.withLines (Lines.setD s.lines i .u)) := by
  simp [setDir, ha]

theorem sleep_of_answer {a : Draw} (lo hi : Nat) (ha : s.answer = some a) :
    sleep lo hi s = .ok (s.record (.sleep lo hi) .done) := by
  simp [sleep, ha]

end

/-! ## The whole state after a primitive -/

section
variable (s : State) (ev : Event) (a : Answer)

/-- An exchange changes the trace and uses up an answer, and nothing else (00_scope.md R14). -/
theorem record_eq :
    s.record ev a = { s with
      trace := s.trace ++ [⟨ev, a⟩], answers := (s.record ev a).answers, draws := (s.record ev a).draws } := by
  unfold State.record State.consume
  split <;> rfl

theorem withLines_record_eq (l : Lines) :
    (s.record ev a).withLines l = { s with
      trace := s.trace ++ [⟨ev, a⟩], lines := l, answers := (s.record ev a).answers
      draws := (s.record ev a).draws } :=
  congrArg (·.withLines l) (record_eq s ev a)

theorem withLines_markIndeterminate_record_eq (l : Lines) :
    (s.record ev a).markIndeterminate.withLines l = { s with
      bi := true, trace := s.trace ++ [⟨ev, a⟩], lines := l, answers := (s.record ev a).answers
      draws := (s.record ev a).draws } :=
  congrArg (fun t => t.markIndeterminate.withLines l) (record_eq s ev a)

end

/-! ## The statements -/

/-- Settles O23: the lines are those of `Lines.drive` and `Lines.blur`, group by group. -/
theorem setLinesDrivesItsGroup : Obligations.SetLinesDrivesItsGroup := by
  refine fun s g w => ⟨fun ha => ⟨_, setLines_of_ok g ha, ?_⟩, fun e ha => ⟨_, setLines_of_err g ha, ?_⟩⟩
  · exact (withLines_record_eq ..).trans (by cases g <;> rfl)
  · exact (withLines_markIndeterminate_record_eq ..).trans (by cases g <;> rfl)

/-- Settles O25: `setD_get` says which line moves, and the other groups are not in `Lines.setD`. -/
theorem setDirMovesOneLine : Obligations.SetDirMovesOneLine := by
  refine fun s i c w => ⟨fun ha => ⟨_, setDir_of_ok i c ha, by simp, by simp, fun k => ?_, rfl⟩,
    fun e ha => ⟨_, setDir_of_err i c ha, by simp, by simp, fun k => setD_get .., rfl⟩⟩
  refine (setD_get ..).trans ?_
  rcases c with _ | (_ | _) <;> rfl

/-- Settles O26: a sleep is an exchange and no more. -/
theorem sleepOnlyTakesTime : Obligations.SleepOnlyTakesTime :=
  fun s _ lo hi ha => ⟨_, sleep_of_answer lo hi ha, record_eq s (.sleep lo hi) .done⟩

end Sys2Proof.Machine
end

section
/-! PROOFS. The primitive that each step of a RAP operation performs, and the data lines that it leaves, whether or not
the primitive fails (40_bus_primitives.md R105, R107, 41_register_access.md R125 to R134, R140). -/

namespace Sys2Proof.Machine

/-! ## A step of a request as a step of its RAP call -/

/-- The step of request `i` is that of the call `c`: at a position of its RAP function, whose `Ok` goes back to the
request without a further primitive; or, with no call, the Sequencer's own wait. -/
def StepsCall (i : Instr) (s : State) : Option RapCall → Prop
  | some (.read r) => readPosition s ∧
      ∃ onOk, (∀ u, Between u (onOk u)) ∧ exec i s = (rapRead r s).outcome s onOk
  | some (.write r v) => writePosition s ∧
      ∃ onOk, (∀ u, Between u (onOk u)) ∧ exec i s = (rapWrite r v s).outcome s onOk
  | none => exec i s = awaitSleep s

/-- The stages of IDENTIFY (42_identify.md R151 to R162). -/
theorem stepsCall_identify {i : Instr} {s : State} (hx : exec i s = identifyStep s) (hp : identifyPosition s) :
    StepsCall i s (stageCall s) := by
  unfold identifyStep at hx
  unfold identifyPosition at hp
  unfold stageCall
  cases hst : s.seq <;> simp only [hst] at hx hp ⊢
  case selectDrive => exact ⟨hp.1, _, between_afterSelectDrive, hx⟩
  case clearParams => exact ⟨hp.1, _, between_afterClear, hx⟩
  case issueCommand => exact ⟨hp.1, _, between_afterCommand, hx⟩
  case checkPresence => exact ⟨hp.1, _, between_afterPresence, hx⟩
  case burstRead => exact ⟨hp.1, _, between_afterData, hx.trans (if_pos hp.2)⟩
  case awaitDataReady =>
    by_cases hop : s.rapop = .none
    · simpa [hop, StepsCall] using hx
    · have hm : ¬ s.req.mode = 0 := fun hm => by simp [hm, waitPosition, hop] at hp
      simp only [if_neg hop, if_neg hm] at hx hp ⊢
      exact ⟨hp.2.1.resolve_left fun hw => hop hw.1, _, between_afterPoll, hx⟩

/-- A step of a request in service is a step of the call in progress. -/
theorem Inv.stepsCall {i : Instr} {s : State} (h : Inv s) (hs : Serving i s) : StepsCall i s (currentCall s) := by
  have hx := exec_serving hs
  obtain ⟨-, hes, hq, hd⟩ := hs
  have hpos := h.service hes hd
  cases i with
  | rdreg reg =>
    rw [currentCall_rdreg hq]
    exact ⟨((servicePosition_rdreg hq).mp hpos).1, _, fun u => between_owe u _, hx⟩
  | wrreg reg value =>
    rw [currentCall_wrreg hq]
    exact ⟨((servicePosition_wrreg hq).mp hpos).1, _, fun u => between_owe u _, hx⟩
  | identFix =>
    rw [currentCall_identify (Or.inl rfl) hq]
    exact stepsCall_identify hx ((servicePosition_identify (Or.inl rfl) hq).mp hpos)
  | identPoll =>
    rw [currentCall_identify (Or.inr rfl) hq]
    exact stepsCall_identify hx ((servicePosition_identify (Or.inr rfl) hq).mp hpos)

/-- The engine's step that a RAP step comes to is the state that the RAP step yields, but for what the Sequencer does
before the next primitive. -/
theorem yields_of_outcome {x : RapStep} {s t : State} {onOk : State → State} (hk : ∀ u, Between u (onOk u))
    (h : x.outcome s onOk = .next t) : t = s ∨ ∃ u, x.Yields u ∧ Between u t := by
  rcases outcome_cases h with ⟨-, rfl⟩ | ⟨u, hx, rfl⟩ | ⟨u, hx, rfl⟩ | ⟨e, u, hx, rfl⟩
  · exact Or.inl rfl
  · exact Or.inr ⟨_, Or.inl hx, Between.refl _⟩
  · exact Or.inr ⟨u, Or.inr (Or.inl hx), hk u⟩
  · exact Or.inr ⟨u, Or.inr (Or.inr ⟨e, hx⟩), between_owe u _⟩

/-! ## The primitive of each step -/

/-- The primitive of a step of SELECT (41_register_access.md R121). -/
def selectEvent (r : RegIdx) (s : State) : Option Event :=
  match s.rstep with
  | 1 => some (.setLines (.cs csValue))
  | 2 => some (.setLines (.ad r))
  | _ => none

/-- The primitive of a step of `RAP_Read(r)` (41_register_access.md R125). -/
def readEvent (r : RegIdx) (s : State) : Option Event :=
  match s.rapop with
  | .read =>
    match s.rstep with
    | 1 => some (.setDir s.j .input)
    | 3 => some (.setLines (.sr strobeOn))
    | 4 => some (.sleep strobeMinUs strobeMaxUs)
    | 5 => some .getLines
    | 6 => some (.setLines (.sr strobeOff))
    | _ => none
  | .select => selectEvent r s
  | .write => none
  | .none => none

/-- The primitive of a step of `RAP_Write(r, v)` (41_register_access.md R130). -/
def writeEvent (r : RegIdx) (v : Word) (s : State) : Option Event :=
  match s.rapop with
  | .select => selectEvent r s
  | .write =>
    match s.rstep with
    | 2 => some (.setDir s.j (driveBit v s.j))
    | 31 => some (.setLines (.sw strobeOn))
    | 32 => some (.sleep strobeMinUs strobeMaxUs)
    | 33 => some (.setLines (.sw strobeOff))
    | 34 => some (.sleep strobeMinUs strobeMaxUs)
    | 4 => some (.setDir s.j .input)
    | _ => none
  | .read => none
  | .none => none

/-- Every state that the exchange comes to has this primitive on record. -/
def Exchange.Performs (s : State) (ev : Event) : Exchange → Prop
  | .silent => True
  | .ok u => ∃ a, u.trace = s.trace ++ [⟨ev, a⟩]
  | .err _ u => ∃ a, u.trace = s.trace ++ [⟨ev, a⟩]

/-- Every state that the RAP step yields has this primitive on record. -/
def RapStep.Performs (s : State) (o : Option Event) (x : RapStep) : Prop :=
  ∀ u, x.Yields u → ∃ ev a, o = some ev ∧ u.trace = s.trace ++ [⟨ev, a⟩]

section
variable (s : State)

theorem setLines_performs (g : GroupWrite) : (setLines g s).Performs s (.setLines g) := by
  rcases setLines_cases g s with ⟨-, h⟩ | ⟨w, -, h⟩ | ⟨e, w, -, h⟩ <;> simp [h, Exchange.Performs]

theorem getLines_performs : (getLines s).Performs s .getLines := by
  rcases getLines_cases s with ⟨-, h⟩ | ⟨w, -, h⟩ | ⟨e, w, -, h⟩ <;> simp [h, Exchange.Performs]

theorem setDir_performs (i : BitVec 4) (c : DirCmd) : (setDir i c s).Performs s (.setDir i c) := by
  rcases setDir_cases i c s with ⟨-, h⟩ | ⟨w, -, h⟩ | ⟨e, w, -, h⟩ <;> simp [h, Exchange.Performs]

theorem sleep_performs (lo hi : Nat) : (sleep lo hi s).Performs s (.sleep lo hi) := by
  rcases sleep_cases lo hi s with ⟨-, h⟩ | ⟨a, -, h⟩ <;> simp [h, Exchange.Performs]

end

section
variable {s : State} {ev : Event} {x : Exchange}

theorem thenMore_performs {next : State → State} (hx : x.Performs s ev) (hn : ∀ u, (next u).trace = u.trace) :
    (x.thenMore next).Performs s (some ev) := by
  rintro u (h | h | ⟨e, h⟩) <;> cases x <;> cases h <;> obtain ⟨a, ha⟩ := hx
  · exact ⟨ev, a, rfl, (hn _).trans ha⟩
  · exact ⟨ev, a, rfl, ha⟩

theorem thenOk_performs (hx : x.Performs s ev) : x.thenOk.Performs s (some ev) := by
  rintro u (h | h | ⟨e, h⟩) <;> cases x <;> cases h <;> obtain ⟨a, ha⟩ := hx <;> exact ⟨ev, a, rfl, ha⟩

theorem nextLine_trace {next : State → State} (hn : ∀ u, (next u).trace = u.trace) (u : State) :
    (State.nextLine next u).trace = u.trace := by
  unfold State.nextLine
  split
  · exact hn u
  · rfl

end

section
variable (s : State)

theorem readAssert_performs : (readAssert s).Performs s (some (.setLines (.sr strobeOn))) := by
  have hx := setLines_performs s (.sr strobeOn)
  unfold readAssert
  rintro u (h | h | ⟨e, h⟩) <;> split at h <;> cases h <;> simp_all [Exchange.Performs]

theorem readSample_performs : (readSample s).Performs s (some .getLines) := by
  have hx := getLines_performs s
  unfold readSample
  rintro u (h | h | ⟨e, h⟩) <;> split at h <;> cases h <;> simp_all [Exchange.Performs]

theorem readDeassert_performs : (readDeassert s).Performs s (some (.setLines (.sr strobeOff))) := by
  have hx := setLines_performs s (.sr strobeOff)
  unfold readDeassert
  cases s.perr <;> rintro u (h | h | ⟨e, h⟩) <;> split at h <;> cases h <;> simp_all [Exchange.Performs]

end

theorem rapRead_performs (r : RegIdx) {s : State} (hp : readPosition s) :
    (rapRead r s).Performs s (readEvent r s) := by
  rcases hp with ⟨hop, hst | hst | hst | hst | hst⟩ | ⟨hop, hst | hst⟩ <;>
    simp only [rapRead, rapSelect, readEvent, selectEvent, hop, hst]
  · exact thenMore_performs (setDir_performs ..) (nextLine_trace fun _ => rfl)
  · exact readAssert_performs s
  · exact thenMore_performs (sleep_performs ..) fun _ => rfl
  · exact readSample_performs s
  · exact readDeassert_performs s
  · exact thenMore_performs (setLines_performs ..) fun _ => rfl
  · exact thenMore_performs (setLines_performs ..) fun _ => rfl

theorem writeReturn_performs (s : State) : (writeReturn s).Performs s (some (.setDir s.j .input)) := by
  unfold writeReturn
  split
  · exact thenOk_performs (setDir_performs ..)
  · exact thenMore_performs (setDir_performs ..) fun _ => rfl

theorem rapWrite_performs (r : RegIdx) (v : Word) {s : State} (hp : writePosition s) :
    (rapWrite r v s).Performs s (writeEvent r v s) := by
  rcases hp with ⟨hop, hst | hst | hst | hst | hst | hst⟩ | ⟨hop, hst | hst⟩ <;>
    simp only [rapWrite, rapSelect, writeEvent, selectEvent, hop, hst]
  · exact thenMore_performs (setDir_performs ..) (nextLine_trace fun _ => rfl)
  · exact thenMore_performs (setLines_performs ..) fun _ => rfl
  · exact thenMore_performs (sleep_performs ..) fun _ => rfl
  · exact thenMore_performs (setLines_performs ..) fun _ => rfl
  · exact thenMore_performs (sleep_performs ..) fun _ => rfl
  · exact writeReturn_performs s
  · exact thenMore_performs (setLines_performs ..) fun _ => rfl
  · exact thenMore_performs (setLines_performs ..) fun _ => rfl

/-! ## The step that samples -/

theorem readEvent_getLines {r : RegIdx} {s : State} (h : readEvent r s = some .getLines) :
    s.rapop = .read ∧ s.rstep = 5 := by
  unfold readEvent selectEvent at h
  split at h
  · split at h <;> simp_all
  · split at h <;> cases h
  · cases h
  · cases h

theorem writeEvent_ne_getLines (r : RegIdx) (v : Word) (s : State) : writeEvent r v s ≠ some .getLines := by
  unfold writeEvent selectEvent
  split
  · split <;> nofun
  · split <;> nofun
  · nofun
  · nofun

/-- A RAP step that comes to the engine's step `t` has put its own primitive on record, if anything. -/
theorem event_of_outcome {x : RapStep} {o : Option Event} {s t : State} {onOk : State → State} {ev : Event} {a : Answer}
    (hx : x.Performs s o) (hk : ∀ u, Between u (onOk u)) (h : x.outcome s onOk = .next t)
    (ht : t.trace = s.trace ++ [⟨ev, a⟩]) : o = some ev := by
  rcases yields_of_outcome hk h with rfl | ⟨u, hy, hb⟩
  · simp at ht
  · obtain ⟨ev', a', rfl, hu⟩ := hx u hy
    rw [hb.trace, hu] at ht
    simp_all

theorem sleep_ne_getLines {lo hi : Nat} {s t : State} {next : State → State} {a : Answer}
    (h : ((sleep lo hi s).thenMore next).outcome s id = .next t) (hn : ∀ u, (next u).trace = u.trace) :
    t.trace ≠ s.trace ++ [⟨.getLines, a⟩] :=
  fun ht => nomatch event_of_outcome (thenMore_performs (sleep_performs s lo hi) hn) Between.refl h ht

theorem awaitSleep_ne_getLines {s t : State} {a : Answer} (h : awaitSleep s = .next t) :
    t.trace ≠ s.trace ++ [⟨.getLines, a⟩] := by
  unfold awaitSleep at h
  split at h
  · exact sleep_ne_getLines h fun _ => rfl
  · exact sleep_ne_getLines h fun _ => rfl

/-- The lines while a read that nothing failed is past step 1 (41_register_access.md R125). -/
theorem released_of_readLines {r : RegIdx} {s : State} (hl : readLines r s)
    (hp : s.rapop = .select ∨ s.rapop = .read ∧ s.rstep ≠ 1) : released s.lines := by
  rcases hp with hop | ⟨hop, hst⟩
  · simp only [readLines, hop] at hl
    exact hl.1
  · simp only [readLines, hop, if_neg hst] at hl
    exact hl.1

/-- Only step 5 of a read samples, and it comes after step 1 with nothing failed. -/
theorem Inv.released_of_getLines {i : Instr} {s t : State} {a : Answer} (h : Inv s) (hs : Serving i s)
    (hx : exec i s = .next t) (ht : t.trace = s.trace ++ [⟨.getLines, a⟩]) : released s.lines := by
  have hcall := h.stepsCall hs
  obtain ⟨-, hes, -, hd⟩ := hs
  match hc : currentCall s with
  | none =>
    rw [hc] at hcall
    exact absurd ht (awaitSleep_ne_getLines (hcall.symm.trans hx))
  | some (.write r v) =>
    rw [hc] at hcall
    obtain ⟨hp, onOk, hk, hw⟩ := hcall
    exact absurd (event_of_outcome (rapWrite_performs r v hp) hk (hw.symm.trans hx) ht) (writeEvent_ne_getLines r v s)
  | some (.read r) =>
    rw [hc] at hcall
    obtain ⟨hp, onOk, hk, hr⟩ := hcall
    obtain ⟨hop, hst⟩ := readEvent_getLines (event_of_outcome (rapRead_performs r hp) hk (hr.symm.trans hx) ht)
    have hbi : s.bi = false := by
      cases hb : s.bi with
      | false => rfl
      | true => exact absurd (h.held hes hd hb).2.2 (by simp [hst])
    exact released_of_readLines ((h.readState hes hd hc hp).lines hbi) (Or.inr ⟨hop, by simp [hst]⟩)

/-- Settles O24: only a request in service performs a primitive, and `Inv.released_of_getLines` says where it samples. -/
theorem getLinesSamplesAReleasedBus : Obligations.GetLinesSamplesAReleasedBus := by
  refine ⟨fun s w => ⟨fun ha => ⟨_, getLines_of_ok ha, by simp⟩, fun e ha => ⟨_, getLines_of_err ha, by simp⟩⟩,
    fun s t a h hstep ht => ?_⟩
  obtain ⟨-, ⟨-, -, rfl⟩ | ⟨-, rfl⟩ | ⟨c, rest, -, rfl⟩ | ⟨w, rest, -, -, -, rfl⟩ | ⟨w, rest, -, -, -, rfl⟩ |
    ⟨w, rest, i, -, -, -, rfl⟩ | ⟨r, -, -, rfl⟩ | ⟨i, hs, hw⟩ | ⟨i, -, -, -, -, rfl⟩⟩ := step_cases hstep
  case inr.inr.inr.inr.inr.inr.inr.inl => -- the request in service
    exact h.released_of_getLines hs ((exec_serving hs).trans hw) ht
  all_goals simp at ht

end Sys2Proof.Machine
end

section
/-! PROOFS. The data lines that a read and a write leave, when they return and where they fail
(41_register_access.md R126, R134, R140). -/

namespace Sys2Proof.Machine

/-! ## The request that calls a RAP function -/

section
variable {i : Instr} {s : State} {r : RegIdx}

theorem Inv.exec_read (h : Inv s) (hs : Serving i s) (hc : currentCall s = some (.read r)) :
    ReadState r s ∧ ∃ onOk, (∀ u, Between u (onOk u)) ∧ exec i s = (rapRead r s).outcome s onOk := by
  have hcall := h.stepsCall hs
  rw [hc] at hcall
  obtain ⟨-, hes, -, hd⟩ := hs
  exact ⟨h.readState hes hd hc hcall.1, hcall.2⟩

theorem Inv.exec_write {v : Word} (h : Inv s) (hs : Serving i s) (hc : currentCall s = some (.write r v)) :
    WriteState r v s ∧ ∃ onOk, (∀ u, Between u (onOk u)) ∧ exec i s = (rapWrite r v s).outcome s onOk := by
  have hcall := h.stepsCall hs
  rw [hc] at hcall
  obtain ⟨-, hes, -, hd⟩ := hs
  exact ⟨h.writeState hes hd hc hcall.1, hcall.2⟩

/-- An error that a RAP function returns ends the request with it (60_exceptions.md R194, R195). -/
theorem exec_of_err {x : RapStep} {u : State} {e : AdapterError} {onOk : State → State}
    (hx : exec i s = x.outcome s onOk) (he : x = .err e u) : exec i s = .next (u.owe (busErrorReply e)) := by
  rw [hx, he]; rfl

theorem exec_of_ok {x : RapStep} {u : State} {onOk : State → State}
    (hx : exec i s = x.outcome s onOk) (ho : x = .ok u) : exec i s = .next (onOk u) := by
  rw [hx, ho]; rfl

theorem ReadState.of_more {u : State} (h : ReadState r s) (hx : rapRead r s = .more u) : ReadState r u := by
  rcases rapRead_spec h with ⟨-, h'⟩ | ⟨v, h', hv⟩ | ⟨v, h', -⟩ | ⟨e, v, h', -⟩ <;>
    simp only [hx, reduceCtorEq, RapStep.more.injEq] at h'
  exact h' ▸ hv

/-- A read in service that goes on is still in service, and in the same call. -/
theorem Inv.read_goes_on {u : State} (h : Inv s) (hs : Serving i s) (hc : currentCall s = some (.read r))
    (hx : rapRead r s = .more u) :
    exec i s = .next u ∧ Inv u ∧ Serving i u ∧ currentCall u = some (.read r) := by
  obtain ⟨hread, onOk, -, hexec⟩ := h.exec_read hs hc
  have hstep : exec i s = .next u := by rw [hexec, hx]; rfl
  obtain ⟨t, ht, hinv⟩ := h.work hs
  obtain rfl : t = u := by simpa [exec_serving hs, ht] using hstep
  have hk := (rapRead_frame (Or.inl hx)).1.kept
  obtain ⟨hr, hes, hq, hd⟩ := hs
  exact ⟨hstep, hinv, ⟨hk.refused.trans hr, hk.es.trans hes, hk.req.trans hq, hk.due.trans hd⟩,
    (service_of_read hk (h.service hes hd) hc (hread.of_more hx).pos).2⟩

end

/-! ## A RAP step that fails -/

section
variable {s : State} {e : AdapterError} {w : Word}

/-- The failed `SetDir` of step 1 of a read leaves its line unknown (41_register_access.md R126). -/
theorem rapRead_fails_line (r : RegIdx) (ha : s.answer = some ⟨some e, w⟩) (hop : s.rapop = .read)
    (hst : s.rstep = 1) : ∃ u, rapRead r s = .err e u ∧ u.lines = Lines.setD s.lines s.j .u :=
  ⟨_, by simp only [rapRead, hop, hst, setDir_of_err _ _ ha, Exchange.thenMore]; rfl, rfl⟩

/-- A failed `SetLines` of SELECT moves no data line. -/
theorem rapSelect_fails (r : RegIdx) {next : State → State} (ha : s.answer = some ⟨some e, w⟩)
    (hst : s.rstep = 1 ∨ s.rstep = 2) : ∃ u, rapSelect r next s = .err e u ∧ u.lines.d = s.lines.d := by
  rcases hst with hst | hst
  all_goals exact ⟨_, by simp only [rapSelect, hst, setLines_of_err _ ha, Exchange.thenMore]; rfl, blur_d ..⟩

/-- The error of the assert or of the sample is held, and the cleanup comes next (41_register_access.md R127). -/
theorem rapRead_holds_error (r : RegIdx) (ha : s.answer = some ⟨some e, w⟩) (hop : s.rapop = .read)
    (hst : s.rstep = 3 ∨ s.rstep = 5) :
    ∃ u, rapRead r s = .more u ∧ u.rapop = .read ∧ u.rstep = 6 ∧ u.perr = some e ∧ u.lines.d = s.lines.d := by
  rcases hst with hst | hst
  · refine ⟨_, by simp only [rapRead, hop, hst, readAssert, setLines_of_err _ ha]; rfl, rfl, rfl, rfl, blur_d ..⟩
  · refine ⟨_, by simp only [rapRead, hop, hst, readSample, getLines_of_err ha]; rfl, rfl, rfl, rfl, by simp⟩

/-- The cleanup returns the error held, whatever the deassert comes to, and moves no data line
(41_register_access.md R127, R129). -/
theorem rapRead_returns_held (r : RegIdx) {x : Draw} (ha : s.answer = some x) (hop : s.rapop = .read)
    (hst : s.rstep = 6) (hperr : s.perr = some e) : ∃ u, rapRead r s = .err e u ∧ u.lines.d = s.lines.d := by
  rcases x with ⟨_ | e', w'⟩
  · exact ⟨_, by simp only [rapRead, hop, hst, readDeassert, setLines_of_ok _ ha, hperr]; rfl, drive_d ..⟩
  · exact ⟨_, by simp only [rapRead, hop, hst, readDeassert, setLines_of_err _ ha, hperr]; rfl, blur_d ..⟩

/-- The deassert alone fails. -/
theorem rapRead_fails_deassert (r : RegIdx) (ha : s.answer = some ⟨some e, w⟩) (hop : s.rapop = .read)
    (hst : s.rstep = 6) (hperr : s.perr = none) : ∃ u, rapRead r s = .err e u ∧ u.lines.d = s.lines.d :=
  ⟨_, by simp only [rapRead, hop, hst, readDeassert, setLines_of_err _ ha, hperr]; rfl, blur_d ..⟩

/-- The failed `SetDir` of step 2 or of step 4 of a write leaves its line unknown (41_register_access.md R134). -/
theorem rapWrite_fails_line (r : RegIdx) (v : Word) (ha : s.answer = some ⟨some e, w⟩) (hop : s.rapop = .write)
    (hst : s.rstep = 2 ∨ s.rstep = 4) : ∃ u, rapWrite r v s = .err e u ∧ u.lines = Lines.setD s.lines s.j .u := by
  rcases hst with hst | hst
  · exact ⟨_, by simp only [rapWrite, hop, hst, setDir_of_err _ _ ha, Exchange.thenMore]; rfl, rfl⟩
  · exact ⟨_, by simp only [rapWrite, hop, hst, writeReturn, setDir_of_err _ _ ha, Exchange.thenMore,
      Exchange.thenOk, ite_self]; rfl, rfl⟩

/-- A failed `SetLines` of the write strobe moves no data line (41_register_access.md R134). -/
theorem rapWrite_fails_strobe (r : RegIdx) (v : Word) (ha : s.answer = some ⟨some e, w⟩) (hop : s.rapop = .write)
    (hst : s.rstep = 31 ∨ s.rstep = 33) : ∃ u, rapWrite r v s = .err e u ∧ u.lines.d = s.lines.d := by
  rcases hst with hst | hst
  all_goals exact ⟨_, by simp only [rapWrite, hop, hst, setLines_of_err _ ha, Exchange.thenMore]; rfl, blur_d ..⟩

/-- The last primitive of a write, answered `OK` (41_register_access.md R133). -/
theorem rapWrite_ok_of_writeEnds (r : RegIdx) (v : Word) (h : writeEnds s) (ha : s.answer = some ⟨none, w⟩) :
    ∃ u, rapWrite r v s = .ok u := by
  obtain ⟨hop, hst, hj⟩ := h
  exact ⟨_, by simp only [rapWrite, hop, hst, writeReturn, if_pos hj, setDir_of_ok _ _ ha, Exchange.thenOk]; rfl⟩

end

/-! ## The data lines -/

theorem released_congr {l m : Lines} (h : l.d = m.d) : released l ↔ released m := by
  simp only [released, h]

/-- A read that returns `Ok` has released the bus (41_register_access.md R140). -/
theorem ReadState.released_of_ok {r : RegIdx} {s u : State} (h : ReadState r s) (hx : rapRead r s = .ok u) :
    released u.lines := by
  rcases rapRead_spec h with ⟨-, h'⟩ | ⟨v, h', -⟩ | ⟨v, h', -, -, hfree, -⟩ | ⟨e, v, h', -⟩ <;>
    simp only [hx, reduceCtorEq, RapStep.ok.injEq] at h'
  exact h' ▸ hfree

/-- A write that returns `Ok` has released the bus (41_register_access.md R140). -/
theorem WriteState.released_of_ok {r : RegIdx} {v : Word} {s u : State} (h : WriteState r v s)
    (hx : rapWrite r v s = .ok u) : released u.lines := by
  rcases rapWrite_spec h with ⟨-, h'⟩ | ⟨t, h', -⟩ | ⟨t, h', -, hfree, -⟩ | ⟨e, t, h', -⟩ <;>
    simp only [hx, reduceCtorEq, RapStep.ok.injEq] at h'
  exact h' ▸ hfree

/-- The data lines when line `j` of a loop has failed: those below it are done, those above it are not. -/
theorem setD_unknown_get {l : Lines} {j : BitVec 4} {done todo : Fin 16 → DState}
    (hdone : ∀ k : Fin 16, k.val < j.toNat → l.d[k] = done k)
    (htodo : ∀ k : Fin 16, ¬ k.val < j.toNat → l.d[k] = todo k) (k : Fin 16) :
    (Lines.setD l j .u).d[k] = if k.val < j.toNat then done k else if k.val = j.toNat then .u else todo k := by
  rw [setD_get]
  by_cases hlt : k.val < j.toNat
  · rw [if_neg (by omega), if_pos hlt, hdone k hlt]
  · rw [if_neg hlt, htodo k hlt]

/-- Before any failure no error is held. -/
theorem Inv.perr_none {s : State} (h : Inv s) (hb : s.bi = false) : s.perr = none := by
  simpa [hb] using h.busErrors.1

/-! ## Reads -/

section
variable {i : Instr} {s : State} {r : RegIdx} {e : AdapterError} {w : Word} (h : Inv s) (hs : Serving i s)
  (hb : s.bi = false) (hc : currentCall s = some (.read r))
include h hs hb hc

theorem read_ok_released (hop : s.rapop = .read) (hst : s.rstep = 6) (ha : s.answer = some ⟨none, w⟩) :
    ∃ t, exec i s = .next t ∧ released t.lines := by
  obtain ⟨hread, onOk, hk, hx⟩ := h.exec_read hs hc
  obtain ⟨u, hu, -⟩ := rapRead_ok_of_readEnds r ⟨hop, hst, h.perr_none hb⟩ ha
  exact ⟨_, exec_of_ok hx hu, by rw [(hk u).lines]; exact hread.released_of_ok hu⟩

/-- A read that fails in step 1 (41_register_access.md R126). -/
theorem read_fails_releasing (ha : s.answer = some ⟨some e, w⟩) (hop : s.rapop = .read) (hst : s.rstep = 1) :
    ∃ t, exec i s = .next t ∧ t.due = some ⟨2, 0x0000, some e⟩ ∧ ∀ k : Fin 16, t.lines.d[k] =
      if k.val < s.j.toNat then .input else if k.val = s.j.toNat then .u else s.lines.d[k] := by
  obtain ⟨hread, onOk, -, hx⟩ := h.exec_read hs hc
  obtain ⟨u, hu, hlines⟩ := rapRead_fails_line r ha hop hst
  have hl := hread.lines hb
  simp only [readLines, hop, hst, if_true] at hl
  refine ⟨_, exec_of_err hx hu, rfl, fun k => ?_⟩
  rw [owe_lines, hlines]
  exact setD_unknown_get hl (fun _ _ => rfl) k

/-- A read that fails in SELECT, or in the deassert alone (41_register_access.md R129). -/
theorem read_fails_released (ha : s.answer = some ⟨some e, w⟩)
    (hp : s.rapop = .select ∨ s.rapop = .read ∧ s.rstep = 6) :
    ∃ t, exec i s = .next t ∧ t.due = some ⟨2, 0x0000, some e⟩ ∧ released t.lines := by
  obtain ⟨hread, onOk, -, hx⟩ := h.exec_read hs hc
  have hfails : ∃ u, rapRead r s = .err e u ∧ u.lines.d = s.lines.d := by
    rcases hp with hop | ⟨hop, hst⟩
    · rcases hread.pos with ⟨hop', -⟩ | ⟨-, hst⟩
      · simp [hop] at hop'
      · simpa only [rapRead, hop] using rapSelect_fails r ha hst
    · exact rapRead_fails_deassert r ha hop hst (h.perr_none hb)
  have hfree := released_of_readLines (hread.lines hb) (hp.imp_right fun hp => ⟨hp.1, by simp [hp.2]⟩)
  obtain ⟨u, hu, hd⟩ := hfails
  exact ⟨_, exec_of_err hx hu, rfl, (released_congr hd).mpr hfree⟩

/-- A read that fails in the assert or the sample, and the cleanup after it (41_register_access.md R127, R129). -/
theorem read_fails_before_cleanup (ha : s.answer = some ⟨some e, w⟩) (hop : s.rapop = .read)
    (hst : s.rstep = 3 ∨ s.rstep = 5) :
    ∃ t, exec i s = .next t ∧ t.due = none ∧ released t.lines ∧
      ∀ x, t.answer = some x → ∃ u, exec i t = .next u ∧ u.due = some ⟨2, 0x0000, some e⟩ ∧ released u.lines := by
  have hfree := released_of_readLines ((h.exec_read hs hc).1.lines hb) (Or.inr ⟨hop, by omega⟩)
  obtain ⟨t, ht, hop', hst', hperr, hd⟩ := rapRead_holds_error r ha hop hst
  obtain ⟨hstep, hinv, hserve, hcall⟩ := h.read_goes_on hs hc ht
  have hfree' := (released_congr hd).mpr hfree
  obtain ⟨-, -, -, hdue⟩ := id hserve
  refine ⟨t, hstep, hdue, hfree', fun x hx => ?_⟩
  obtain ⟨-, onOk, -, hexec⟩ := hinv.exec_read hserve hcall
  obtain ⟨u, hu, hd'⟩ := rapRead_returns_held r hx hop' hst' hperr
  exact ⟨_, exec_of_err hexec hu, rfl, (released_congr hd').mpr hfree'⟩

end

/-! ## Writes -/

section
variable {i : Instr} {s : State} {r : RegIdx} {v : Word} {e : AdapterError} {w : Word} (h : Inv s) (hs : Serving i s)
  (hc : currentCall s = some (.write r v))
include h hs hc

theorem write_ok_released (hop : s.rapop = .write) (hst : s.rstep = 4) (hj : s.j = 15)
    (ha : s.answer = some ⟨none, w⟩) : ∃ t, exec i s = .next t ∧ released t.lines := by
  obtain ⟨hwrite, onOk, hk, hx⟩ := h.exec_write hs hc
  obtain ⟨u, hu⟩ := rapWrite_ok_of_writeEnds r v ⟨hop, hst, hj⟩ ha
  exact ⟨_, exec_of_ok hx hu, by rw [(hk u).lines]; exact hwrite.released_of_ok hu⟩

/-- A write that fails in step 2 (41_register_access.md R131, R134). -/
theorem write_fails_driving (ha : s.answer = some ⟨some e, w⟩) (hop : s.rapop = .write) (hst : s.rstep = 2) :
    ∃ t, exec i s = .next t ∧ t.due = some ⟨2, 0x0000, some e⟩ ∧ ∀ k : Fin 16, t.lines.d[k] =
      if k.val < s.j.toNat then dOut (v.getLsbD k) else if k.val = s.j.toNat then .u else s.lines.d[k] := by
  obtain ⟨hwrite, onOk, -, hx⟩ := h.exec_write hs hc
  obtain ⟨u, hu, hlines⟩ := rapWrite_fails_line r v ha hop (Or.inl hst)
  have hl := hwrite.lines
  simp only [writeLines, hop, hst, if_true] at hl
  refine ⟨_, exec_of_err hx hu, rfl, fun k => ?_⟩
  rw [owe_lines, hlines]
  exact setD_unknown_get hl.2 (fun _ _ => rfl) k

/-- A write that fails in the strobe keeps driving its value (41_register_access.md R134). -/
theorem write_fails_strobing (ha : s.answer = some ⟨some e, w⟩) (hop : s.rapop = .write)
    (hst : s.rstep = 31 ∨ s.rstep = 33) :
    ∃ t, exec i s = .next t ∧ t.due = some ⟨2, 0x0000, some e⟩ ∧
      ∀ k : Fin 16, t.lines.d[k] = dOut (v.getLsbD k) := by
  obtain ⟨hwrite, onOk, -, hx⟩ := h.exec_write hs hc
  obtain ⟨u, hu, hd⟩ := rapWrite_fails_strobe r v ha hop hst
  have hdrives : drives s.lines v := by
    have hl := hwrite.lines
    simp only [writeLines, hop] at hl
    rw [if_neg (by omega), if_neg (by omega)] at hl
    exact hl.2.1
  refine ⟨_, exec_of_err hx hu, rfl, fun k => ?_⟩
  rw [owe_lines, hd]
  exact hdrives k

/-- A write that fails in step 4 (41_register_access.md R133, R134). -/
theorem write_fails_returning (ha : s.answer = some ⟨some e, w⟩) (hop : s.rapop = .write) (hst : s.rstep = 4) :
    ∃ t, exec i s = .next t ∧ t.due = some ⟨2, 0x0000, some e⟩ ∧ ∀ k : Fin 16, t.lines.d[k] =
      if k.val < s.j.toNat then .input else if k.val = s.j.toNat then .u else dOut (v.getLsbD k) := by
  obtain ⟨hwrite, onOk, -, hx⟩ := h.exec_write hs hc
  obtain ⟨u, hu, hlines⟩ := rapWrite_fails_line r v ha hop (Or.inr hst)
  have hl := hwrite.lines
  simp only [writeLines, hop, hst] at hl
  rw [if_neg (by decide), if_pos trivial] at hl
  obtain ⟨-, -, hd⟩ := hl
  refine ⟨_, exec_of_err hx hu, rfl, fun k => ?_⟩
  rw [owe_lines, hlines]
  exact setD_unknown_get (fun k hk => (hd k).trans (if_pos hk)) (fun k hk => (hd k).trans (if_neg hk)) k

/-- A write that fails in SELECT has moved no data line yet (41_register_access.md R130, R134). -/
theorem write_fails_selecting (ha : s.answer = some ⟨some e, w⟩) (hop : s.rapop = .select) :
    ∃ t, exec i s = .next t ∧ t.due = some ⟨2, 0x0000, some e⟩ ∧ t.lines.d = s.lines.d := by
  obtain ⟨hwrite, onOk, -, hx⟩ := h.exec_write hs hc
  have hfails : ∃ u, rapWrite r v s = .err e u ∧ u.lines.d = s.lines.d := by
    rcases hwrite.pos with ⟨hop', -⟩ | ⟨-, hst⟩
    · simp [hop] at hop'
    · simpa only [rapWrite, hop] using rapSelect_fails r ha hst
  obtain ⟨u, hu, hd⟩ := hfails
  exact ⟨_, exec_of_err hx hu, rfl, hd⟩

end

/-! ## The statement -/

/-- Settles O33, place by place: where a RAP operation returns, and where each of its primitives fails. -/
theorem dataLinesAfterARapOperation : Obligations.DataLinesAfterARapOperation := by
  intro i s h hs hb
  refine ⟨fun r w hc hop hst ha => ?_, fun r e w hc ha => ⟨?_, ?_, ?_⟩,
    fun r v hc => ⟨fun w hop hst hj ha => ?_, fun e w ha => ⟨?_, ?_, ?_, ?_⟩⟩⟩
  · exact read_ok_released h hs hb hc hop hst ha
  · exact read_fails_releasing h hs hb hc ha
  · exact read_fails_released h hs hb hc ha
  · exact read_fails_before_cleanup h hs hb hc ha
  · exact write_ok_released h hs hc hop hst hj ha
  · exact write_fails_driving h hs hc ha
  · exact write_fails_strobing h hs hc ha
  · exact write_fails_returning h hs hc ha
  · exact write_fails_selecting h hs hc ha

end Sys2Proof.Machine
end

section
/-! PROOFS. What a step of RDREG and of WRREG leaves unchanged, their last steps, and the outcomes of every request
(41_register_access.md R135, R136, 42_identify.md R166, R167, 10_state.md R33, R38). -/

namespace Sys2Proof.Machine

/-! ## The frame of every request -/

/-- What no step of a request changes, whichever request it is: acceptance alone latches it, delivery alone writes the
response, the REFUSED mark comes only with `E.BI`, and `E.BI` stays set (10_state.md R33, R38, 60_exceptions.md R196). -/
structure RequestFrame (s t : State) : Prop where
  cfgerr : t.cfgerr = s.cfgerr
  params : t.params = s.params
  claim : t.claim = s.claim
  inbox : t.inbox = s.inbox
  led : t.lines.led = s.lines.led
  rst : t.lines.rst = s.lines.rst
  bi : s.bi = true → t.bi = true
  rsp : s.due = none → t.rsp = s.rsp ∧ t.rspValid = s.rspValid
  refused : t.refused = s.refused ∨ s.es = .idle ∧ s.bi = true
  req : s.es ≠ .idle → t.req = s.req ∧ t.traceMark = s.traceMark

theorem RequestFrame.refl (s : State) : RequestFrame s s := by
  constructor <;> simp

theorem ServiceFrame.requestFrame {s t : State} (h : ServiceFrame s t) : RequestFrame s t where
  cfgerr := h.cfgerr
  params := h.params
  claim := h.claim
  inbox := h.inbox
  led := h.led
  rst := h.rst
  bi hb := by
    rcases h.trace with rfl | ⟨ev, a, -, -, hbi⟩
    · exact hb
    · exact hbi.mpr (Or.inl hb)
  rsp _ := ⟨h.rsp, h.rspValid⟩
  refused := Or.inl h.refused
  req _ := ⟨h.req, h.traceMark⟩

theorem requestFrame_accept (i : Instr) {s : State} (hes : s.es = .idle) :
    RequestFrame s (beginOf i (s.accept (reqOf i))) := by
  cases i <;> exact ⟨rfl, rfl, rfl, rfl, rfl, rfl, id, fun _ => ⟨rfl, rfl⟩, Or.inl rfl, absurd hes⟩

theorem requestFrame_refuse {s : State} (hes : s.es = .idle) (hb : s.bi = true) : RequestFrame s s.refuse :=
  ⟨rfl, rfl, rfl, rfl, rfl, rfl, id, fun _ => ⟨rfl, rfl⟩, Or.inr ⟨hes, hb⟩, fun _ => ⟨rfl, rfl⟩⟩

theorem requestFrame_respond {s : State} {r : Response} (hd : s.due = some r) : RequestFrame s (s.respond r) :=
  ⟨rfl, rfl, rfl, rfl, rfl, rfl, id, fun hn => by simp [hd] at hn, Or.inl rfl, fun _ => ⟨rfl, rfl⟩⟩

theorem exec_frame {i : Instr} {s t : State} (h : exec i s = .next t) : RequestFrame s t := by
  obtain ⟨-, ⟨hc, rfl⟩ | ⟨hes, hb, rfl⟩ | ⟨-, -, r, hd, rfl⟩ | ⟨-, hw⟩ | ⟨-, rfl⟩⟩ := exec_cases h
  · exact requestFrame_accept i hc.1
  · exact requestFrame_refuse hes hb
  · exact requestFrame_respond hd
  · exact (work_frame hw).requestFrame
  · exact RequestFrame.refl _

/-! ## The frame of RDREG and WRREG -/

/-- What RDREG and WRREG leave of the Sequencer's registers and of the buffer: everything, but that delivering a response
ends the stage (60_exceptions.md R193). -/
structure SequencerKept (s t : State) : Prop where
  stw : t.stw = s.stw
  k : t.k = s.k
  wc : t.wc = s.wc
  np : t.np = s.np
  idbuf : t.idbuf = s.idbuf
  seq : t.seq = s.seq ∨ t.seq = .none ∧ s.due ≠ none

theorem SequencerKept.refl (s : State) : SequencerKept s s :=
  ⟨rfl, rfl, rfl, rfl, rfl, Or.inl rfl⟩

theorem RapFrame.sequencerKept {s u : State} (h : RapFrame s u) : SequencerKept s u :=
  ⟨h.stw, h.k, h.wc, h.np, h.idbuf, Or.inl h.seq⟩

theorem SequencerKept.owe {s u : State} (h : SequencerKept s u) (r : Response) : SequencerKept s (u.owe r) :=
  ⟨h.stw, h.k, h.wc, h.np, h.idbuf, h.seq⟩

theorem sequencerKept_respond {s : State} {r : Response} (hd : s.due = some r) : SequencerKept s (s.respond r) :=
  ⟨rfl, rfl, rfl, rfl, rfl, Or.inr ⟨rfl, by simp [hd]⟩⟩

/-- A step of a request that only owes its response when its RAP function returns: nothing happened, or the RAP function
yielded a state, and a response may be owed there. -/
theorem outcome_owe_cases {x : RapStep} {s t : State} {answer : State → Response}
    (h : x.outcome s (fun u => u.owe (answer u)) = .next t) :
    t = s ∨ ∃ u, x.Yields u ∧ (t = u ∨ ∃ r, t = u.owe r) := by
  rcases outcome_cases h with ⟨-, rfl⟩ | ⟨u, hx, rfl⟩ | ⟨u, hx, rfl⟩ | ⟨e, u, hx, rfl⟩
  · exact Or.inl rfl
  · exact Or.inr ⟨_, Or.inl hx, Or.inl rfl⟩
  · exact Or.inr ⟨u, Or.inr (Or.inl hx), Or.inr ⟨_, rfl⟩⟩
  · exact Or.inr ⟨u, Or.inr (Or.inr ⟨e, hx⟩), Or.inr ⟨_, rfl⟩⟩

/-- RDREG never drives the write strobe. -/
theorem exec_rdreg_kept {reg : RegIdx} {s t : State} (h : exec (.rdreg reg) s = .next t) :
    SequencerKept s t ∧ t.lines.sw = s.lines.sw := by
  obtain ⟨-, ⟨-, rfl⟩ | ⟨-, -, rfl⟩ | ⟨-, -, r, hd, rfl⟩ | ⟨-, hw⟩ | ⟨-, rfl⟩⟩ := exec_cases h
  · exact ⟨⟨rfl, rfl, rfl, rfl, rfl, Or.inl rfl⟩, rfl⟩
  · exact ⟨⟨rfl, rfl, rfl, rfl, rfl, Or.inl rfl⟩, rfl⟩
  · exact ⟨sequencerKept_respond hd, rfl⟩
  · rcases outcome_owe_cases hw with rfl | ⟨u, hy, ht⟩
    · exact ⟨SequencerKept.refl _, rfl⟩
    · obtain ⟨hf, hsw⟩ := rapRead_frame hy
      rcases ht with rfl | ⟨r, rfl⟩
      · exact ⟨hf.sequencerKept, hsw⟩
      · exact ⟨hf.sequencerKept.owe r, hsw⟩
  · exact ⟨SequencerKept.refl _, rfl⟩

/-- WRREG never drives the read strobe, and leaves the latches of a read. -/
theorem exec_wrreg_kept {reg : RegIdx} {value : Word} {s t : State} (h : exec (.wrreg reg value) s = .next t) :
    SequencerKept s t ∧ t.lines.sr = s.lines.sr ∧ t.sample = s.sample ∧ t.perr = s.perr := by
  obtain ⟨-, ⟨-, rfl⟩ | ⟨-, -, rfl⟩ | ⟨-, -, r, hd, rfl⟩ | ⟨-, hw⟩ | ⟨-, rfl⟩⟩ := exec_cases h
  · exact ⟨⟨rfl, rfl, rfl, rfl, rfl, Or.inl rfl⟩, rfl, rfl, rfl⟩
  · exact ⟨⟨rfl, rfl, rfl, rfl, rfl, Or.inl rfl⟩, rfl, rfl, rfl⟩
  · exact ⟨sequencerKept_respond hd, rfl, rfl, rfl⟩
  · rcases outcome_owe_cases hw with rfl | ⟨u, hy, ht⟩
    · exact ⟨SequencerKept.refl _, rfl, rfl, rfl⟩
    · obtain ⟨hf, hread⟩ := rapWrite_frame hy
      rcases ht with rfl | ⟨r, rfl⟩
      · exact ⟨hf.sequencerKept, hread⟩
      · exact ⟨hf.sequencerKept.owe r, hread⟩
  · exact ⟨SequencerKept.refl _, rfl, rfl, rfl⟩

/-- Settles O47: `exec_frame` for what no request changes, `exec_rdreg_kept` for the rest. -/
theorem rdregFrame : Obligations.RdregFrame := by
  intro reg s t h
  have hf := exec_frame h
  obtain ⟨hk, hsw⟩ := exec_rdreg_kept h
  exact ⟨hk.stw, hk.k, hk.wc, hk.np, hf.cfgerr, hf.params, hf.claim, hf.inbox, hsw, hf.led, hf.rst,
    fun _ => by rw [hk.idbuf], hf.bi, hk.seq, hf.rsp, hf.refused, hf.req⟩

/-- Settles O48: `exec_frame` for what no request changes, `exec_wrreg_kept` for the rest. -/
theorem wrregFrame : Obligations.WrregFrame := by
  intro reg value s t h
  have hf := exec_frame h
  obtain ⟨hk, hsr, hsample, hperr⟩ := exec_wrreg_kept h
  exact ⟨hk.stw, hk.k, hk.wc, hk.np, hf.cfgerr, hf.params, hf.claim, hf.inbox, hsr, hf.led, hf.rst, hsample, hperr,
    fun _ => by rw [hk.idbuf], hf.bi, hk.seq, hf.rsp, hf.refused, hf.req⟩

/-! ## The last steps of RDREG and WRREG -/

/-- Settles O31: at its last primitive, answered `OK`, `RAP_Read` returns the sample (`rapRead_ok_of_readEnds`), in the
state that `rapRead_ok_inv` names. -/
theorem rdregAnswersTheSample : Obligations.RdregAnswersTheSample := by
  intro reg s w hs hop hst hperr ha
  obtain ⟨u, hu, -, hsample⟩ := rapRead_ok_of_readEnds reg ⟨hop, hst, hperr⟩ ha
  refine ⟨u.owe (reply .ok u.sample), exec_of_ok (exec_serving hs) hu, by rw [hsample]; rfl, ?_⟩
  obtain ⟨-, -, rfl⟩ := rapRead_ok_inv hu
  exact ⟨rfl, by simp, by simp [strobeOff]⟩

/-- Settles O32: at line 15, answered `OK`, `RAP_Write` returns, in the state that `rapWrite_ok_inv` names. -/
theorem wrregAnswersOk : Obligations.WrregAnswersOk := by
  intro reg value s w hs hop hst hj ha
  obtain ⟨u, hu⟩ := rapWrite_ok_of_writeEnds reg value ⟨hop, hst, hj⟩ ha
  refine ⟨u.owe (reply .ok 0x0000), exec_of_ok (exec_serving hs) hu, rfl, ?_⟩
  obtain ⟨-, -, rfl⟩ := rapWrite_ok_inv hu
  rw [hj]
  exact ⟨rfl, by simp, by simp⟩

/-! ## The outcomes of each request -/

/-- A response owed after a step of a RAP function: BUS_IO_ERROR, or what the caller owes once the function has returned
(60_exceptions.md R194, R195). -/
theorem outcome_due {x : RapStep} {s t : State} {onOk : State → State} {r : Response}
    (hx : ∀ u, x.Yields u → RapFrame s u) (hd : s.due = none) (h : x.outcome s onOk = .next t) (ht : t.due = some r) :
    r.code = 2 ∨ ∃ u, u.due = none ∧ (onOk u).due = some r := by
  rcases outcome_cases h with ⟨-, rfl⟩ | ⟨u, h1, rfl⟩ | ⟨u, h1, rfl⟩ | ⟨e, u, -, rfl⟩
  · simp [hd] at ht
  · simp [(hx _ (Or.inl h1)).due, hd] at ht
  · exact Or.inr ⟨u, (hx u (Or.inr (Or.inl h1))).due.trans hd, ht⟩
  · obtain rfl : busErrorReply e = r := by simpa using ht
    exact Or.inl rfl

section
variable {s t : State} {r : Response} (hd : s.due = none) (ht : t.due = some r)
include hd ht

theorem outcome_read_due {reg : RegIdx} {onOk : State → State} (h : (rapRead reg s).outcome s onOk = .next t) :
    r.code = 2 ∨ ∃ u, u.due = none ∧ (onOk u).due = some r :=
  outcome_due (fun _ hu => (rapRead_frame hu).1) hd h ht

theorem outcome_write_due {reg : RegIdx} {v : Word} {onOk : State → State}
    (h : (rapWrite reg v s).outcome s onOk = .next t) : r.code = 2 ∨ ∃ u, u.due = none ∧ (onOk u).due = some r :=
  outcome_due (fun _ hu => (rapWrite_frame hu).1) hd h ht

end

section
variable {u : State} {r : Response} (hd : u.due = none)
include hd

theorem afterClear_due : (afterClear u).due = none := by
  unfold afterClear
  split <;> exact hd

theorem afterPresence_due (h : (afterPresence u).due = some r) : r.code = 1 := by
  unfold afterPresence at h
  split at h
  · cases h; rfl
  · split at h <;> simp [hd] at h

theorem afterPoll_due (h : (afterPoll u).due = some r) : r.code = 3 ∨ r.code = 4 := by
  simp only [afterPoll] at h
  split at h
  · cases h; exact Or.inr rfl
  · split at h
    · simp [startBurst, hd] at h
    · split at h
      · cases h; exact Or.inl rfl
      · simp [hd] at h

theorem afterData_due (h : (afterData u).due = some r) : r.code = 0 := by
  simp only [afterData] at h
  split at h
  · cases h; rfl
  · simp [hd] at h

theorem awaitSleep_due {t : State} (h : awaitSleep u = .next t) : t.due = none := by
  unfold awaitSleep at h
  split at h
  · rcases sleep_cases identDelayMinUs u.params.identDelayMaxUs u with ⟨-, hx⟩ | ⟨a, -, hx⟩ <;>
      simp only [hx, Exchange.thenMore, RapStep.outcome, Host.Outcome.next.injEq] at h <;> subst h <;>
      simp [startBurst, hd]
  · rcases sleep_cases u.params.pollSleepMinUs u.params.pollSleepMaxUs u with ⟨-, hx⟩ | ⟨a, -, hx⟩ <;>
      simp only [hx, Exchange.thenMore, RapStep.outcome, Host.Outcome.next.injEq] at h <;> subst h <;> simp [hd]

end

/-- The outcomes of an IDENTIFY request, by the stage that ends in them (42_identify.md R154, R160, R161, R163, R164). -/
theorem identifyStep_due {s t : State} {r : Response} (hd : s.due = none) (h : identifyStep s = .next t)
    (ht : t.due = some r) :
    r.code = 2 ∨ s.seq = .checkPresence ∧ r.code = 1 ∨
      s.seq = .awaitDataReady ∧ s.req.mode ≠ 0 ∧ (r.code = 3 ∨ r.code = 4) ∨ s.seq = .burstRead ∧ r.code = 0 := by
  unfold identifyStep at h
  cases hst : s.seq <;> simp only [hst] at h
  case none => cases h
  case selectDrive =>
    refine Or.inl ((outcome_write_due hd ht h).resolve_right ?_)
    rintro ⟨u, hu, ho⟩
    simp [hu] at ho
  case clearParams =>
    refine Or.inl ((outcome_write_due hd ht h).resolve_right ?_)
    rintro ⟨u, hu, ho⟩
    simp [afterClear_due hu] at ho
  case issueCommand =>
    refine Or.inl ((outcome_write_due hd ht h).resolve_right ?_)
    rintro ⟨u, hu, ho⟩
    simp [hu] at ho
  case checkPresence =>
    refine (outcome_read_due hd ht h).imp_right ?_
    rintro ⟨u, hu, ho⟩
    exact Or.inl ⟨rfl, afterPresence_due hu ho⟩
  case awaitDataReady =>
    split at h
    · simp [awaitSleep_due hd h] at ht
    · split at h
      · cases h
      · rename_i hm
        refine (outcome_read_due hd ht h).imp_right ?_
        rintro ⟨u, hu, ho⟩
        exact Or.inr (Or.inl ⟨rfl, hm, afterPoll_due hu ho⟩)
  case burstRead =>
    split at h
    · refine (outcome_read_due hd ht h).imp_right ?_
      rintro ⟨u, hu, ho⟩
      exact Or.inr (Or.inr ⟨rfl, afterData_due hu ho⟩)
    · cases h

/-- RDREG and WRREG end with OK or with BUS_IO_ERROR. -/
theorem outcome_owe_ok_due {x : RapStep} {s t : State} {value : State → Word} {r : Response}
    (hx : ∀ u, x.Yields u → RapFrame s u) (hd : s.due = none)
    (h : x.outcome s (fun u => u.owe (reply .ok (value u))) = .next t) (ht : t.due = some r) :
    r.code = 0 ∨ r.code = 2 := by
  rcases outcome_due hx hd h ht with hcode | ⟨u, -, ho⟩
  · exact Or.inr hcode
  · cases ho; exact Or.inl rfl

/-- Settles O22: the codes of a register access by `outcome_owe_ok_due`, those of IDENTIFY by `identifyStep_due`; only
mode 1 polls. -/
theorem outcomesOfEachRequest : Obligations.OutcomesOfEachRequest := by
  intro i s t r hs h hr
  rw [exec_serving hs] at h
  obtain ⟨-, -, hq, hd⟩ := hs
  cases i with
  | rdreg reg =>
    rcases outcome_owe_ok_due (fun _ hu => (rapRead_frame hu).1) hd h hr with hcode | hcode <;>
      simp [hcode, possibleCodes]
  | wrreg reg value =>
    rcases outcome_owe_ok_due (fun _ hu => (rapWrite_frame hu).1) hd h hr with hcode | hcode <;>
      simp [hcode, possibleCodes]
  | identFix =>
    rcases identifyStep_due hd h hr with hcode | ⟨hst, hcode⟩ | ⟨-, hm, -⟩ | ⟨hst, hcode⟩
    · simp [hcode, possibleCodes]
    · simp [hcode, hst, possibleCodes]
    · exact absurd (by rw [hq]; rfl) hm
    · simp [hcode, hst, possibleCodes]
  | identPoll =>
    rcases identifyStep_due hd h hr with hcode | ⟨hst, hcode⟩ | ⟨hst, -, hcode | hcode⟩ | ⟨hst, hcode⟩ <;>
      simp_all [possibleCodes]

end Sys2Proof.Machine
end

section
/-! PROOFS. The strobes: which error a failing read returns and how it leaves the read strobe, and that a strobe is
asserted only on a selected register (41_register_access.md R121, R125 to R130, R138). -/

namespace Sys2Proof.Machine

/-! ## A step of RAP_Read that fails, and the read strobe -/

section
variable {s : State} {e : AdapterError} (r : RegIdx)

/-- Before the assert the error is returned at once, and the strobe is not touched (41_register_access.md R126, R129). -/
theorem rapRead_fails_before_strobe {w : Word} (ha : s.answer = some ⟨some e, w⟩) (hp : readPosition s)
    (hearly : s.rapop = .read ∧ s.rstep = 1 ∨ s.rapop = .select) :
    ∃ u, rapRead r s = .err e u ∧ u.lines.sr = s.lines.sr := by
  rcases hearly with ⟨hop, hst⟩ | hop
  · obtain ⟨u, hu, hlines⟩ := rapRead_fails_line r ha hop hst
    exact ⟨u, hu, by rw [hlines, setD_sr]⟩
  · have hst : s.rstep = 1 ∨ s.rstep = 2 := by simpa [readPosition, hop] using hp
    rcases hst with hst | hst
    all_goals
      refine ⟨_, by simp only [rapRead, rapSelect, hop, hst, setLines_of_err _ ha, Exchange.thenMore]; rfl, ?_⟩
      rfl

/-- A failed assert or sample uses up its answer, goes on record, and leaves its error held for the cleanup
(41_register_access.md R127). -/
theorem rapRead_records_held_error {ev : Event} {rest : List (Option Draw)} (ha : s.answers = fails e :: rest)
    (hop : s.rapop = .read) (hst : s.rstep = 3 ∧ ev = .setLines (.sr 1) ∨ s.rstep = 5 ∧ ev = .getLines) :
    ∃ u, rapRead r s = .more u ∧ u.answers = rest ∧ u.rapop = .read ∧ u.rstep = 6 ∧ u.perr = some e ∧
      u.trace = s.trace ++ [⟨ev, .err e⟩] := by
  have herr : s.answer = some ⟨some e, 0⟩ := answer_cons ha
  rcases hst with ⟨hst, rfl⟩ | ⟨hst, rfl⟩
  · refine ⟨_, by simp only [rapRead, hop, hst, readAssert, setLines_of_err _ herr]; rfl, ?_⟩
    exact ⟨by simp [consume_cons ha], rfl, rfl, rfl, rfl⟩
  · refine ⟨_, by simp only [rapRead, hop, hst, readSample, getLines_of_err herr]; rfl, ?_⟩
    exact ⟨by simp [consume_cons ha], rfl, rfl, rfl, rfl⟩

/-- The cleanup deasserts the strobe if the environment lets it, and returns the error held in either case
(41_register_access.md R127, R129). -/
theorem rapRead_cleanup {x : Draw} (ha : s.answer = some x) (hop : s.rapop = .read) (hst : s.rstep = 6)
    (hperr : s.perr = some e) :
    ∃ u, rapRead r s = .err e u ∧ u.lines.sr = (if x.err = none then .zero else .u) ∧
      ∃ a, u.trace = s.trace ++ [⟨.setLines (.sr 0), a⟩] := by
  rcases x with ⟨_ | e', w⟩
  · exact ⟨_, by simp only [rapRead, hop, hst, readDeassert, setLines_of_ok _ ha, hperr]; rfl, rfl, .ok, rfl⟩
  · exact ⟨_, by simp only [rapRead, hop, hst, readDeassert, setLines_of_err _ ha, hperr]; rfl, rfl, .err e', rfl⟩

/-- A deassert that alone fails leaves the strobe unknown (41_register_access.md R129). -/
theorem rapRead_deassert_unknown {w : Word} (ha : s.answer = some ⟨some e, w⟩) (hop : s.rapop = .read)
    (hst : s.rstep = 6) (hperr : s.perr = none) : ∃ u, rapRead r s = .err e u ∧ u.lines.sr = .u :=
  ⟨_, by simp only [rapRead, hop, hst, readDeassert, setLines_of_err _ ha, hperr]; rfl, rfl⟩

end

/-! ## The request that a failing read ends -/

section
variable {i : Instr} {r : RegIdx} {s : State} (h : Inv s) (hs : Serving i s) (hc : currentCall s = some (.read r))
include h hs hc

/-- The assert or the sample fails: two steps, and the error of the first is owed after one deassert. -/
theorem read_fails_and_cleans_up {e : AdapterError} {x : Draw} {ev : Event} {rest : List (Option Draw)}
    (ha : s.answers = fails e :: some x :: rest) (hop : s.rapop = .read)
    (hst : s.rstep = 3 ∧ ev = .setLines (.sr 1) ∨ s.rstep = 5 ∧ ev = .getLines) :
    ∃ t, execTimes i 2 s = .next t ∧ t.due = some ⟨2, 0x0000, some e⟩ ∧
      t.lines.sr = (if x.err = none then .zero else .u) ∧
      ∃ a, t.trace = s.trace ++ [⟨ev, .err e⟩, ⟨.setLines (.sr 0), a⟩] := by
  obtain ⟨u, hu, hrest, hop', hst', hperr, htrace⟩ := rapRead_records_held_error r ha hop hst
  obtain ⟨hstep, hinv, hserve, hcall⟩ := h.read_goes_on hs hc hu
  obtain ⟨-, onOk, -, hexec⟩ := hinv.exec_read hserve hcall
  obtain ⟨v, hv, hsr, a, hvtrace⟩ := rapRead_cleanup r (answer_cons hrest) hop' hst' hperr
  refine ⟨v.owe (busErrorReply e), ?_, rfl, hsr, a, ?_⟩
  · simp only [execTimes, hstep, exec_of_err hexec hv]
  · simp [hvtrace, htrace]

/-- A read that comes to a response other than BUS_IO_ERROR was at its last primitive, with no error held, and that was
answered `OK` (41_register_access.md R129). -/
theorem read_answers_only_unfailed {t : State} {resp : Response} (hx : exec i s = .next t) (hdue : t.due = some resp)
    (hcode : resp.code ≠ 2) : s.bi = false ∧ t.bi = false ∧ s.perr = none ∧ t.lines.sr = .zero := by
  obtain ⟨hread, onOk, hk, hexec⟩ := h.exec_read hs hc
  obtain ⟨-, -, -, hd⟩ := hs
  rcases outcome_cases (hexec.symm.trans hx) with ⟨-, rfl⟩ | ⟨u, hu, rfl⟩ | ⟨u, hu, rfl⟩ | ⟨e, u, -, rfl⟩
  · simp [hd] at hdue
  · simp [(rapRead_frame (Or.inl hu)).1.due, hd] at hdue
  · obtain ⟨⟨-, -, hperr⟩, -, rfl⟩ := rapRead_ok_inv hu
    have hbi : s.bi = false := by
      cases hb : s.bi with
      | false => rfl
      | true => simpa [hperr] using (hread.held hb).1
    exact ⟨hbi, by simpa [(hk _).bi] using hbi, hperr, by rw [(hk _).lines]; rfl⟩
  · obtain rfl : busErrorReply e = resp := by simpa using hdue
    exact absurd rfl hcode

end

/-- Settles O30, row by row of R129: the place where the read fails says which of the lemmas above applies. -/
theorem readErrorPrecedence : Obligations.ReadErrorPrecedence := by
  intro i r s h hs hc
  obtain ⟨hread, onOk, -, hexec⟩ := h.exec_read hs hc
  refine ⟨fun e rest ha hearly => ?_, fun e x rest ha hop hst => ?_, fun e x rest ha hop hst => ?_,
    fun e rest ha hop hst hperr => ?_, fun t resp => read_answers_only_unfailed h hs hc⟩
  · obtain ⟨u, hu, hsr⟩ := rapRead_fails_before_strobe r (answer_cons ha) hread.pos hearly
    exact ⟨_, exec_of_err hexec hu, rfl, hsr⟩
  · exact read_fails_and_cleans_up h hs hc ha hop (Or.inl ⟨hst, rfl⟩)
  · obtain ⟨t, ht, hdue, hsr, -⟩ := read_fails_and_cleans_up h hs hc ha hop (Or.inr ⟨hst, rfl⟩)
    exact ⟨t, ht, hdue, hsr⟩
  · obtain ⟨u, hu, hsr⟩ := rapRead_deassert_unknown r (answer_cons ha) hop hst hperr
    exact ⟨_, exec_of_err hexec hu, rfl, hsr⟩

/-! ## The step that asserts a strobe -/

/-- The two events that assert a strobe (41_register_access.md R125, R130). -/
def assertsStrobe (ev : Event) : Prop := ev = .setLines (.sr 1) ∨ ev = .setLines (.sw 1)

theorem selectEvent_no_strobe {r : RegIdx} {s : State} {ev : Event} (h : selectEvent r s = some ev) :
    ¬ assertsStrobe ev := by
  unfold selectEvent at h
  split at h <;> cases h <;> simp [assertsStrobe]

/-- Of the steps of a read, step 3 alone asserts a strobe. -/
theorem readEvent_strobe {r : RegIdx} {s : State} {ev : Event} (h : readEvent r s = some ev) (hev : assertsStrobe ev) :
    s.rapop = .read ∧ s.rstep = 3 := by
  unfold readEvent at h
  split at h
  · split at h <;> cases h
    case h_2 => simp_all
    all_goals simp [assertsStrobe, strobeOff] at hev
  · exact absurd hev (selectEvent_no_strobe h)
  · cases h
  · cases h

/-- Of the steps of a write, step 3a alone asserts a strobe. -/
theorem writeEvent_strobe {r : RegIdx} {v : Word} {s : State} {ev : Event} (h : writeEvent r v s = some ev)
    (hev : assertsStrobe ev) : s.rapop = .write ∧ s.rstep = 31 := by
  unfold writeEvent at h
  split at h
  · exact absurd hev (selectEvent_no_strobe h)
  · split at h <;> cases h
    case h_2 => simp_all
    all_goals simp [assertsStrobe, strobeOff] at hev
  · cases h
  · cases h

theorem sleep_event {lo hi : Nat} {s t : State} {next : State → State} {ev : Event} {a : Answer}
    (h : ((sleep lo hi s).thenMore next).outcome s id = .next t) (hn : ∀ u, (next u).trace = u.trace)
    (ht : t.trace = s.trace ++ [⟨ev, a⟩]) : ev = .sleep lo hi :=
  (Option.some.inj (event_of_outcome (thenMore_performs (sleep_performs s lo hi) hn) Between.refl h ht)).symm

/-- The Sequencer's own wait performs a `Sleep` and nothing else. -/
theorem awaitSleep_event {s t : State} {ev : Event} {a : Answer} (h : awaitSleep s = .next t)
    (ht : t.trace = s.trace ++ [⟨ev, a⟩]) : ∃ lo hi, ev = .sleep lo hi := by
  unfold awaitSleep at h
  split at h
  · exact ⟨_, _, sleep_event h (fun _ => rfl) ht⟩
  · exact ⟨_, _, sleep_event h (fun _ => rfl) ht⟩

/-- A read selects its register before step 3, where nothing has failed yet. -/
theorem ReadState.selects {r : RegIdx} {s : State} (h : ReadState r s) (hop : s.rapop = .read) (hst : s.rstep = 3) :
    selects s.lines r := by
  have hbi : s.bi = false := by
    cases hb : s.bi with
    | false => rfl
    | true => exact absurd (h.held hb).2.2 (by simp [hst])
  have hl := h.lines hbi
  simp only [readLines, hop, hst] at hl
  exact hl.2.1

/-- A write selects its register before step 3a. -/
theorem WriteState.selects {r : RegIdx} {v : Word} {s : State} (h : WriteState r v s) (hop : s.rapop = .write) :
    selects s.lines r := by
  have hl := h.lines
  simp only [writeLines, hop] at hl
  exact hl.1

/-- The step that asserts a strobe belongs to a call whose register is selected. -/
theorem Inv.selects_of_strobe {i : Instr} {s t : State} {ev : Event} {a : Answer} (h : Inv s) (hs : Serving i s)
    (hx : exec i s = .next t) (ht : t.trace = s.trace ++ [⟨ev, a⟩]) (hev : assertsStrobe ev) :
    ∃ r, (currentCall s = some (.read r) ∨ ∃ v, currentCall s = some (.write r v)) ∧ selects s.lines r := by
  match hc : currentCall s with
  | none =>
    have hcall := h.stepsCall hs
    rw [hc] at hcall
    obtain ⟨lo, hi, rfl⟩ := awaitSleep_event (hcall.symm.trans hx) ht
    simp [assertsStrobe] at hev
  | some (.read r) =>
    obtain ⟨hread, onOk, hk, hexec⟩ := h.exec_read hs hc
    have hperf := event_of_outcome (rapRead_performs r hread.pos) hk (hexec.symm.trans hx) ht
    obtain ⟨hop, hst⟩ := readEvent_strobe hperf hev
    exact ⟨r, Or.inl rfl, hread.selects hop hst⟩
  | some (.write r v) =>
    obtain ⟨hwrite, onOk, hk, hexec⟩ := h.exec_write hs hc
    have hperf := event_of_outcome (rapWrite_performs r v hwrite.pos) hk (hexec.symm.trans hx) ht
    obtain ⟨hop, -⟩ := writeEvent_strobe hperf hev
    exact ⟨r, Or.inr ⟨v, rfl⟩, hwrite.selects hop⟩

/-- Settles O34: `Inv.selects_of_strobe` for either strobe. -/
theorem selectBeforeStrobe : Obligations.SelectBeforeStrobe := by
  intro i s t a h hs hx ht
  obtain ⟨ev, hev, htrace⟩ : ∃ ev, assertsStrobe ev ∧ t.trace = s.trace ++ [⟨ev, a⟩] :=
    ht.elim (fun ht => ⟨_, Or.inl rfl, ht⟩) fun ht => ⟨_, Or.inr rfl, ht⟩
  obtain ⟨r, hcall, hcs, had⟩ := h.selects_of_strobe hs hx htrace hev
  exact ⟨r, hcall, hcs, had⟩

end Sys2Proof.Machine
end

section
/-! PROOFS. Whole register accesses that nothing fails: RDREG, WRREG, and a read after a write in the loopback environment
(41_register_access.md R125, R130, R135 to R137, R141). -/

namespace Sys2Proof.Machine

/-! ## A whole request -/

/-- A step of the RAP leaves the request in service. -/
theorem Serving.of_kept {i : Instr} {s u : State} (hs : Serving i s) (hk : RapKept s u) : Serving i u := by
  obtain ⟨hr, hes, hq, hd⟩ := hs
  exact ⟨hk.refused.trans hr, hk.es.trans hes, hk.req.trans hq, hk.due.trans hd⟩

theorem serving_beginOf (i : Instr) {s : State} (hc : CanAccept s) : Serving i (beginOf i (s.accept (reqOf i))) := by
  have hr := hc.2.2
  cases i <;> exact ⟨hr, rfl, rfl, rfl⟩

/-- RDREG is a `RAP_Read` of its register (41_register_access.md R135). -/
theorem callsRead_rdreg {reg : RegIdx} {s : State} (hs : Serving (.rdreg reg) s) :
    CallsRead (.rdreg reg) reg (fun u => u.owe (reply .ok u.sample)) s :=
  fun _ hk _ => exec_serving (hs.of_kept hk)

/-- WRREG is a `RAP_Write` of its value to its register (41_register_access.md R136). -/
theorem callsWrite_wrreg {reg : RegIdx} {value : Word} {s : State} (hs : Serving (.wrreg reg value) s) :
    CallsWrite (.wrreg reg value) reg value (fun u => u.owe (reply .ok 0x0000)) s :=
  fun _ hk _ => exec_serving (hs.of_kept hk)

/-- A request that one RAP operation of `n` primitives serves: accepted before it and answered after it
(60_exceptions.md R193, R207). -/
theorem execTimes_whole {i : Instr} {n : Nat} {s v : State} {r : Response} (hc : CanAccept s)
    (hx : execTimes i n (beginOf i (s.accept (reqOf i))) = .next (v.owe r))
    (hk : RapKept (beginOf i (s.accept (reqOf i))) v) :
    execTimes i (n + 2) s = .next ((v.owe r).respond r) := by
  obtain ⟨hr, hes, hq, -⟩ := (serving_beginOf i hc).of_kept hk
  have hanswer : exec i (v.owe r) = .next ((v.owe r).respond r) := exec_due hr hes hq rfl
  rw [show n + 2 = (n + 1) + 1 from rfl, execTimes_succ (exec_accept hc), execTimes_add hx]
  simp [execTimes, hanswer]

/-- The request in service has the trace from its mark on. -/
theorem requestTrace_eq {s t : State} {events : List TraceEntry} (hm : t.traceMark = s.trace.length)
    (ht : t.trace = s.trace ++ events) : t.requestTrace = events := by
  rw [State.requestTrace, hm, ht, List.drop_left]

/-- RDREG from acceptance to answer, through its read (41_register_access.md R125, R135). -/
theorem rdreg_run (reg : RegIdx) {s : State} {ws : List Word} {rest : List (Option Draw)} (hc : CanAccept s)
    (ha : s.answers = allOk ws ++ rest) (hl : ws.length = 22) :
    ∃ v, ReadDone reg (sampled ws) (s.accept (reqOf (.rdreg reg))).startRead v ∧ v.answers = rest ∧
      execTimes (.rdreg reg) 24 s =
        .next ((v.owe (reply .ok (sampled ws))).respond (reply .ok (sampled ws))) := by
  obtain ⟨v, hx, hv, hrest⟩ :=
    read_block (callsRead_rdreg (serving_beginOf (.rdreg reg) hc)) rfl rfl rfl rfl ha hl
  rw [hv.sample] at hx
  exact ⟨v, hv, hrest, execTimes_whole hc hx hv.kept⟩

/-- WRREG from acceptance to answer, through its write (41_register_access.md R130, R136). -/
theorem wrreg_run (reg : RegIdx) (value : Word) {s : State} {ws : List Word} {rest : List (Option Draw)}
    (hc : CanAccept s) (ha : s.answers = allOk ws ++ rest) (hl : ws.length = 38) :
    ∃ v, WriteDone reg value (s.accept (reqOf (.wrreg reg value))).startWrite v ∧ v.answers = rest ∧
      execTimes (.wrreg reg value) 40 s = .next ((v.owe (reply .ok 0x0000)).respond (reply .ok 0x0000)) := by
  obtain ⟨v, hx, hv, hrest⟩ :=
    write_block (callsWrite_wrreg (serving_beginOf (.wrreg reg value) hc)) rfl rfl ha hl
  exact ⟨v, hv, hrest, execTimes_whole hc hx hv.kept⟩

/-- Settles O27: `rdreg_run`, whose read says what it did (`ReadDone`) and what it left alone (`RapKept`). -/
theorem rdregCompletes : Obligations.RdregCompletes := by
  intro reg s ws rest hc ha hl
  obtain ⟨v, hv, hrest, hx⟩ := rdreg_run reg hc ha hl
  obtain ⟨-, hbi, hr⟩ := hc
  have hk := hv.kept
  exact ⟨_, hx, ⟨rfl, hv.bi.trans hbi, hk.refused.trans hr⟩, rfl, requestTrace_eq hk.traceMark hv.trace, hv.trace,
    hv.bi.trans hbi, hv.sample, hv.cs, hv.ad, hv.sr, hv.sw, hv.released, hk.led, hk.rst, hk.idbuf, hk.stw, hk.k, hk.wc,
    hk.np, hk.cfgerr, hk.inbox, hrest⟩

/-- Settles O28: `wrreg_run`, whose write says what it did (`WriteDone`) and what it left alone (`RapKept`). -/
theorem wrregCompletes : Obligations.WrregCompletes := by
  intro reg value s ws rest hc ha hl
  obtain ⟨v, hv, hrest, hx⟩ := wrreg_run reg value hc ha hl
  obtain ⟨-, hbi, hr⟩ := hc
  have hk := hv.kept
  exact ⟨_, hx, ⟨rfl, hv.bi.trans hbi, hk.refused.trans hr⟩, rfl, requestTrace_eq hk.traceMark hv.trace, hv.trace,
    hv.bi.trans hbi, hv.sample, hv.cs, hv.ad, hv.sw, hv.sr, hv.released, hk.led, hk.rst, hk.idbuf, hk.stw, hk.k, hk.wc,
    hk.np, hk.cfgerr, hk.inbox, hrest⟩

/-! ## What a trace drives on the data lines -/

/-- An event that drives no data line: the loopback environment's level of every line stays. -/
def DrivesNothing (e : TraceEntry) : Prop := ∀ i old, loopbackBit i old e = old

theorem foldl_loopbackBit_of_drivesNothing {l : List TraceEntry} (h : ∀ e ∈ l, DrivesNothing e) (i : BitVec 4)
    (old : Bool) : l.foldl (loopbackBit i) old = old := by
  induction l with
  | nil => rfl
  | cons e l ih =>
    obtain ⟨he, hl⟩ := List.forall_mem_cons.mp h
    rw [List.foldl_cons, he, ih hl]

/-- Driving the first lines of a word, one by one, sets the level of each of them to its bit, whatever it was. -/
theorem foldl_loopbackBit_drive (v : Word) (i : BitVec 4) (old : Bool) {n : Nat} (hn : n ≤ 16) :
    ((List.range n).map fun j => (⟨.setDir (BitVec.ofNat 4 j) (.output (v.getLsbD j)), .ok⟩ : TraceEntry)).foldl
      (loopbackBit i) old = if i.toNat < n then v.getLsbD i.toNat else old := by
  induction n with
  | zero => rfl
  | succ n ih =>
    have hline : BitVec.ofNat 4 n = i ↔ i.toNat = n := by
      rw [BitVec.toNat_eq, BitVec.toNat_ofNat, Nat.mod_eq_of_lt (by omega), eq_comm]
    simp only [List.range_succ, List.map_append, List.foldl_append, ih (by omega), List.map_cons, List.map_nil,
      List.foldl_cons, List.foldl_nil, loopbackBit, hline]
    by_cases hi : i.toNat = n
    · rw [if_pos hi, if_pos (by omega), hi]
    · rw [if_neg hi]
      exact if_congr (by omega) rfl rfl

/-- The last word driven is the one that the lines carry, if nothing is driven after it (41_register_access.md R137). -/
theorem loopbackWord_of_drive (before after : List TraceEntry) (v : Word) (h : ∀ e ∈ after, DrivesNothing e) :
    loopbackWord (before ++ driveEvents v ++ after) = v := by
  refine BitVec.eq_of_getElem_eq fun i hi => ?_
  rw [loopbackWord, BitVec.getElem_ofFnLE]
  rw [List.foldl_append, List.foldl_append, foldl_loopbackBit_of_drivesNothing h, driveEvents,
    foldl_loopbackBit_drive v _ _ le_rfl]
  simp [hi]

/-! ## The first twenty primitives of a read -/

/-- The events of a read before it samples (41_register_access.md R125). -/
def preSampleEvents (r : RegIdx) : List TraceEntry :=
  releaseEvents ++ selectEvents r ++ [⟨.setLines (.sr 1), .ok⟩, ⟨.sleep 1 100, .done⟩]

theorem releaseEvents_driveNothing : ∀ e ∈ releaseEvents, DrivesNothing e := by
  intro e he
  obtain ⟨j, -, rfl⟩ := List.mem_map.mp he
  exact fun _ _ => rfl

theorem preSampleEvents_driveNothing (r : RegIdx) : ∀ e ∈ preSampleEvents r, DrivesNothing e := by
  intro e he
  simp only [preSampleEvents, selectEvents, List.mem_append, List.mem_cons, List.not_mem_nil, or_false] at he
  rcases he with (he | rfl | rfl) | rfl | rfl
  · exact releaseEvents_driveNothing e he
  all_goals exact fun _ _ => rfl

/-- A step of a read that goes on, as a step of the request that called it. -/
theorem CallsRead.more {i : Instr} {r : RegIdx} {onOk : State → State} {s u v : State} (hc : CallsRead i r onOk s)
    (hk : RapKept s u) (hp : readPosition u) (hx : rapRead r u = .more v) : exec i u = .next v ∧ RapKept s v :=
  ⟨step_more (hc u hk hp) hx, hk.trans (rapRead_frame (Or.inl hx)).1.kept⟩

/-- From line 15 of step 1 to the sample: five primitives. -/
theorem read_to_sample {i : Instr} {r : RegIdx} {onOk : State → State} {s u : State} (hc : CallsRead i r onOk s)
    (hk : RapKept s u) (hop : u.rapop = .read) (hst : u.rstep = 1) (hj : u.j = 15) {a b c d e : Word}
    {rest : List (Option Draw)} (ha : u.answers = allOk [a, b, c, d, e] ++ rest) :
    ∃ m, execTimes i 5 u = .next m ∧ m.answers = rest ∧
      m.trace = u.trace ++ [lineEvent (fun _ => .input) 15] ++ selectEvents r ++
        [⟨.setLines (.sr 1), .ok⟩, ⟨.sleep 1 100, .done⟩] := by
  let u1 := ((u.record (.setDir u.j .input) .ok).withLines (Lines.setD u.lines u.j .input)).atStep .select 1
  let u2 := ((u1.record (.setLines (.cs csValue)) .ok).withLines (Lines.drive u1.lines (.cs csValue))).atStep .select 2
  let u3 := ((u2.record (.setLines (.ad r)) .ok).withLines (Lines.drive u2.lines (.ad r))).atStep .read 3
  let u4 := ((u3.record (.setLines (.sr strobeOn)) .ok).withLines (Lines.drive u3.lines (.sr strobeOn))).atStep .read 4
  let u5 := (u4.record (.sleep strobeMinUs strobeMaxUs) .done).atStep .read 5
  have a1 : u1.answers = some ⟨none, b⟩ :: (allOk [c, d, e] ++ rest) := by
    simp [u1, consume_cons (a := some ⟨none, a⟩) ha, allOk]
  have a2 : u2.answers = some ⟨none, c⟩ :: (allOk [d, e] ++ rest) := by simp [u2, consume_cons a1, allOk]
  have a3 : u3.answers = some ⟨none, d⟩ :: (allOk [e] ++ rest) := by simp [u3, consume_cons a2, allOk]
  have a4 : u4.answers = some ⟨none, e⟩ :: rest := by simp [u4, consume_cons a3, allOk]
  obtain ⟨e0, k1⟩ := hc.more (v := u1) hk (Or.inl ⟨hop, Or.inl hst⟩) (by
    simp [rapRead, hop, hst, setDir_ok ha, Exchange.thenMore, State.nextLine, hj, u1, DirCmd.state])
  obtain ⟨e1, k2⟩ := hc.more (v := u2) k1 (Or.inr ⟨rfl, Or.inl rfl⟩) (by
    simp only [rapRead, rapSelect, setLines_ok a1]; rfl)
  obtain ⟨e2, k3⟩ := hc.more (v := u3) k2 (Or.inr ⟨rfl, Or.inr rfl⟩) (by
    simp only [rapRead, rapSelect, setLines_ok a2]; rfl)
  obtain ⟨e3, k4⟩ := hc.more (v := u4) k3 (Or.inl ⟨rfl, by simp [u3]⟩) (by
    simp only [rapRead, readAssert, setLines_ok a3]; rfl)
  obtain ⟨e4, -⟩ := hc.more (v := u5) k4 (Or.inl ⟨rfl, by simp [u4]⟩) (by simp only [rapRead, sleep_ok a4]; rfl)
  exact ⟨u5, by simp [execTimes, e0, e1, e2, e3, e4], by simp [u5, consume_cons a4],
    by simp [u5, u4, u3, u2, u1, lineEvent, selectEvents, hj, csValue, strobeOn, strobeMinUs, strobeMaxUs]⟩

/-- The first 20 primitives of a read that nothing fails: the next answer is the one that it samples
(41_register_access.md R125, R141). -/
theorem read_before_sample {i : Instr} {r : RegIdx} {onOk : State → State} {s : State} (hc : CallsRead i r onOk s)
    (hop : s.rapop = .read) (hst : s.rstep = 1) (hj : s.j = 0) {ws : List Word} {rest : List (Option Draw)}
    (ha : s.answers = allOk ws ++ rest) (hl : ws.length = 22) :
    ∃ m, execTimes i 20 s = .next m ∧ m.answers.head? = some (some ⟨none, sampled ws⟩) ∧
      m.trace = s.trace ++ preSampleEvents r := by
  obtain ⟨ws1, ws2, rfl, hl1, hl2⟩ := split_at (n := 15) (m := 7) hl
  match ws2, hl2 with
  | [a, b, c, d, e, f, g], _ =>
  obtain ⟨u, hu, hd, hua⟩ := loop_run (i := i) (D := fun _ => .input) (op := .read) (st := 1) (s := s)
    (fun u w rest hk hop hst hj ha => by
      refine step_more (hc u hk (Or.inl ⟨hop, Or.inl hst⟩)) ?_
      simp only [rapRead, hop, hst, setDir_ok ha, Exchange.thenMore, State.nextLine, withLines_j, record_j, if_neg hj,
        lineDone])
    15 s ws1 (allOk [a, b, c, d, e] ++ (allOk [f, g] ++ rest)) (by simp [hj]) (RapKept.refl s) hop hst
    (by simpa [allOk] using ha) hl1
  obtain ⟨m, hm, hma, hmt⟩ :=
    read_to_sample hc hd.kept (hd.rapop.trans hop) (hd.rstep.trans hst) hd.j hua
  refine ⟨m, ?_, by simp [hma, allOk, sampled, List.getD, hl1], ?_⟩
  · rw [show 20 = 15 + 5 from rfl, execTimes_add hu]
    exact hm
  · rw [hmt, hd.trace, hj]
    simp [preSampleEvents, releaseEvents, lineEvent, List.range'_succ, List.range_eq_range']

/-! ## A read after a write -/

/-- After a WRREG and the first 20 primitives of a read, the last word driven is the value written: the write's second
half and the read drive nothing (41_register_access.md R130, R137). -/
theorem loopbackWord_after_write (before : List TraceEntry) (reg r : RegIdx) (v : Word) :
    loopbackWord (before ++ writeEvents reg v ++ preSampleEvents r) = v := by
  have hsplit : before ++ writeEvents reg v ++ preSampleEvents r = (before ++ selectEvents reg) ++ driveEvents v ++
      ([⟨.setLines (.sw 1), .ok⟩, ⟨.sleep 1 100, .done⟩, ⟨.setLines (.sw 0), .ok⟩, ⟨.sleep 1 100, .done⟩] ++
        releaseEvents ++ preSampleEvents r) := by
    simp only [writeEvents, List.append_assoc]
  rw [hsplit]
  refine loopbackWord_of_drive _ _ v fun e he => ?_
  simp only [List.mem_append, List.mem_cons, List.not_mem_nil, or_false] at he
  rcases he with ((rfl | rfl | rfl | rfl) | he) | he
  case inl.inr => exact releaseEvents_driveNothing e he
  case inr => exact preSampleEvents_driveNothing r e he
  all_goals exact fun _ _ => rfl

/-- Settles O29: the read after the write samples at its 21st primitive, when the trace carries the value written
(`loopbackWord_after_write`), and it answers its sample (O27). -/
theorem loopbackRoundTrip : Obligations.LoopbackRoundTrip := by
  intro reg v s ws ws' rest hc ha hl hl'
  obtain ⟨t, ht, htc, hresp, -, htrace, -, -, -, -, -, -, -, -, -, -, -, -, -, -, -, -, hta⟩ :=
    wrregCompletes reg v s ws _ hc ha hl
  obtain ⟨m, hm, hhead, hmt⟩ :=
    read_before_sample (callsRead_rdreg (serving_beginOf (.rdreg reg) htc)) rfl rfl rfl hta hl'
  refine ⟨t, m, ht, hresp, by rw [execTimes_succ (exec_accept htc)]; exact hm, hhead, fun hloop => ?_⟩
  obtain ⟨u, hu, -, hanswer, -⟩ := rdregCompletes reg t ws' rest htc hta hl'
  have hmtrace : m.trace = s.trace ++ writeEvents reg v ++ preSampleEvents reg := by
    rw [hmt, beginOf_trace, accept_trace, htrace]
  rw [hmtrace, loopbackWord_after_write] at hloop
  exact ⟨u, hu, by rw [hanswer, hloop]⟩

end Sys2Proof.Machine
end

section
/-! PROOFS. The stages of IDENTIFY as RAP calls, and the single steps at which the Sequencer decides: the presence test,
the fixed wait and the tests of a poll read (42_identify.md R150 to R162). -/

namespace Sys2Proof.Machine

/-! ## The mode of the request (30_encoding.md R89) -/

theorem Serving.mode_identFix {s : State} (hs : Serving .identFix s) : s.req.mode = 0 := by
  obtain ⟨-, -, hq, -⟩ := hs
  rw [hq]
  rfl

theorem Serving.mode_identPoll {s : State} (hs : Serving .identPoll s) : s.req.mode ≠ 0 := by
  obtain ⟨-, -, hq, -⟩ := hs
  rw [hq]
  decide

/-! ## Each stage calls a RAP function -/

section
variable {i : Instr} {s : State} (hi : i = .identFix ∨ i = .identPoll) (hs : Serving i s)
include hi hs

theorem exec_identify : exec i s = identifyStep s := by
  rw [exec_serving hs]
  rcases hi with rfl | rfl <;> rfl

theorem callsWrite_selectDrive (hseq : s.seq = .selectDrive) :
    CallsWrite i regLba3 devSelectValue afterSelectDrive s := fun u hk _ => by
  rw [exec_identify hi (hs.of_kept hk), identifyStep, hk.seq, hseq]

theorem callsWrite_clearParams (hseq : s.seq = .clearParams) :
    CallsWrite i (clearReg s.k) clearValue afterClear s := fun u hk _ => by
  rw [exec_identify hi (hs.of_kept hk), identifyStep, hk.seq, hseq, ← hk.k]

theorem callsWrite_issueCommand (hseq : s.seq = .issueCommand) :
    CallsWrite i regStatus identifyOpcode afterCommand s := fun u hk _ => by
  rw [exec_identify hi (hs.of_kept hk), identifyStep, hk.seq, hseq]

theorem callsRead_checkPresence (hseq : s.seq = .checkPresence) :
    CallsRead i regStatus afterPresence s := fun u hk _ => by
  rw [exec_identify hi (hs.of_kept hk), identifyStep, hk.seq, hseq]

theorem callsRead_poll (hseq : s.seq = .awaitDataReady) (hm : s.req.mode ≠ 0) :
    CallsRead i regStatus afterPoll s := fun u hk hp => by
  simp only [exec_identify hi (hs.of_kept hk), identifyStep, hk.seq, hseq, if_neg (readPosition_rapop hp), hk.req,
    if_neg hm]

theorem callsRead_burst (hseq : s.seq = .burstRead) (hwc : s.wc.toNat < identWords) :
    CallsRead i regData afterData s := fun u hk _ => by
  simp only [exec_identify hi (hs.of_kept hk), identifyStep, hk.seq, hseq, hk.wc, if_pos hwc]

end

/-- The step in which a read succeeds goes on to what its caller does with the word sampled. -/
theorem CallsRead.returns {i : Instr} {r : RegIdx} {onOk : State → State} {s : State} {w : Word}
    (hc : CallsRead i r onOk s) (hends : readEnds s) (ha : s.answer = some ⟨none, w⟩) :
    ∃ u, exec i s = .next (onOk u) ∧ RapKept s u ∧ u.sample = s.sample := by
  obtain ⟨u, hx, hk, hsample⟩ := rapRead_ok_of_readEnds r hends ha
  obtain ⟨hop, hst, -⟩ := hends
  exact ⟨u, exec_of_ok (hc s (RapKept.refl s) (Or.inl ⟨hop, by simp [hst]⟩)) hx, hk, hsample⟩

/-! ## Between two RAP calls -/

section
variable {u : State}

theorem afterClear_of_more (h : u.k ≠ 3) : afterClear u = (u.withK (u.k + 1)).startWrite := if_neg h

theorem afterClear_of_last (h : u.k = 3) : afterClear u = (u.inStage .issueCommand).startWrite := if_pos h

/-- The presence test compares the whole word with 0 (42_identify.md R154). -/
theorem driveAbsent_iff (w : Word) : driveAbsent w = true ↔ w = 0x0000 := beq_iff_eq

theorem afterPresence_of_absent (h : u.sample = 0x0000) :
    afterPresence u = (u.withStw u.sample).owe (reply .absent 0x0000) := if_pos ((driveAbsent_iff _).mpr h)

theorem afterPresence_of_fixed (h : u.sample ≠ 0x0000) (hm : u.req.mode = 0) :
    afterPresence u = ((u.withStw u.sample).inStage .awaitDataReady).startWait := by
  rw [afterPresence, if_neg (mt (driveAbsent_iff _).mp h), if_pos hm]

theorem afterPresence_of_poll (h : u.sample ≠ 0x0000) (hm : u.req.mode ≠ 0) :
    afterPresence u = (((u.withStw u.sample).inStage .awaitDataReady).withNp 0).startRead := by
  rw [afterPresence, if_neg (mt (driveAbsent_iff _).mp h), if_neg hm]

theorem statusErr_eq (w : Word) : statusErr w = w[0] := rfl

/-- Ready is BSY clear and DRQ set (42_identify.md R159). -/
theorem dataReady_iff (w : Word) : dataReady w = true ↔ w[7] = false ∧ w[3] = true := by
  simp [dataReady, statusBsy, statusDrq]

theorem dataReady_eq_false_iff (w : Word) : dataReady w = false ↔ ¬ (w[7] = false ∧ w[3] = true) := by
  rw [← dataReady_iff, Bool.not_eq_true]

/-- A poll read is counted and its word is kept, whatever the tests say (42_identify.md R158). -/
@[simp] def pollCounted (u : State) : State := (u.withNp (u.np + 1)).withStw u.sample

theorem afterPoll_of_error (he : statusErr u.sample = true) :
    afterPoll u = (pollCounted u).owe (reply .deviceError u.sample) := if_pos he

section
variable (he : statusErr u.sample = false)
include he

theorem afterPoll_of_ready (hr : dataReady u.sample = true) : afterPoll u = startBurst (pollCounted u) := by
  simp only [afterPoll, he, hr, if_true, Bool.false_eq_true, if_false, pollCounted]

theorem afterPoll_of_timeout (hr : dataReady u.sample = false) (hn : u.np + 1 = u.params.pollMaxReads) :
    afterPoll u = (pollCounted u).owe (reply .protocolTimeout u.sample) := by
  simp only [afterPoll, he, hr, if_pos hn, Bool.false_eq_true, if_false, pollCounted]

theorem afterPoll_of_waiting (hr : dataReady u.sample = false) (hn : u.np + 1 ≠ u.params.pollMaxReads) :
    afterPoll u = (pollCounted u).startWait := by
  simp only [afterPoll, he, hr, if_neg hn, Bool.false_eq_true, if_false, pollCounted]

end

@[simp] theorem afterPoll_np : (afterPoll u).np = u.np + 1 := by
  simp only [afterPoll]
  split_ifs <;> rfl

@[simp] theorem afterPoll_stw : (afterPoll u).stw = u.sample := by
  simp only [afterPoll]
  split_ifs <;> rfl

end

/-! ## The Sequencer's own sleeps -/

section
variable {s : State} {a : Draw} (hseq : s.seq = .awaitDataReady) (hop : s.rapop = .none) (ha : s.answer = some a)
include hseq hop ha

/-- The fixed wait, and BURST_READ after it (42_identify.md R156). -/
theorem exec_fixedWait (hs : Serving .identFix s) :
    exec .identFix s = .next (startBurst (s.record (.sleep identDelayMinUs s.params.identDelayMaxUs) .done)) := by
  simp only [exec_identify (Or.inl rfl) hs, identifyStep, hseq, hop, if_true, awaitSleep, if_pos hs.mode_identFix,
    sleep_then ha]

/-- The sleep between two poll reads (42_identify.md R158). -/
theorem exec_pollSleep (hs : Serving .identPoll s) :
    exec .identPoll s =
      .next (s.record (.sleep s.params.pollSleepMinUs s.params.pollSleepMaxUs) .done).startRead := by
  simp only [exec_identify (Or.inr rfl) hs, identifyStep, hseq, hop, if_true, awaitSleep, if_neg hs.mode_identPoll,
    sleep_then ha]

end

/-! ## The statements -/

/-- Settles O42: the fixed wait is an exchange (`record_eq`), and BURST_READ begins. -/
theorem fixedWaitIsOneSleep : Obligations.FixedWaitIsOneSleep :=
  fun s _ hs hseq hop ha => ⟨_, exec_fixedWait hseq hop ha hs, congrArg startBurst (record_eq s ..)⟩

/-- Settles O43: the read returns by `CallsRead.returns`; an absent drive is answered, and a present one is waited for
as the mode of the request says. -/
theorem presenceTestIsOnTheWholeWord : Obligations.PresenceTestIsOnTheWholeWord := by
  intro i s w hi hs hseq hop hst hperr ha
  obtain ⟨u, hx, hk, hsample⟩ := (callsRead_checkPresence hi hs hseq).returns ⟨hop, hst, hperr⟩ ha
  have hsu := hs.of_kept hk
  obtain ⟨-, -, -, hd⟩ := id hsu
  refine ⟨afterPresence u, hx, ?_⟩
  rw [← hsample]
  by_cases hw : u.sample = 0x0000
  · rw [afterPresence_of_absent hw]
    exact ⟨rfl, fun _ => rfl, absurd hw⟩
  · rcases hi with rfl | rfl
    · rw [afterPresence_of_fixed hw hsu.mode_identFix]
      exact ⟨rfl, (absurd · hw), fun _ => ⟨hd, rfl, fun _ => rfl, nofun⟩⟩
    · rw [afterPresence_of_poll hw hsu.mode_identPoll]
      exact ⟨rfl, (absurd · hw), fun _ => ⟨hd, rfl, nofun, fun _ => ⟨rfl, rfl, rfl⟩⟩⟩

/-- Settles O44: the read returns by `CallsRead.returns`, and each test leads to its branch of `afterPoll`. -/
theorem pollTestsInOrder : Obligations.PollTestsInOrder := by
  intro s w hs hseq hop hst hperr ha
  obtain ⟨u, hx, hk, hsample⟩ := (callsRead_poll (Or.inr rfl) hs hseq hs.mode_identPoll).returns ⟨hop, hst, hperr⟩ ha
  obtain ⟨hr, hes, hq, hd⟩ := hs.of_kept hk
  refine ⟨afterPoll u, hx, by rw [afterPoll_np, hk.np], by rw [afterPoll_stw, hsample], ?_⟩
  rw [← hsample, ← hk.np, ← hk.params, ← statusErr_eq]
  split_ifs with he hready hlast
  · rw [afterPoll_of_error he]; rfl
  · rw [afterPoll_of_ready (by simpa using he) ((dataReady_iff _).mpr hready)]
    exact ⟨hd, rfl, rfl, rfl⟩
  · rw [afterPoll_of_timeout (by simpa using he) ((dataReady_eq_false_iff _).mpr hready) hlast]; rfl
  · rw [afterPoll_of_waiting (by simpa using he) ((dataReady_eq_false_iff _).mpr hready) hlast]
    have hseq' : (pollCounted u).startWait.seq = .awaitDataReady := hk.seq.trans hseq
    refine ⟨hd, hseq', fun x hx' => ⟨_, exec_pollSleep hseq' rfl hx' ⟨hr, hes, hq, hd⟩, ?_, rfl, rfl, ?_⟩⟩
    · simp [pollCounted]
    · simpa using hseq'

end Sys2Proof.Machine
end

section
/-! PROOFS. What a step of IDENTIFY leaves unchanged, the steps in which its counters change, and the lines after a poll
that fails (42_identify.md R163, R166, R167, R169, 60_exceptions.md R199). -/

namespace Sys2Proof.Machine

/-! ## The counters of the Sequencer -/

/-- The counters of the Sequencer, its status word and the Identify Buffer are kept. -/
structure CountersKept (s t : State) : Prop where
  stw : t.stw = s.stw
  k : t.k = s.k
  wc : t.wc = s.wc
  np : t.np = s.np
  idbuf : t.idbuf = s.idbuf

theorem CountersKept.refl (s : State) : CountersKept s s := ⟨rfl, rfl, rfl, rfl, rfl⟩

theorem RapFrame.countersKept {s u : State} (h : RapFrame s u) : CountersKept s u :=
  ⟨h.stw, h.k, h.wc, h.np, h.idbuf⟩

theorem afterClear_kept (u : State) :
    (afterClear u).stw = u.stw ∧ (afterClear u).wc = u.wc ∧ (afterClear u).np = u.np ∧
      (afterClear u).idbuf = u.idbuf := by
  unfold afterClear
  split <;> simp

theorem afterPresence_kept (u : State) :
    (afterPresence u).k = u.k ∧ (afterPresence u).wc = u.wc ∧ (afterPresence u).idbuf = u.idbuf := by
  unfold afterPresence
  split_ifs <;> simp

/-- Only the poll counts its reads (42_identify.md R158). -/
theorem afterPresence_np (u : State) : (afterPresence u).np = u.np ∨ u.req.mode ≠ 0 := by
  unfold afterPresence
  split_ifs with habsent hm
  · exact Or.inl rfl
  · exact Or.inl rfl
  · exact Or.inr hm

theorem afterPoll_kept (u : State) :
    (afterPoll u).k = u.k ∧ (afterPoll u).wc = u.wc ∧ (afterPoll u).idbuf = u.idbuf := by
  simp only [afterPoll]
  split_ifs <;> simp

theorem afterData_kept (u : State) :
    (afterData u).stw = u.stw ∧ (afterData u).k = u.k ∧ (afterData u).np = u.np := by
  simp only [afterData]
  split_ifs <;> simp

/-! ## A RAP call of the Sequencer: the counters are kept, or it succeeds -/

/-- Only a RAP function that returns `Ok` lets the Sequencer count. -/
theorem outcome_counters {x : RapStep} {s t : State} {onOk : State → State} (hx : ∀ u, x.Yields u → RapFrame s u)
    (h : x.outcome s onOk = .next t) : CountersKept s t ∨ ∃ u, x = .ok u ∧ RapFrame s u ∧ t = onOk u := by
  rcases outcome_cases h with ⟨-, rfl⟩ | ⟨u, h1, rfl⟩ | ⟨u, h1, rfl⟩ | ⟨e, u, h1, rfl⟩
  · exact Or.inl (CountersKept.refl _)
  · exact Or.inl (hx _ (Or.inl h1)).countersKept
  · exact Or.inr ⟨u, h1, hx _ (Or.inr (Or.inl h1)), rfl⟩
  · obtain ⟨hstw, hk, hwc, hnp, hidbuf⟩ := (hx _ (Or.inr (Or.inr ⟨e, h1⟩))).countersKept
    exact Or.inl ⟨hstw, hk, hwc, hnp, hidbuf⟩

section
variable {i : Instr} {s t : State} {onOk : State → State} (hs : Serving i s)
include hs

theorem outcome_read_counters {r : RegIdx} (h : (rapRead r s).outcome s onOk = .next t) :
    CountersKept s t ∨ readSucceeds s ∧ ∃ u, RapFrame s u ∧ t = onOk u := by
  refine (outcome_counters (fun _ hu => (rapRead_frame hu).1) h).imp_right ?_
  rintro ⟨u, hx, hf, ht⟩
  obtain ⟨hends, hanswer, -⟩ := rapRead_ok_inv hx
  obtain ⟨-, hes, -, hd⟩ := hs
  exact ⟨⟨hends, hes, hd, hanswer⟩, u, hf, ht⟩

theorem outcome_write_counters {r : RegIdx} {v : Word} (h : (rapWrite r v s).outcome s onOk = .next t) :
    CountersKept s t ∨ writeSucceeds s ∧ ∃ u, RapFrame s u ∧ t = onOk u := by
  refine (outcome_counters (fun _ hu => (rapWrite_frame hu).1) h).imp_right ?_
  rintro ⟨u, hx, hf, ht⟩
  obtain ⟨hends, hanswer, -⟩ := rapWrite_ok_inv hx
  obtain ⟨-, hes, -, hd⟩ := hs
  exact ⟨⟨hends, hes, hd, hanswer⟩, u, hf, ht⟩

end

theorem awaitSleep_counters {s t : State} (h : awaitSleep s = .next t) : CountersKept s t := by
  unfold awaitSleep at h
  split at h
  · rcases sleep_cases identDelayMinUs s.params.identDelayMaxUs s with ⟨-, hx⟩ | ⟨a, -, hx⟩ <;>
      simp only [hx, Exchange.thenMore, RapStep.outcome, Host.Outcome.next.injEq] at h <;> subst h
    · exact CountersKept.refl _
    · constructor <;> simp
  · rcases sleep_cases s.params.pollSleepMinUs s.params.pollSleepMaxUs s with ⟨-, hx⟩ | ⟨a, -, hx⟩ <;>
      simp only [hx, Exchange.thenMore, RapStep.outcome, Host.Outcome.next.injEq] at h <;> subst h
    · exact CountersKept.refl _
    · constructor <;> simp

/-! ## The frame of an IDENTIFY request -/

/-- In which steps of an IDENTIFY request each counter changes, and which bytes of the buffer (42_identify.md R163,
R169). -/
structure CountersFrame (i : Instr) (s t : State) : Prop where
  buffer : bufferKept s t
  stw : t.stw = s.stw ∨ CanAccept s ∨ (s.seq = .checkPresence ∨ s.seq = .awaitDataReady) ∧ readSucceeds s
  wc : t.wc = s.wc ∨ CanAccept s ∨ s.seq = .burstRead ∧ readSucceeds s
  np : t.np = s.np ∨ i = .identPoll ∧ (s.seq = .checkPresence ∨ s.seq = .awaitDataReady) ∧ readSucceeds s
  k : t.k = s.k ∨ (s.seq = .selectDrive ∨ s.seq = .clearParams) ∧ writeSucceeds s

theorem bufferKept_of_eq {s t : State} (h : t.idbuf = s.idbuf) : bufferKept s t := fun _ _ => by rw [h]

theorem CountersKept.frame {s t : State} (h : CountersKept s t) (i : Instr) : CountersFrame i s t :=
  ⟨bufferKept_of_eq h.idbuf, Or.inl h.stw, Or.inl h.wc, Or.inl h.np, Or.inl h.k⟩

section
variable {i : Instr} {s : State} (hi : i = .identFix ∨ i = .identPoll) (hs : Serving i s)
include hi hs

/-- The step in which a Data read succeeds stores its two bytes. -/
theorem storesAt_of_dataRead (hseq : s.seq = .burstRead) (h : readSucceeds s) : storesAt s = some (wordOffset s) := by
  obtain ⟨⟨hop, hst, hperr⟩, hes, hd, w, ha⟩ := h
  have hreq : s.req.op = 0b10 := by
    obtain ⟨-, -, hq, -⟩ := hs
    rw [hq]
    rcases hi with rfl | rfl <;> rfl
  simp only [storesAt, ha]
  exact if_pos ⟨hes, hd, hreq, hseq, hop, hst, hperr⟩

theorem bufferKept_afterData {u : State} (hseq : s.seq = .burstRead) (h : readSucceeds s) (hf : RapFrame s u) :
    bufferKept s (afterData u) := by
  intro k hk
  obtain ⟨hhigh, hlow⟩ := hk _ (storesAt_of_dataRead hi hs hseq h)
  have hoff : wordOffset u = wordOffset s := by rw [wordOffset, hf.wc, wordOffset]
  rw [afterData_idbuf, get_storeWord, hoff, if_neg hlow, if_neg hhigh, hf.idbuf]

theorem identPoll_of_mode (hm : s.req.mode ≠ 0) : i = .identPoll := by
  obtain ⟨-, -, hq, -⟩ := hs
  refine hi.resolve_left ?_
  rintro rfl
  exact hm (by rw [hq]; rfl)

/-- A primitive of an IDENTIFY request in service. -/
theorem identifyStep_counters {t : State} (h : identifyStep s = .next t) : CountersFrame i s t := by
  unfold identifyStep at h
  cases hst : s.seq <;> simp only [hst] at h
  case none => cases h
  case selectDrive =>
    rcases outcome_write_counters hs h with hk | ⟨hok, u, hf, rfl⟩
    · exact hk.frame i
    · exact ⟨bufferKept_of_eq hf.idbuf, Or.inl hf.stw, Or.inl hf.wc, Or.inl hf.np, Or.inr ⟨Or.inl hst, hok⟩⟩
  case clearParams =>
    rcases outcome_write_counters hs h with hk | ⟨hok, u, hf, rfl⟩
    · exact hk.frame i
    · obtain ⟨hstw, hwc, hnp, hidbuf⟩ := afterClear_kept u
      exact ⟨bufferKept_of_eq (hidbuf.trans hf.idbuf), Or.inl (hstw.trans hf.stw), Or.inl (hwc.trans hf.wc),
        Or.inl (hnp.trans hf.np), Or.inr ⟨Or.inr hst, hok⟩⟩
  case issueCommand =>
    rcases outcome_write_counters hs h with hk | ⟨-, u, hf, rfl⟩
    · exact hk.frame i
    · exact ⟨bufferKept_of_eq hf.idbuf, Or.inl hf.stw, Or.inl hf.wc, Or.inl hf.np, Or.inl hf.k⟩
  case checkPresence =>
    rcases outcome_read_counters hs h with hk | ⟨hok, u, hf, rfl⟩
    · exact hk.frame i
    · obtain ⟨hk, hwc, hidbuf⟩ := afterPresence_kept u
      refine ⟨bufferKept_of_eq (hidbuf.trans hf.idbuf), Or.inr (Or.inr ⟨Or.inl hst, hok⟩), Or.inl (hwc.trans hf.wc), ?_,
        Or.inl (hk.trans hf.k)⟩
      refine (afterPresence_np u).imp (·.trans hf.np) fun hm => ⟨identPoll_of_mode hi hs ?_, Or.inl hst, hok⟩
      rwa [← hf.req]
  case awaitDataReady =>
    split at h
    · exact (awaitSleep_counters h).frame i
    · split at h
      · cases h
      · rename_i hm
        rcases outcome_read_counters hs h with hk | ⟨hok, u, hf, rfl⟩
        · exact hk.frame i
        · obtain ⟨hk, hwc, hidbuf⟩ := afterPoll_kept u
          exact ⟨bufferKept_of_eq (hidbuf.trans hf.idbuf), Or.inr (Or.inr ⟨Or.inr hst, hok⟩), Or.inl (hwc.trans hf.wc),
            Or.inr ⟨identPoll_of_mode hi hs hm, Or.inr hst, hok⟩, Or.inl (hk.trans hf.k)⟩
  case burstRead =>
    split at h
    · rcases outcome_read_counters hs h with hk | ⟨hok, u, hf, rfl⟩
      · exact hk.frame i
      · obtain ⟨hstw, hk, hnp⟩ := afterData_kept u
        exact ⟨bufferKept_afterData hi hs hst hok hf, Or.inl (hstw.trans hf.stw), Or.inr (Or.inr ⟨hst, hok⟩),
          Or.inl (hnp.trans hf.np), Or.inl (hk.trans hf.k)⟩
    · cases h

end

/-- A step of an IDENTIFY request, acceptance and delivery among them. -/
theorem exec_identify_counters {i : Instr} {s t : State} (hi : i = .identFix ∨ i = .identPoll)
    (h : exec i s = .next t) : CountersFrame i s t := by
  obtain ⟨-, ⟨hc, rfl⟩ | ⟨-, -, rfl⟩ | ⟨-, -, r, -, rfl⟩ | ⟨hs, -⟩ | ⟨-, rfl⟩⟩ := exec_cases h
  · rcases hi with rfl | rfl
    all_goals exact ⟨fun _ _ => rfl, Or.inr (Or.inl hc), Or.inr (Or.inl hc), Or.inl rfl, Or.inl rfl⟩
  · exact CountersKept.frame (s := s) (t := s.refuse) ⟨rfl, rfl, rfl, rfl, rfl⟩ i
  · exact CountersKept.frame (s := s) (t := s.respond r) ⟨rfl, rfl, rfl, rfl, rfl⟩ i
  · rw [exec_identify hi hs] at h
    exact identifyStep_counters hi hs h
  · exact (CountersKept.refl _).frame i

/-- Settles O49: `exec_frame` for what no request changes, `exec_identify_counters` for the buffer and the counters. -/
theorem identifyFrame : Obligations.IdentifyFrame := by
  intro i s t hi h
  have hf := exec_frame h
  have hc := exec_identify_counters hi h
  exact ⟨hf.cfgerr, hf.params, hf.claim, hf.inbox, hf.led, hf.rst, hc.buffer, hf.bi, hf.rsp, hf.refused, hf.req, hc.stw,
    hc.wc, hc.np, hc.k⟩

/-! ## The lines after a poll that fails -/

/-- A response owed by the poll with one of its own codes was owed after a successful read of the Status register. -/
theorem Inv.pollFailure_read {s t : State} {r : Response} (h : Inv s) (hs : Serving .identPoll s)
    (hx : exec .identPoll s = .next t) (ht : t.due = some r) (hcode : r.code = 3 ∨ r.code = 4) :
    ∃ u, rapRead regStatus s = .ok u ∧ ReadState regStatus s ∧ t = afterPoll u := by
  obtain ⟨-, hes, hq, hd⟩ := id hs
  have hstep : identifyStep s = .next t := by rwa [exec_identify (Or.inr rfl) hs] at hx
  have hseq : s.seq = .awaitDataReady := by
    rcases identifyStep_due hd hstep ht with hc | ⟨-, hc⟩ | ⟨hseq, -⟩ | ⟨-, hc⟩
    case inr.inr.inl => exact hseq
    all_goals simp [hc] at hcode
  have hop : s.rapop ≠ .none := fun hop => by
    have hsleep : awaitSleep s = .next t := by simpa only [identifyStep, hseq, hop, if_true] using hstep
    simp [awaitSleep_due hd hsleep] at ht
  have hcall : currentCall s = some (.read regStatus) := by
    rw [currentCall_identify (Or.inr rfl) hq, stageCall, hseq]
    exact if_neg hop
  obtain ⟨hread, -⟩ := h.exec_read hs hcall
  rw [callsRead_poll (Or.inr rfl) hs hseq hs.mode_identPoll s (RapKept.refl s) hread.pos] at hx
  rcases outcome_cases hx with ⟨-, rfl⟩ | ⟨u, hu, rfl⟩ | ⟨u, hu, rfl⟩ | ⟨e, u, -, rfl⟩
  · simp [hd] at ht
  · simp [(rapRead_frame (Or.inl hu)).1.due, hd] at ht
  · exact ⟨u, hu, hread, rfl⟩
  · obtain rfl : busErrorReply e = r := by simpa using ht
    simp [busErrorReply, Code.bits] at hcode

/-- A read of the Status register that returns `Ok` (60_exceptions.md R199, 41_register_access.md R125). -/
theorem ReadState.statusReadDone_of_ok {s u : State} (h : ReadState regStatus s) (hx : rapRead regStatus s = .ok u) :
    u.bi = false ∧ statusReadDone u.lines := by
  rcases rapRead_spec h with ⟨-, h'⟩ | ⟨v, h', -⟩ | ⟨v, h', hb, -, hfree, ⟨hcs, had⟩, hsr⟩ | ⟨e, v, h', -⟩ <;>
    simp only [hx, reduceCtorEq, RapStep.ok.injEq] at h'
  subst h'
  exact ⟨hb, hfree, hsr, hcs.trans (by decide), had.trans (by decide)⟩

/-- Settles O41: the response follows a successful read of the Status register, and neither owing it nor delivering it
moves a line. -/
theorem linesAfterAPollFailure : Obligations.LinesAfterAPollFailure := by
  intro s t u r h hs hx ht hcode hu
  obtain ⟨v, hv, hread, rfl⟩ := h.pollFailure_read hs hx ht hcode
  obtain ⟨hbi, hlines⟩ := hread.statusReadDone_of_ok hv
  have hb := between_afterPoll v
  rw [← hb.bi] at hbi
  rw [← hb.lines] at hlines
  obtain ⟨hr, hes, hq, -⟩ := hs.of_kept (rapRead_frame (Or.inr (Or.inl hv))).1.kept
  rw [exec_due (hb.refused.trans hr) (hb.es.trans hes) (hb.req.trans hq) ht] at hu
  cases hu
  exact ⟨hbi, hlines, rfl, rfl, hbi, hlines⟩

end Sys2Proof.Machine
end

section
/-! PROOFS. Whole IDENTIFY requests that nothing fails: the first four stages, the poll and the burst, and the five ways
in which such a request ends (42_identify.md R150 to R168, R170). -/

namespace Sys2Proof.Machine

/-! ## A request on its way -/

/-- An IDENTIFY request that nothing has failed, some way after `s` accepted it: in service, with these events on
record, the blocks `done` read into the buffer and the answers `rest` to come. -/
structure Underway (i : Instr) (s : State) (events : List TraceEntry) (done : List (List Word))
    (rest : List (Option Draw)) (u : State) : Prop where
  serving : Serving i u
  bi : u.bi = false
  params : u.params = s.params
  traceMark : u.traceMark = s.trace.length
  trace : u.trace = s.trace ++ events
  answers : u.answers = rest
  wc : u.wc.toNat = done.length
  words : bufferHolds u.idbuf done
  untouched : done = [] → u.idbuf = s.idbuf

/-- The next primitive is the first one of a read (41_register_access.md R125). -/
def readBegins (u : State) : Prop := u.rapop = .read ∧ u.rstep = 1 ∧ u.j = 0 ∧ u.perr = none

/-- The next primitive is the first one of a write, its select (41_register_access.md R130). -/
def writeBegins (u : State) : Prop := u.rapop = .select ∧ u.rstep = 1

theorem readBegins_startRead (u : State) : readBegins u.startRead := ⟨rfl, rfl, rfl, rfl⟩

theorem writeBegins_startWrite (u : State) : writeBegins u.startWrite := ⟨rfl, rfl⟩

theorem allOk_append (a b : List Word) : allOk (a ++ b) = allOk a ++ allOk b := List.map_append

theorem execTimes_trans {i : Instr} {m n : Nat} {s t u : State} (h : execTimes i m s = .next t)
    (h' : execTimes i n t = .next u) : execTimes i (m + n) s = .next u := (execTimes_add h).trans h'

theorem execTimes_one {i : Instr} {s t : State} (h : exec i s = .next t) : execTimes i 1 s = .next t := execTimes_succ h

section
variable {i : Instr} {s : State} {events : List TraceEntry} {done : List (List Word)} {rest : List (Option Draw)}
  {u : State}

/-- What the Sequencer does between two primitives, unless it stores a word or owes a response. -/
theorem Underway.between {v : State} (h : Underway i s events done rest u) (hb : Between u v)
    (hd : v.due = u.due := by simp) (hw : v.wc = u.wc := by simp) (hm : v.idbuf = u.idbuf := by simp) :
    Underway i s events done rest v := by
  obtain ⟨hr, hes, hq, hdue⟩ := h.serving
  exact ⟨⟨hb.refused.trans hr, hb.es.trans hes, hb.req.trans hq, hd.trans hdue⟩, hb.bi.trans h.bi,
    hb.params.trans h.params, hb.traceMark.trans h.traceMark, hb.trace.trans h.trace, hb.answers.trans h.answers,
    hw ▸ h.wc, hm ▸ h.words, fun hn => hm.trans (h.untouched hn)⟩

/-- Primitives of the RAP or a sleep, with the events that they record. -/
theorem Underway.exchanged {v : State} {more : List TraceEntry} {rest' : List (Option Draw)}
    (h : Underway i s events done rest u) (hk : RapKept u v) (hbi : v.bi = u.bi) (ht : v.trace = u.trace ++ more)
    (ha : v.answers = rest') : Underway i s (events ++ more) done rest' v :=
  ⟨h.serving.of_kept hk, hbi.trans h.bi, hk.params.trans h.params, hk.traceMark.trans h.traceMark,
    by rw [ht, h.trace, List.append_assoc], ha, hk.wc ▸ h.wc, hk.idbuf ▸ h.words,
    fun hn => hk.idbuf.trans (h.untouched hn)⟩

theorem Underway.write {r : RegIdx} {v : Word} {onOk : State → State} {ws : List Word}
    (h : Underway i s events done (allOk ws ++ rest) u) (hc : CallsWrite i r v onOk u) (hw : writeBegins u)
    (hl : ws.length = 38) :
    ∃ t, execTimes i 38 u = .next (onOk t) ∧ WriteDone r v u t ∧
      Underway i s (events ++ writeEvents r v) done rest t := by
  obtain ⟨t, hx, ht, ha⟩ := write_block hc hw.1 hw.2 h.answers hl
  exact ⟨t, hx, ht, h.exchanged ht.kept ht.bi ht.trace ha⟩

theorem Underway.read {r : RegIdx} {onOk : State → State} {ws : List Word}
    (h : Underway i s events done (allOk ws ++ rest) u) (hc : CallsRead i r onOk u) (hr : readBegins u)
    (hl : ws.length = 22) :
    ∃ t, execTimes i 22 u = .next (onOk t) ∧ ReadDone r (sampled ws) u t ∧
      Underway i s (events ++ readEvents r (sampled ws)) done rest t := by
  obtain ⟨hop, hst, hj, hperr⟩ := hr
  obtain ⟨t, hx, ht, ha⟩ := read_block hc hop hst hj hperr h.answers hl
  exact ⟨t, hx, ht, h.exchanged ht.kept ht.bi ht.trace ha⟩

theorem Underway.sleep {a : Option Draw} (h : Underway i s events done (a :: rest) u) (lo hi : Nat) :
    Underway i s (events ++ [⟨.sleep lo hi, .done⟩]) done rest (u.record (.sleep lo hi) .done) :=
  h.exchanged (record_kept ..) (record_bi ..) rfl (consume_cons h.answers).1

/-- The response is delivered in a step of its own (60_exceptions.md R193). -/
theorem Underway.ends {n : Nat} {r : Response} (h : Underway i s events done rest u)
    (hx : execTimes i n s = .next (u.owe r)) : execTimes i (n + 1) s = .next ((u.owe r).respond r) := by
  obtain ⟨hr, hes, hq, -⟩ := h.serving
  exact execTimes_trans hx (execTimes_one (exec_due hr hes hq rfl))

theorem Underway.canAccept (h : Underway i s events done rest u) (r : Response) : CanAccept ((u.owe r).respond r) :=
  ⟨rfl, h.bi, h.serving.1⟩

theorem Underway.requestTrace (h : Underway i s events done rest u) (r : Response) :
    ((u.owe r).respond r).requestTrace = events := requestTrace_eq h.traceMark h.trace

end

/-! ## The first four stages (42_identify.md R151 to R154) -/

section
variable {i : Instr} {s : State} (hi : i = .identFix ∨ i = .identPoll)
include hi

theorem underway_accept {rest : List (Option Draw)} (hc : CanAccept s) (ha : s.answers = rest) :
    exec i s = .next (s.accept (reqOf i)).startIdentify ∧
      Underway i s [] [] rest (s.accept (reqOf i)).startIdentify := by
  have hbegin : beginOf i (s.accept (reqOf i)) = (s.accept (reqOf i)).startIdentify := by
    rcases hi with rfl | rfl <;> rfl
  have hs := serving_beginOf i hc
  obtain ⟨-, hbi, -⟩ := id hc
  rw [hbegin] at hs
  exact ⟨by rw [exec_accept hc, hbegin],
    ⟨hs, hbi, rfl, rfl, (List.append_nil _).symm, ha, rfl, nofun, fun _ => rfl⟩⟩

section
variable {events : List TraceEntry} {done : List (List Word)} {rest : List (Option Draw)} {u : State} {ws : List Word}

theorem Underway.selectDrive (h : Underway i s events done (allOk ws ++ rest) u) (hseq : u.seq = .selectDrive)
    (hw : writeBegins u) (hl : ws.length = 38) :
    ∃ t, execTimes i 38 u = .next t ∧ Underway i s (events ++ writeEvents 6 0x00A0) done rest t ∧
      t.seq = .clearParams ∧ t.k = 0 ∧ writeBegins t := by
  obtain ⟨t, hx, -, ht⟩ := h.write (callsWrite_selectDrive hi h.serving hseq) hw hl
  exact ⟨_, hx, ht.between (between_afterSelectDrive t), rfl, rfl, writeBegins_startWrite _⟩

theorem Underway.clearParam {k : BitVec 2} (h : Underway i s events done (allOk ws ++ rest) u)
    (hseq : u.seq = .clearParams) (hk : u.k = k) (hw : writeBegins u) (hl : ws.length = 38) (hmore : k ≠ 3) :
    ∃ t, execTimes i 38 u = .next t ∧ Underway i s (events ++ writeEvents (clearReg k) 0x0000) done rest t ∧
      t.seq = .clearParams ∧ t.k = k + 1 ∧ writeBegins t := by
  subst hk
  obtain ⟨t, hx, hd, ht⟩ := h.write (callsWrite_clearParams hi h.serving hseq) hw hl
  have hkt := hd.kept.k
  have hafter := between_afterClear t
  rw [afterClear_of_more (by rwa [hkt])] at hx hafter
  exact ⟨_, hx, ht.between hafter, hd.kept.seq.trans hseq, by rw [← hkt]; rfl, writeBegins_startWrite _⟩

theorem Underway.clearLastParam (h : Underway i s events done (allOk ws ++ rest) u)
    (hseq : u.seq = .clearParams) (hk : u.k = 3) (hw : writeBegins u) (hl : ws.length = 38) :
    ∃ t, execTimes i 38 u = .next t ∧ Underway i s (events ++ writeEvents 5 0x0000) done rest t ∧
      t.seq = .issueCommand ∧ writeBegins t := by
  obtain ⟨t, hx, hd, ht⟩ := h.write (callsWrite_clearParams hi h.serving hseq) hw hl
  have hafter := between_afterClear t
  rw [afterClear_of_last (hd.kept.k.trans hk)] at hx hafter
  rw [hk] at ht
  exact ⟨_, hx, ht.between hafter, rfl, writeBegins_startWrite _⟩

theorem Underway.issueCommand (h : Underway i s events done (allOk ws ++ rest) u) (hseq : u.seq = .issueCommand)
    (hw : writeBegins u) (hl : ws.length = 38) :
    ∃ t, execTimes i 38 u = .next t ∧ Underway i s (events ++ writeEvents 7 0x00EC) done rest t ∧
      t.seq = .checkPresence ∧ readBegins t := by
  obtain ⟨t, hx, -, ht⟩ := h.write (callsWrite_issueCommand hi h.serving hseq) hw hl
  exact ⟨_, hx, ht.between (between_afterCommand t), rfl, readBegins_startRead _⟩

end

/-- From acceptance to the end of the presence read: 250 primitives (42_identify.md R168). -/
theorem presence_run {pre pres : List Word} {rest : List (Option Draw)} (hc : CanAccept s)
    (ha : s.answers = allOk (pre ++ pres) ++ rest) (hpre : pre.length = 228) (hpres : pres.length = 22) :
    ∃ v, execTimes i 251 s = .next (afterPresence v) ∧ Underway i s (presenceEvents (sampled pres)) [] rest v ∧
      v.sample = sampled pres ∧ released v.lines := by
  obtain ⟨w1, ws, rfl, hl1, hl⟩ := split_at (n := 38) (m := 190) hpre
  obtain ⟨w2, ws, rfl, hl2, hl⟩ := split_at (n := 38) (m := 152) hl
  obtain ⟨w3, ws, rfl, hl3, hl⟩ := split_at (n := 38) (m := 114) hl
  obtain ⟨w4, ws, rfl, hl4, hl⟩ := split_at (n := 38) (m := 76) hl
  obtain ⟨w5, w6, rfl, hl5, hl6⟩ := split_at (n := 38) (m := 38) hl
  simp only [allOk_append, List.append_assoc] at ha
  obtain ⟨hx0, h0⟩ := underway_accept hi hc ha
  obtain ⟨t1, hx1, h1, hseq1, hk1, hb1⟩ := h0.selectDrive hi rfl (writeBegins_startWrite _) hl1
  obtain ⟨t2, hx2, h2, hseq2, hk2, hb2⟩ := h1.clearParam hi hseq1 hk1 hb1 hl2 (by decide)
  obtain ⟨t3, hx3, h3, hseq3, hk3, hb3⟩ := h2.clearParam hi hseq2 hk2 hb2 hl3 (by decide)
  obtain ⟨t4, hx4, h4, hseq4, hk4, hb4⟩ := h3.clearParam hi hseq3 hk3 hb3 hl4 (by decide)
  obtain ⟨t5, hx5, h5, hseq5, hb5⟩ := h4.clearLastParam hi hseq4 hk4 hb4 hl5
  obtain ⟨t6, hx6, h6, hseq6, hb6⟩ := h5.issueCommand hi hseq5 hb5 hl6
  obtain ⟨v, hx7, hd, h7⟩ := h6.read (callsRead_checkPresence hi h6.serving hseq6) hb6 hpres
  have hx := execTimes_trans (execTimes_trans (execTimes_trans (execTimes_trans (execTimes_trans (execTimes_trans
    (execTimes_trans (execTimes_one hx0) hx1) hx2) hx3) hx4) hx5) hx6) hx7
  exact ⟨v, hx, h7, hd.sample, hd.released⟩

end

/-! ## BURST_READ (42_identify.md R162, R163) -/

/-- A Data word is stored and counted. -/
@[simp] def wordStored (u : State) : State := (u.storeWord u.sample).withWc (u.wc + 1)

theorem afterData_eq (u : State) : afterData u =
    if (u.wc + 1).toNat = identWords then (wordStored u).owe (reply .ok u.stw) else (wordStored u).startRead := rfl

/-- The next word of the buffer is stored after the words that it holds. -/
theorem bufferHolds_storeWord {u : State} {done : List (List Word)} (h : bufferHolds u.idbuf done)
    (hw : u.wc.toNat = done.length) (b : List Word) :
    bufferHolds (u.storeWord (sampled b)).idbuf (done ++ [b]) := by
  intro i hlt
  simp only [get_storeWord, wordOffset, hw]
  rcases Nat.lt_succ_iff_lt_or_eq.mp (by simpa using hlt) with hi | rfl
  · rw [if_neg (by omega), if_neg (by omega), if_neg (by omega), if_neg (by omega), List.getD_append _ _ _ _ hi]
    exact h i hi
  · rw [if_neg (by omega), if_pos rfl, if_pos rfl, List.getD_append_right _ _ _ _ le_rfl, Nat.sub_self]
    exact ⟨rfl, rfl⟩

section
variable {i : Instr} {s : State} {rest : List (Option Draw)} (hi : i = .identFix ∨ i = .identPoll)
include hi

/-- One Data read, its word stored: the last one owes OK with `E.STW`. -/
theorem Underway.dataRead {events : List TraceEntry} {done : List (List Word)} {b : List Word} {u : State}
    (h : Underway i s events done (allOk b ++ rest) u) (hseq : u.seq = .burstRead) (hr : readBegins u)
    (hn : done.length < identWords) (hl : b.length = 22) :
    ∃ w, execTimes i 22 u =
        .next (if done.length + 1 = identWords then w.owe (reply .ok u.stw) else w.startRead) ∧
      Underway i s (events ++ readEvents 0 (sampled b)) (done ++ [b]) rest w ∧ w.seq = .burstRead ∧ w.stw = u.stw ∧
      w.np = u.np ∧ released w.lines := by
  obtain ⟨v, hx, hd, hv⟩ := h.read (callsRead_burst hi h.serving hseq (by rwa [h.wc])) hr hl
  have hcount : (v.wc + 1).toNat = done.length + 1 := by rw [wc_succ (by rwa [hv.wc]), hv.wc]
  have hwords := bufferHolds_storeWord hv.words hv.wc b
  rw [← hd.sample] at hwords
  rw [afterData_eq, hcount, hd.kept.stw] at hx
  refine ⟨wordStored v, hx, ⟨hv.serving, hv.bi, hv.params, hv.traceMark, hv.trace, hv.answers, ?_, hwords, by simp⟩,
    by simpa using hd.kept.seq.trans hseq, by simpa using hd.kept.stw, by simpa using hd.kept.np,
    by simpa using hd.released⟩
  rw [wordStored, withWc_wc, hcount, List.length_append, List.length_singleton]

/-- The Data reads up to word 255. -/
theorem burst_run {blocks : List (List Word)} : ∀ {done : List (List Word)} {events : List TraceEntry} {u : State},
    Underway i s events done (allOk blocks.flatten ++ rest) u → u.seq = .burstRead → readBegins u → blocks ≠ [] →
    done.length + blocks.length = identWords → (∀ b ∈ blocks, b.length = 22) →
    ∃ v, execTimes i (22 * blocks.length) u = .next (v.owe (reply .ok u.stw)) ∧
      Underway i s (events ++ burstEvents blocks) (done ++ blocks) rest v ∧ v.stw = u.stw ∧ v.np = u.np ∧
      released v.lines := by
  induction blocks with
  | nil => exact fun _ _ _ hne => absurd rfl hne
  | cons b blocks ih =>
    intro done events u h hseq hr _ hlen hblocks
    obtain ⟨hb, hblocks⟩ := List.forall_mem_cons.mp hblocks
    rw [List.flatten_cons, allOk_append, List.append_assoc] at h
    rw [List.length_cons] at hlen
    obtain ⟨w, hx, hw, hseq', hstw, hnp, hfree⟩ := h.dataRead hi hseq hr (by omega) hb
    by_cases hlast : blocks = []
    · subst hlast
      rw [if_pos (by simpa using hlen)] at hx
      exact ⟨w, hx, by simpa [burstEvents, allOk] using hw, hstw, hnp, hfree⟩
    · have hpos := List.length_pos_of_ne_nil hlast
      rw [if_neg (by omega)] at hx
      obtain ⟨v, hx', hv, hstw', hnp', hfree'⟩ := ih (u := w.startRead)
        (hw.between (by constructor <;> simp)) hseq' (readBegins_startRead w) hlast (by simp; omega) hblocks
      rw [startRead_stw, hstw] at hx' hstw'
      refine ⟨v, ?_, by simpa [burstEvents] using hv, hstw', hnp'.trans hnp, hfree'⟩
      rw [List.length_cons, Nat.mul_succ, Nat.add_comm]
      exact execTimes_trans hx hx'

/-- A whole BURST_READ, from the state in which it begins: 256 Data reads (42_identify.md R168). -/
theorem Underway.burst {events : List TraceEntry} {blocks : List (List Word)} {u : State}
    (h : Underway i s events [] (allOk blocks.flatten ++ rest) u) (hb : readBlocks 256 blocks) :
    ∃ v, execTimes i 5632 (startBurst u) = .next (v.owe (reply .ok u.stw)) ∧
      Underway i s (events ++ burstEvents blocks) blocks rest v ∧ v.wc = 256 ∧ v.stw = u.stw ∧ v.np = u.np ∧
      released v.lines := by
  obtain ⟨hlen, hblocks⟩ := hb
  obtain ⟨v, hx, hv, hstw, hnp, hfree⟩ := burst_run hi (u := startBurst u)
    (h.between (by constructor <;> simp)) rfl (readBegins_startRead _) (by rintro rfl; cases hlen)
    (by simpa [identWords] using hlen) hblocks
  rw [hlen] at hx
  exact ⟨v, hx, hv, BitVec.eq_of_toNat_eq (by rw [hv.wc]; exact hlen), hstw, hnp, hfree⟩

end

/-! ## The fixed wait (42_identify.md R156) -/

theorem Underway.fixedWait {s u : State} {events : List TraceEntry} {rest : List (Option Draw)} {d : Draw}
    (h : Underway .identFix s events [] (some d :: rest) u) (hseq : u.seq = .awaitDataReady) (hop : u.rapop = .none) :
    ∃ v, execTimes .identFix 1 u = .next (startBurst v) ∧
      Underway .identFix s (events ++ [⟨.sleep 1000000 s.params.identDelayMaxUs, .done⟩]) [] rest v ∧
      v.stw = u.stw := by
  have hx := exec_fixedWait hseq hop (answer_cons h.answers) h.serving
  rw [h.params] at hx
  exact ⟨_, execTimes_one hx, h.sleep _ _, record_stw ..⟩

/-! ## The poll (42_identify.md R158, R159) -/

theorem sampled_append {a : List Word} (h : 20 < a.length) (b : List Word) : sampled (a ++ b) = sampled a :=
  List.getD_append _ _ _ _ h

section
variable {s : State} {events : List TraceEntry} {rest : List (Option Draw)} {u : State}

theorem Underway.pollRead {ws : List Word} (h : Underway .identPoll s events [] (allOk ws ++ rest) u)
    (hseq : u.seq = .awaitDataReady) (hr : readBegins u) (hl : ws.length = 22) :
    ∃ v, execTimes .identPoll 22 u = .next (afterPoll v) ∧ ReadDone regStatus (sampled ws) u v ∧
      Underway .identPoll s (events ++ readEvents 7 (sampled ws)) [] rest v :=
  h.read (callsRead_poll (Or.inr rfl) h.serving hseq h.serving.mode_identPoll) hr hl

theorem Underway.counted (h : Underway .identPoll s events [] rest u) :
    Underway .identPoll s events [] rest (pollCounted u) :=
  h.between (by constructor <;> simp)

/-- A poll read that goes on, and the sleep after it. -/
theorem Underway.pollGoesOn {b : List Word} (h : Underway .identPoll s events [] (allOk b ++ rest) u)
    (hseq : u.seq = .awaitDataReady) (hr : readBegins u) (hl : b.length = 23) (he : statusErr (sampled b) = false)
    (hready : dataReady (sampled b) = false) (hn : u.np + 1 ≠ s.params.pollMaxReads) :
    ∃ v, execTimes .identPoll 23 u = .next v ∧
      Underway .identPoll s (events ++ (readEvents 7 (sampled b) ++
        [⟨.sleep s.params.pollSleepMinUs s.params.pollSleepMaxUs, .done⟩])) [] rest v ∧
      v.seq = .awaitDataReady ∧ readBegins v ∧ v.np = u.np + 1 := by
  obtain ⟨ws, x, rfl, hws, hx1⟩ := split_at (n := 22) (m := 1) hl
  obtain ⟨d, rfl⟩ := List.length_eq_one_iff.mp hx1
  rw [sampled_append (by omega)] at he hready ⊢
  rw [allOk_append, List.append_assoc] at h
  obtain ⟨v, hx, hd, hv⟩ := h.pollRead hseq hr hws
  rw [← hd.sample] at he hready
  rw [afterPoll_of_waiting he hready (by rwa [hd.kept.np, hv.params])] at hx
  have hwait : Underway .identPoll s (events ++ readEvents 7 (sampled ws)) [] (allOk [d] ++ rest)
      (pollCounted v).startWait := hv.counted.between (by constructor <;> simp)
  have hseq' : (pollCounted v).startWait.seq = .awaitDataReady := hd.kept.seq.trans hseq
  have hsleep := exec_pollSleep hseq' rfl (answer_cons hwait.answers) hwait.serving
  rw [hwait.params] at hsleep
  refine ⟨_, execTimes_trans hx (execTimes_one hsleep), ?_, by simpa using hseq', readBegins_startRead _, ?_⟩
  · rw [← List.append_assoc]
    exact (hwait.sleep _ _).between (by constructor <;> simp)
  · simp [pollCounted, hd.kept.np]

/-- The poll reads that go on. -/
theorem polls_run {polls : List (List Word)} : ∀ {events : List TraceEntry} {u : State},
    Underway .identPoll s events [] (allOk polls.flatten ++ rest) u → u.seq = .awaitDataReady → readBegins u →
    pollingBlocks polls → u.np + polls.length < s.params.pollMaxReads →
    ∃ v, execTimes .identPoll (23 * polls.length) u = .next v ∧
      Underway .identPoll s (events ++ pollingEvents s.params polls) [] rest v ∧ v.seq = .awaitDataReady ∧
      readBegins v ∧ v.np = u.np + polls.length := by
  induction polls with
  | nil => exact fun {events u} h hseq hr _ _ => ⟨u, rfl, by simpa [pollingEvents, allOk] using h, hseq, hr, rfl⟩
  | cons b polls ih =>
    intro events u h hseq hr hpolls hn
    obtain ⟨⟨hl, he, hready⟩, hpolls⟩ := List.forall_mem_cons.mp hpolls
    rw [List.flatten_cons, allOk_append, List.append_assoc] at h
    rw [List.length_cons] at hn
    obtain ⟨v, hx, hv, hseq', hr', hnp⟩ := h.pollGoesOn hseq hr hl he hready (by omega)
    obtain ⟨w, hx', hw, hseq'', hr'', hnp'⟩ := ih hv hseq' hr' hpolls (by omega)
    refine ⟨w, ?_, by simpa [pollingEvents] using hw, hseq'', hr'', by simp; omega⟩
    rw [List.length_cons, Nat.mul_succ, Nat.add_comm]
    exact execTimes_trans hx hx'

/-- From acceptance to the end of the last poll read. -/
theorem poll_run {pre pres last : List Word} {polls : List (List Word)} (hc : CanAccept s)
    (ha : s.answers = allOk (pre ++ pres ++ polls.flatten ++ last) ++ rest) (hpre : pre.length = 228)
    (hpres : pres.length = 22) (hpresent : sampled pres ≠ 0x0000) (hpolls : pollingBlocks polls)
    (hn : polls.length + 1 ≤ s.params.pollMaxReads) (hlast : last.length = 22) :
    ∃ v, execTimes .identPoll (273 + 23 * polls.length) s = .next (afterPoll v) ∧
      Underway .identPoll s (presenceEvents (sampled pres) ++ pollingEvents s.params polls ++
        readEvents 7 (sampled last)) [] rest v ∧
      v.sample = sampled last ∧ v.np = polls.length := by
  rw [List.append_assoc, allOk_append, List.append_assoc] at ha
  obtain ⟨p, hx, hp, hsample, -⟩ := presence_run (Or.inr rfl) hc ha hpre hpres
  rw [afterPresence_of_poll (by rwa [hsample]) hp.serving.mode_identPoll] at hx
  rw [allOk_append, List.append_assoc] at hp
  have hpoll := hp.between (v := (((p.withStw p.sample).inStage .awaitDataReady).withNp 0).startRead)
    (by constructor <;> simp)
  obtain ⟨q, hx', hq', hseq, hr, hnp⟩ := polls_run hpoll rfl (readBegins_startRead _) hpolls (by simpa using hn)
  obtain ⟨v, hx'', hd, hv⟩ := hq'.pollRead hseq hr hlast
  refine ⟨v, ?_, hv, hd.sample, by rw [hd.kept.np, hnp]; simp⟩
  rw [show 273 + 23 * polls.length = 251 + 23 * polls.length + 22 by omega]
  exact execTimes_trans (execTimes_trans hx hx') hx''

end

/-! ## The statements -/

/-- Settles O36: after the presence read (`presence_run`) ABSENT is owed, and nothing has been stored. -/
theorem identifyAbsentDrive : Obligations.IdentifyAbsentDrive := by
  intro i s pre pres rest hi hc ha hpre hpres habsent
  obtain ⟨v, hx, hv, hsample, hfree⟩ := presence_run hi hc ha hpre hpres
  rw [habsent] at hv hsample
  rw [afterPresence_of_absent hsample] at hx
  have hend := hv.between (v := v.withStw v.sample) (by constructor <;> simp)
  exact ⟨_, hend.ends hx, hend.canAccept _, rfl, hend.requestTrace _, hend.untouched rfl, hend.bi, hfree, hend.answers⟩

/-- Settles O37: the presence read, the fixed wait and the burst, one after the other. -/
theorem identFixCompletes : Obligations.IdentFixCompletes := by
  intro s pre pres d blocks rest hc ha hpre hpres hpresent hblocks
  rw [List.append_assoc, allOk_append, List.append_assoc] at ha
  obtain ⟨p, hx, hp, hsample, -⟩ := presence_run (Or.inl rfl) hc ha hpre hpres
  rw [afterPresence_of_fixed (by rwa [hsample]) hp.serving.mode_identFix] at hx
  have hwait := hp.between (v := ((p.withStw p.sample).inStage .awaitDataReady).startWait)
    (by constructor <;> simp)
  obtain ⟨q, hx', hq', hstw'⟩ := hwait.fixedWait rfl rfl
  obtain ⟨v, hx'', hv, hwc, hstw, -, hfree⟩ := hq'.burst (Or.inl rfl) hblocks
  have hstatus : q.stw = sampled pres := hstw'.trans hsample
  rw [hstatus] at hx'' hstw
  exact ⟨_, hv.ends (execTimes_trans (execTimes_trans hx hx') hx''), hv.canAccept _, rfl, hv.requestTrace _, hv.words,
    hwc, hstw, hv.bi, hfree, hv.answers⟩

/-- Settles O38: the last poll read (`poll_run`) shows the drive ready, and the burst follows it. -/
theorem identPollCompletes : Obligations.IdentPollCompletes := by
  intro s pre pres polls ready blocks rest hc ha hpre hpres hpresent hpolls hn hl herr hbsy hdrq hblocks
  rw [allOk_append, List.append_assoc] at ha
  obtain ⟨p, hx, hp, hsample, hnp⟩ := poll_run hc ha hpre hpres hpresent hpolls hn hl
  rw [afterPoll_of_ready (by rw [hsample]; exact herr)
    (by rw [hsample]; exact (dataReady_iff _).mpr ⟨hbsy, hdrq⟩)] at hx
  obtain ⟨v, hx', hv, hwc, hstw, hnp', hfree⟩ := hp.counted.burst (Or.inr rfl) hblocks
  have hstatus : (pollCounted p).stw = sampled ready := hsample
  rw [hstatus] at hx' hstw
  refine ⟨_, ?_, hv.canAccept _, rfl, hv.requestTrace _, hv.words, hwc, hnp'.trans (congrArg (· + 1) hnp), hstw, hv.bi,
    hfree, hv.answers⟩
  rw [show 5906 + 23 * polls.length = 273 + 23 * polls.length + 5632 + 1 by omega]
  exact hv.ends (execTimes_trans hx hx')

/-- Settles O39: the last poll read (`poll_run`) is neither ready nor in error, and it was the last one allowed. -/
theorem pollTimeout : Obligations.PollTimeout := by
  intro s pre pres polls last rest hc ha hpre hpres hpresent hpolls hn hl herr hready
  obtain ⟨p, hx, hp, hsample, hnp⟩ := poll_run hc ha hpre hpres hpresent hpolls hn.le hl
  have hcount : p.np + 1 = s.params.pollMaxReads := by rw [hnp, hn]
  rw [afterPoll_of_timeout (by rw [hsample]; exact herr) (by rw [hsample]; exact (dataReady_eq_false_iff _).mpr hready)
    (hcount.trans (congrArg _ hp.params.symm)), hsample] at hx
  have hend := hp.counted
  refine ⟨_, ?_, hend.canAccept _, rfl, hend.requestTrace _, hend.untouched rfl, hend.bi, hcount, hend.answers⟩
  rw [show 274 + 23 * polls.length = 273 + 23 * polls.length + 1 by omega]
  exact hend.ends hx

/-- Settles O40: the last poll read (`poll_run`) shows ERR, which is tested first. -/
theorem pollDeviceError : Obligations.PollDeviceError := by
  intro s pre pres polls last rest hc ha hpre hpres hpresent hpolls hn hl herr
  obtain ⟨p, hx, hp, hsample, -⟩ := poll_run hc ha hpre hpres hpresent hpolls hn hl
  rw [afterPoll_of_error (by rw [hsample]; exact herr), hsample] at hx
  have hend := hp.counted
  refine ⟨_, ?_, hend.canAccept _, rfl, hend.requestTrace _, hend.untouched rfl, hend.bi, hend.answers⟩
  rw [show 274 + 23 * polls.length = 273 + 23 * polls.length + 1 by omega]
  exact hend.ends hx

end Sys2Proof.Machine
end

section
/-! PROOFS. How a request comes to be accepted, refused or answered, what happens in CFGFAIL and at the end of a run, and
what a bus error or a silent environment does to the request in service (60_exceptions.md R192 to R215). -/

namespace Sys2Proof.Machine

/-! ## One step of the engine, by what it finds -/

section
variable {s : State} {w : Word32} {rest : List Move}

/-- A legal word that an engine can accept is run as its request (60_exceptions.md R207). -/
theorem step_of_legalWord {i : Instr} (hc : CanAccept s) (hi : s.inbox = .submit w :: rest) (hd : decode w = some i) :
    step s = exec i (s.withInbox rest) := by
  obtain ⟨hes, hbi, hr⟩ := hc
  simp [step, engineStep, hr, hes, idleStep, hi, submitWord, hbi, hd]

/-- A word submitted while `E.BI` = 1 leaves only the REFUSED mark (60_exceptions.md R196). -/
theorem step_of_wordAfterBusError (hr : s.refused = false) (hes : s.es = .idle) (hb : s.bi = true)
    (hi : s.inbox = .submit w :: rest) : step s = .next (s.withInbox rest).refuse := by
  simp [step, engineStep, hr, hes, idleStep, hi, submitWord, hb]

/-- No step follows the REFUSED mark (60_exceptions.md R196). -/
theorem stepTimes_of_refused (hr : s.refused = true) (n : Nat) :
    stepTimes (n + 1) s = .refused .requestAfterBusError := by
  simp [stepTimes, step, engineStep, hr]

theorem exec_of_refused (i : Instr) (hr : s.refused = true) : exec i s = .refused .requestAfterBusError := by
  simp [exec_eq_serve, serve, hr]

theorem exec_of_busError (i : Instr) (hr : s.refused = false) (hes : s.es = .idle) (hb : s.bi = true) :
    exec i s = .next s.refuse := by
  simp [exec_eq_serve, serve, hr, hes, hb]

/-- In CFGFAIL every request waits outside (60_exceptions.md R207). -/
theorem exec_of_cfgfail (i : Instr) (hr : s.refused = false) (hes : s.es = .cfgfail) : exec i s = .next s := by
  simp [exec_eq_serve, serve, hr, hes]

/-- A step that changes nothing is followed by steps that change nothing. -/
theorem stepTimes_of_fixed (h : step s = .next s) (n : Nat) : stepTimes n s = .next s := by
  induction n with
  | zero => rfl
  | succ n ih => simp only [stepTimes, h, ih]

end

/-! ## What a request latches (30_encoding.md R87 to R89) -/

section
variable (i : Instr) (s : State)

@[simp] theorem beginOf_req : (beginOf i s).req = s.req := by cases i <;> rfl
@[simp] theorem beginOf_inbox : (beginOf i s).inbox = s.inbox := by cases i <;> rfl

end

/-- The request that a word decodes to latches the fields of the word. -/
theorem reqOf_of_decode {w : Word32} {i : Instr} (h : decode w = some i) :
    reqOf i = ⟨w.extractLsb' 0 2, w.extractLsb' 2 3, w.extractLsb' 5 1, w.extractLsb' 16 16⟩ := by
  have hfields : i.fields = fieldsOf w := decodeFields_eq_some_iff.mp h
  have hlatch : reqOf i = ⟨i.fields.op, i.fields.reg, i.fields.mode, i.fields.value⟩ := by cases i <;> rfl
  rw [hlatch, hfields]
  rfl

/-! ## The reinit that a step takes -/

theorem firstReinit_isSome_of_mem {c : GroupClaim} {moves : List Move} (h : .reinit c ∈ moves) :
    (firstReinit moves).isSome = true := by
  induction moves with
  | nil => cases h
  | cons x moves ih =>
    cases x with
    | reinit d => rfl
    | submit w =>
      have htail : .reinit c ∈ moves := by simpa using h
      simpa [firstReinit] using ih htail

/-- In CFGFAIL a reinit that is to come is the next step, past the words before it (60_exceptions.md R207). -/
theorem reinitNext_of_mem {s : State} {c : GroupClaim} (hes : s.es = .cfgfail) (h : .reinit c ∈ s.inbox) :
    ∃ d rest, reinitNext s d rest := by
  obtain ⟨⟨d, rest⟩, hfirst⟩ := Option.isSome_iff_exists.mp (firstReinit_isSome_of_mem h)
  obtain ⟨words, after, hi, hrest⟩ := firstReinit_eq_some.mp hfirst
  exact ⟨d, rest, by simp [hes], words, after, Or.inl hes, hi, hrest⟩

/-- A reinit passes no word: each stays in the inbox. -/
theorem submit_mem_of_reinitNext {s : State} {c : GroupClaim} {rest : List Move} {w : Word32}
    (h : reinitNext s c rest) : .submit w ∈ s.inbox ↔ .submit w ∈ rest := by
  obtain ⟨-, words, after, -, hi, rfl⟩ := h
  simp [hi]

theorem reinit_mem_of_takesReinit {s : State} (h : takesReinit s) : ∃ c, .reinit c ∈ s.inbox := by
  obtain ⟨c, rest, -, words, after, -, hi, -⟩ := h
  exact ⟨c, by simp [hi]⟩

/-- A reinit that passes a word leaves it the next move. -/
theorem rest_of_reinitNext {s : State} {c : GroupClaim} {w : Word32} {tail rest : List Move} (h : reinitNext s c rest)
    (hi : s.inbox = .submit w :: tail) : ∃ moves, rest = .submit w :: moves := by
  obtain ⟨-, words, after, -, hi', rfl⟩ := h
  rw [hi] at hi'
  cases words with
  | nil => simp at hi'
  | cons v words =>
    obtain ⟨rfl, -⟩ : w = v ∧ tail = words.map .submit ++ .reinit c :: after := by simpa using hi'
    exact ⟨words.map .submit ++ after, rfl⟩

@[simp] theorem reinit_inbox (s : State) (c : GroupClaim) : (s.reinit c).inbox = s.inbox := by simp [State.reinit]
@[simp] theorem reinit_refused (s : State) (c : GroupClaim) : (s.reinit c).refused = s.refused := by
  simp [State.reinit]

theorem step_of_cfgfail {s : State} (hr : s.refused = false) (hes : s.es = .cfgfail) (hx : ¬ takesReinit s) :
    step s = .next s := by
  simp [step, engineStep, hr, hes, cfgfailStep, firstReinit_eq_none hes hx]

/-- An engine with nothing to take stays as it is (log 25). -/
theorem step_of_nothing {s : State} (hr : s.refused = false) (hes : s.es = .idle ∨ s.es = .cfgfail)
    (hi : s.inbox = []) : step s = .next s := by
  rcases hes with hes | hes
  · simp [step, engineStep, hr, hes, idleStep, hi]
  · simp [step, engineStep, hr, hes, cfgfailStep, hi, firstReinit]

/-! ## Acceptance and delivery: the statements -/

/-- Settles O5: acceptance by `step_of_illegalWord`, delivery by `step_of_due`. -/
theorem illegalWordIsAcceptedLikeALegalOne : Obligations.IllegalWordIsAcceptedLikeALegalOne := by
  intro s w rest hc hi hw
  have haccept := step_of_illegalWord hc hi hw
  obtain ⟨-, -, hr⟩ := hc
  have hrespond := step_of_due (s := (s.withInbox rest).acceptIllegal) hr rfl rfl
  exact ⟨_, _, haccept, rfl, rfl, hrespond, rfl, rfl, rfl, rfl, rfl, rfl, rfl, rfl, rfl, rfl, rfl, rfl⟩

/-- Settles O16: an engine that can accept begins the request (`exec_accept`), and `beginOf` says how. -/
theorem everyRequestBegins : Obligations.EveryRequestBegins :=
  fun _ hc => ⟨fun _ => exec_accept hc, fun _ _ => exec_accept hc, exec_accept hc, exec_accept hc⟩

/-- Settles O17: `step_of_due` and `exec_due` deliver the same response. -/
theorem responseIsDelivered : Obligations.ResponseIsDelivered := by
  intro s r hr hes hd
  have hstep : step s = .next (s.respond r) := step_of_due hr hes hd
  exact ⟨hstep, fun i hq => (exec_due hr hes hq hd).trans hstep.symm⟩

/-- Settles O19, by `step_of_legalWord`. -/
theorem stepRunsTheDecodedRequest : Obligations.StepRunsTheDecodedRequest :=
  fun _ _ _ _ hc hi hd => step_of_legalWord hc hi hd

/-- Settles O18: the word sets the mark, and nothing follows the mark. -/
theorem requestAfterBusErrorIsRefused : Obligations.RequestAfterBusErrorIsRefused :=
  ⟨fun _ _ _ hes hb hr hi => ⟨_, step_of_wordAfterBusError hr hes hb hi, rfl, stepTimes_of_refused rfl⟩,
    fun i _ hes hb hr => ⟨exec_of_busError i hr hes hb, exec_of_refused i rfl⟩⟩

/-- Settles O15: a legal word is begun and latches its fields (`reqOf_of_decode`); of the ways of `step_cases` outside
IDLE, a reinit alone touches the inbox, and it passes the word; with `E.BI` = 1 the step is the mark. -/
theorem requestIsAcceptedOnlyWhenIdle : Obligations.RequestIsAcceptedOnlyWhenIdle := by
  refine ⟨fun s w rest i hc hi hd => ?_, fun s t w rest hi hes h => ?_, fun s t w rest hi hes hb h => ?_⟩
  · have hstep := (step_of_legalWord hc hi hd).trans (exec_accept (s := s.withInbox rest) hc)
    have hreq := reqOf_of_decode hd
    exact ⟨_, hstep, by simp, by simp, by simp [hreq], by simp [hreq], by simp [hreq], by simp [hreq], by simp⟩
  · obtain ⟨-, ⟨-, -, rfl⟩ | ⟨-, rfl⟩ | ⟨c, rest', hc, rfl⟩ | ⟨w', rest', hidle, -, -, -⟩ | ⟨w', rest', hc, -, -, -⟩ |
      ⟨w', rest', i, hc, -, -, -⟩ | ⟨r, hbusy, -, rfl⟩ | ⟨i, -, hw⟩ | ⟨i, -, -, -, -, rfl⟩⟩ := step_cases h
    · refine Or.inl ⟨by simp, by simp, fun hbusy => ?_⟩
      rcases configCheck_es s with he | he <;> simp [he] at hbusy
    · exact Or.inl ⟨rfl, rfl, id⟩
    · obtain ⟨moves, rfl⟩ := rest_of_reinitNext hc hi
      refine Or.inr ⟨c, moves, hc, by simp, fun hbusy => ?_⟩
      rcases reinit_es (s.withInbox (.submit w :: moves)) c with he | he <;> simp [he] at hbusy
    · exact absurd hidle hes
    · exact absurd hc.1 hes
    · exact absurd hc.1 hes
    · exact Or.inl ⟨rfl, rfl, fun _ => hbusy⟩
    · have hf := work_frame hw
      exact Or.inl ⟨hf.inbox, hf.req, fun hbusy => hf.es.symm.trans hbusy⟩
    · exact Or.inl ⟨rfl, rfl, id⟩
  · have hstep := step_of_wordAfterBusError (step_cases h).1 hes hb hi
    exact Host.Outcome.next.inj (h.symm.trans hstep)

/-! ## CFGFAIL and the end of a run: the statements -/

/-- Settles O13: requests wait (`exec_of_cfgfail`), a step without a reinit to come changes nothing, and one that is to
come is taken past the words, which stay. -/
theorem cfgfailAcceptsNothing : Obligations.CfgfailAcceptsNothing := by
  intro s hr hes
  refine ⟨fun i => exec_of_cfgfail i hr hes, fun hnone => stepTimes_of_fixed ?_, fun c hmem => ?_⟩
  · exact step_of_cfgfail hr hes fun hx => (reinit_mem_of_takesReinit hx).elim hnone
  · obtain ⟨d, rest, hd⟩ := reinitNext_of_mem hes hmem
    refine ⟨_, ⟨d, rest, hd⟩, step_of_reinitNext hr hd, reinit_es _ d, by simp, fun w hw => ?_⟩
    simpa using (submit_mem_of_reinitNext hd).mp hw

/-- Settles O14, by the next move: there is none, or it is a reinit, since no request is pending. -/
theorem endedRunOnlyRestarts : Obligations.EndedRunOnlyRestarts := by
  rintro s ⟨hes, hpending, hr⟩
  cases hi : s.inbox with
  | nil => exact Or.inl ⟨rfl, stepTimes_of_fixed (step_of_nothing hr hes hi)⟩
  | cons x rest =>
    cases x with
    | submit w => exact absurd (by simp [hi]) (hpending w)
    | reinit c =>
      have hbusy : s.es ≠ .busy := by rcases hes with he | he <;> simp [he]
      have hnext : reinitNext s c rest := ⟨hbusy, [], rest, Or.inr rfl, hi, rfl⟩
      refine Or.inr ⟨⟨c, rest, hnext⟩, _, step_of_reinitNext hr hnext, ⟨reinit_es _ c, fun w hw => ?_, by simp [hr]⟩,
        by simp⟩
      exact hpending w ((submit_mem_of_reinitNext hnext).mpr (by simpa using hw))

end Sys2Proof.Machine
end

section
/-! PROOFS. The environment's answer to the request in service: a silent environment leaves it where it is, and the first
bus error ends it (40_bus_primitives.md R101, 60_exceptions.md R192, R194, R195, R209, R215). -/

namespace Sys2Proof.Machine

/-! ## A silent environment (60_exceptions.md R215) -/

section
variable {s : State} (ha : s.answer = none)
include ha

theorem setLines_of_silent (g : GroupWrite) : setLines g s = .silent := by simp [setLines, ha]

theorem getLines_of_silent : getLines s = .silent := by simp [getLines, ha]

theorem setDir_of_silent (i : BitVec 4) (c : DirCmd) : setDir i c s = .silent := by simp [setDir, ha]

theorem sleep_of_silent (lo hi : Nat) : sleep lo hi s = .silent := by simp [sleep, ha]

theorem rapSelect_of_silent (r : RegIdx) (next : State → State) (hst : s.rstep = 1 ∨ s.rstep = 2) :
    rapSelect r next s = .silent := by
  rcases hst with hst | hst
  all_goals simp only [rapSelect, hst, setLines_of_silent ha, Exchange.thenMore]

theorem rapRead_of_silent (r : RegIdx) (hp : readPosition s) : rapRead r s = .silent := by
  rcases hp with ⟨hop, hst | hst | hst | hst | hst⟩ | ⟨hop, hst⟩
  · simp only [rapRead, hop, hst, setDir_of_silent ha, Exchange.thenMore]
  · simp only [rapRead, hop, hst, readAssert, setLines_of_silent ha]
  · simp only [rapRead, hop, hst, sleep_of_silent ha, Exchange.thenMore]
  · simp only [rapRead, hop, hst, readSample, getLines_of_silent ha]
  · simp only [rapRead, hop, hst, readDeassert, setLines_of_silent ha]
  · simp only [rapRead, hop, rapSelect_of_silent ha r _ hst]

theorem rapWrite_of_silent (r : RegIdx) (v : Word) (hp : writePosition s) : rapWrite r v s = .silent := by
  rcases hp with ⟨hop, hst | hst | hst | hst | hst | hst⟩ | ⟨hop, hst⟩
  · simp only [rapWrite, hop, hst, setDir_of_silent ha, Exchange.thenMore]
  · simp only [rapWrite, hop, hst, setLines_of_silent ha, Exchange.thenMore]
  · simp only [rapWrite, hop, hst, sleep_of_silent ha, Exchange.thenMore]
  · simp only [rapWrite, hop, hst, setLines_of_silent ha, Exchange.thenMore]
  · simp only [rapWrite, hop, hst, sleep_of_silent ha, Exchange.thenMore]
  · simp only [rapWrite, hop, hst, writeReturn, setDir_of_silent ha, Exchange.thenMore, Exchange.thenOk, ite_self]
  · simp only [rapWrite, hop, rapSelect_of_silent ha r _ hst]

theorem awaitSleep_of_silent : awaitSleep s = .next s := by
  simp only [awaitSleep, sleep_of_silent ha, Exchange.thenMore, RapStep.outcome, ite_self]

/-- The request in service waits for the answer to its primitive. -/
theorem Inv.exec_of_silent {i : Instr} (h : Inv s) (hs : Serving i s) : exec i s = .next s := by
  have hcall := h.stepsCall hs
  match hc : currentCall s with
  | none =>
    rw [hc] at hcall
    exact hcall.trans (awaitSleep_of_silent ha)
  | some (.read r) =>
    rw [hc] at hcall
    obtain ⟨hp, onOk, -, hx⟩ := hcall
    rw [hx, rapRead_of_silent ha r hp]
    rfl
  | some (.write r v) =>
    rw [hc] at hcall
    obtain ⟨hp, onOk, -, hx⟩ := hcall
    rw [hx, rapWrite_of_silent ha r v hp]
    rfl

end

/-- Settles O59: the step of the machine is that of the request (`busyStepServesTheLatchedRequest`), which waits. -/
theorem silentEnvironmentLeavesTheEngineBusy : Obligations.SilentEnvironmentLeavesTheEngineBusy := by
  intro i s h hs ha
  have hx := h.exec_of_silent ha hs
  obtain ⟨hr, hes, hq, -⟩ := hs
  exact ⟨hx, stepTimes_of_fixed ((busyStepServesTheLatchedRequest s i hr hes hq).trans hx)⟩

/-! ## The first bus error (60_exceptions.md R192, R194) -/

/-- A sleep cannot fail: the RAP function goes on, and nothing but the trace tells of it (40_bus_primitives.md R109). -/
def RapStep.Sleeps (s : State) (x : RapStep) : Prop :=
  ∃ u, x = .more u ∧ u.bi = s.bi ∧ ∃ lo hi, u.trace = s.trace ++ [⟨.sleep lo hi, .done⟩]

theorem thenMore_sleeps {s : State} {d : Draw} {next : State → State} (ha : s.answer = some d) (lo hi : Nat)
    (hb : ∀ u, (next u).bi = u.bi) (ht : ∀ u, (next u).trace = u.trace) :
    ((sleep lo hi s).thenMore next).Sleeps s :=
  ⟨next (s.record (.sleep lo hi) .done), by rw [sleep_of_answer lo hi ha]; rfl, by simp [hb], lo, hi, by simp [ht]⟩

section
variable {s : State} {e : AdapterError} {w : Word} (ha : s.answer = some ⟨some e, w⟩)
include ha

/-- `RAP_Read` meets its first error: it returns it, holds it for the cleanup, or sleeps and meets none
(41_register_access.md R126, R127). -/
theorem rapRead_of_error (r : RegIdx) (hp : readPosition s) (hperr : s.perr = none) :
    (∃ u, rapRead r s = .err e u) ∨
    (∃ u, rapRead r s = .more u ∧ u.rapop = .read ∧ u.rstep = 6 ∧ u.perr = some e) ∨
    (rapRead r s).Sleeps s := by
  have holds (hop : s.rapop = .read) (hst : s.rstep = 3 ∨ s.rstep = 5) :
      ∃ u, rapRead r s = .more u ∧ u.rapop = .read ∧ u.rstep = 6 ∧ u.perr = some e := by
    obtain ⟨u, hu, hop', hst', hperr', -⟩ := rapRead_holds_error r ha hop hst
    exact ⟨u, hu, hop', hst', hperr'⟩
  rcases id hp with ⟨hop, hst | hst | hst | hst | hst⟩ | ⟨hop, -⟩
  · exact Or.inl ((rapRead_fails_before_strobe r ha hp (Or.inl ⟨hop, hst⟩)).imp fun _ hu => hu.1)
  · exact Or.inr (Or.inl (holds hop (Or.inl hst)))
  · refine Or.inr (Or.inr ?_)
    simp only [rapRead, hop, hst]
    exact thenMore_sleeps ha _ _ (fun _ => rfl) fun _ => rfl
  · exact Or.inr (Or.inl (holds hop (Or.inr hst)))
  · exact Or.inl ((rapRead_fails_deassert r ha hop hst hperr).imp fun _ hu => hu.1)
  · exact Or.inl ((rapRead_fails_before_strobe r ha hp (Or.inr hop)).imp fun _ hu => hu.1)

/-- `RAP_Write` meets an error: it returns it at once, or sleeps and meets none (41_register_access.md R134). -/
theorem rapWrite_of_error (r : RegIdx) (v : Word) (hp : writePosition s) :
    (∃ u, rapWrite r v s = .err e u) ∨ (rapWrite r v s).Sleeps s := by
  rcases hp with ⟨hop, hst | hst | hst | hst | hst | hst⟩ | ⟨hop, hst⟩
  · exact Or.inl ((rapWrite_fails_line r v ha hop (Or.inl hst)).imp fun _ hu => hu.1)
  · exact Or.inl ((rapWrite_fails_strobe r v ha hop (Or.inl hst)).imp fun _ hu => hu.1)
  · refine Or.inr ?_
    simp only [rapWrite, hop, hst]
    exact thenMore_sleeps ha _ _ (fun _ => rfl) fun _ => rfl
  · exact Or.inl ((rapWrite_fails_strobe r v ha hop (Or.inr hst)).imp fun _ hu => hu.1)
  · refine Or.inr ?_
    simp only [rapWrite, hop, hst]
    exact thenMore_sleeps ha _ _ (fun _ => rfl) fun _ => rfl
  · exact Or.inl ((rapWrite_fails_line r v ha hop (Or.inr hst)).imp fun _ hu => hu.1)
  · simp only [rapWrite, hop]
    exact Or.inl ((rapSelect_fails r ha hst).imp fun _ hu => hu.1)

end

theorem awaitSleep_of_answer {s : State} {d : Draw} (ha : s.answer = some d) :
    ∃ t, awaitSleep s = .next t ∧ t.bi = s.bi ∧ ∃ lo hi, t.trace = s.trace ++ [⟨.sleep lo hi, .done⟩] := by
  unfold awaitSleep
  split
  · exact ⟨_, sleep_then ha _ _ _, by simp [startBurst], _, _, rfl⟩
  · exact ⟨_, sleep_then ha _ _ _, by simp, _, _, rfl⟩

/-- An error that a read returns has set `E.BI`. -/
theorem ReadState.bi_of_err {r : RegIdx} {s u : State} {e : AdapterError} (h : ReadState r s)
    (hx : rapRead r s = .err e u) : u.bi = true := by
  rcases rapRead_spec h with ⟨-, h'⟩ | ⟨v, h', -⟩ | ⟨v, h', -⟩ | ⟨e', v, h', hb⟩ <;>
    simp only [hx, reduceCtorEq, RapStep.err.injEq] at h'
  rwa [h'.2]

/-- An error that a write returns has set `E.BI`. -/
theorem WriteState.bi_of_err {r : RegIdx} {v : Word} {s u : State} {e : AdapterError} (h : WriteState r v s)
    (hx : rapWrite r v s = .err e u) : u.bi = true := by
  rcases rapWrite_spec h with ⟨-, h'⟩ | ⟨t, h', -⟩ | ⟨t, h', -⟩ | ⟨e', t, h', hb⟩ <;>
    simp only [hx, reduceCtorEq, RapStep.err.injEq] at h'
  rwa [h'.2]

/-! ## The request that meets it -/

/-- What the step that meets the first bus error `e` comes to: a sleep, which met none; the error owed; or, in a read, one
cleanup that comes first, after which it is owed (60_exceptions.md R194, R195, 42_identify.md R164). -/
def MeetsError (i : Instr) (e : AdapterError) (s t : State) : Prop :=
  t.bi = false ∧ (∃ lo hi, t.trace = s.trace ++ [⟨.sleep lo hi, .done⟩]) ∨
  t.bi = true ∧ t.due = some ⟨2, 0x0000, some e⟩ ∨
  t.bi = true ∧ t.due = none ∧
    ∀ x, t.answer = some x → ∃ u, exec i t = .next u ∧ u.due = some ⟨2, 0x0000, some e⟩ ∧
      ∃ a, u.trace = t.trace ++ [⟨.setLines (.sr 0), a⟩]

section
variable {i : Instr} {s : State} {e : AdapterError} (hb : s.bi = false)

/-- A RAP function that returns the error ends the request with it. -/
theorem meetsError_of_err {x : RapStep} {u : State} {onOk : State → State} (hx : exec i s = x.outcome s onOk)
    (he : x = .err e u) (hbi : u.bi = true) : ∃ t, exec i s = .next t ∧ MeetsError i e s t :=
  ⟨_, exec_of_err hx he, Or.inr (Or.inl ⟨hbi, rfl⟩)⟩

include hb

theorem meetsError_of_sleeps {x : RapStep} {onOk : State → State} (hx : exec i s = x.outcome s onOk)
    (hsleeps : x.Sleeps s) : ∃ t, exec i s = .next t ∧ MeetsError i e s t := by
  obtain ⟨u, hu, hbi, htrace⟩ := hsleeps
  exact ⟨u, step_more hx hu, Or.inl ⟨hbi.trans hb, htrace⟩⟩

variable {w : Word} (h : Inv s) (hs : Serving i s) (ha : s.answer = some ⟨some e, w⟩)
include h hs ha

theorem Inv.read_meetsError {r : RegIdx} (hc : currentCall s = some (.read r)) :
    ∃ t, exec i s = .next t ∧ MeetsError i e s t := by
  obtain ⟨hread, onOk, -, hexec⟩ := h.exec_read hs hc
  rcases rapRead_of_error ha r hread.pos (h.perr_none hb) with ⟨u, hu⟩ | ⟨u, hu, hop, hst, hperr⟩ | hsleeps
  · exact meetsError_of_err hexec hu (hread.bi_of_err hu)
  · obtain ⟨hstep, hinv, hserve, hcall⟩ := h.read_goes_on hs hc hu
    obtain ⟨hread', onOk', -, hexec'⟩ := hinv.exec_read hserve hcall
    obtain ⟨-, -, -, hdue⟩ := hserve
    refine ⟨u, hstep, Or.inr (Or.inr ⟨hread'.marked (by simp [hperr]), hdue, fun x hx => ?_⟩)⟩
    obtain ⟨v, hv, -, htrace⟩ := rapRead_cleanup r hx hop hst hperr
    exact ⟨_, exec_of_err hexec' hv, rfl, htrace⟩
  · exact meetsError_of_sleeps hb hexec hsleeps

theorem Inv.write_meetsError {r : RegIdx} {v : Word} (hc : currentCall s = some (.write r v)) :
    ∃ t, exec i s = .next t ∧ MeetsError i e s t := by
  obtain ⟨hwrite, onOk, -, hexec⟩ := h.exec_write hs hc
  rcases rapWrite_of_error ha r v hwrite.pos with ⟨u, hu⟩ | hsleeps
  · exact meetsError_of_err hexec hu (hwrite.bi_of_err hu)
  · exact meetsError_of_sleeps hb hexec hsleeps

theorem Inv.wait_meetsError (hc : currentCall s = none) : ∃ t, exec i s = .next t ∧ MeetsError i e s t := by
  have hcall := h.stepsCall hs
  rw [hc] at hcall
  obtain ⟨t, ht, hbi, htrace⟩ := awaitSleep_of_answer ha
  exact ⟨t, hcall.trans ht, Or.inl ⟨hbi.trans hb, htrace⟩⟩

end

/-- Settles O35, by the call in progress: a read, a write, or the Sequencer's own wait. -/
theorem busErrorEndsTheRequest : Obligations.BusErrorEndsTheRequest := by
  intro i s e w h hs hb ha
  match hc : currentCall s with
  | some (.read r) => exact h.read_meetsError hb hs ha hc
  | some (.write r v) => exact h.write_meetsError hb hs ha hc
  | none => exact h.wait_meetsError hb hs ha hc

end Sys2Proof.Machine
end

section
/-! PROOFS. The moves that host and platform still have to make are no part of what a request in service does: every
operation of the model carries another inbox along (60_exceptions.md R207, 70_reset_and_hazards.md R226). -/

namespace Sys2Proof.Machine

/-- An outcome with its next state replaced. -/
def onNext (f : State → State) : Host.Outcome State Fault Refusal → Host.Outcome State Fault Refusal
  | .next t => .next (f t)
  | .fault x => .fault x
  | .refused x => .refused x

section
variable (s : State) (moves : List Move)

/-! ## The primitives and what comes between them -/

@[simp] theorem withInbox_answer : (s.withInbox moves).answer = s.answer := rfl

theorem record_withInbox (ev : Event) (a : Answer) :
    (s.withInbox moves).record ev a = (s.record ev a).withInbox moves := by
  unfold State.record State.consume
  rw [withInbox_answers]
  split <;> rfl

theorem setLines_withInbox (g : GroupWrite) :
    setLines g (s.withInbox moves) = (setLines g s).onState (·.withInbox moves) := by
  unfold setLines
  simp only [withInbox_answer, record_withInbox]
  split <;> rfl

theorem getLines_withInbox : getLines (s.withInbox moves) = (getLines s).onState (·.withInbox moves) := by
  unfold getLines
  simp only [withInbox_answer, record_withInbox]
  split <;> rfl

theorem setDir_withInbox (i : BitVec 4) (c : DirCmd) :
    setDir i c (s.withInbox moves) = (setDir i c s).onState (·.withInbox moves) := by
  unfold setDir
  simp only [withInbox_answer, record_withInbox]
  split <;> rfl

theorem sleep_withInbox (lo hi : Nat) :
    sleep lo hi (s.withInbox moves) = (sleep lo hi s).onState (·.withInbox moves) := by
  unfold sleep
  simp only [withInbox_answer, record_withInbox]
  split <;> rfl

theorem nextLine_withInbox {next : State → State}
    (h : ∀ u, next (u.withInbox moves) = (next u).withInbox moves) :
    State.nextLine next (s.withInbox moves) = (State.nextLine next s).withInbox moves := by
  unfold State.nextLine
  rw [withInbox_j, h]
  split <;> rfl

theorem beginOf_withInbox (i : Instr) : beginOf i (s.withInbox moves) = (beginOf i s).withInbox moves := by
  cases i <;> rfl

theorem afterClear_withInbox : afterClear (s.withInbox moves) = (afterClear s).withInbox moves := by
  unfold afterClear
  rw [withInbox_k]
  split <;> rfl

theorem afterPresence_withInbox : afterPresence (s.withInbox moves) = (afterPresence s).withInbox moves := by
  unfold afterPresence
  rw [withInbox_sample, withInbox_req]
  split_ifs <;> rfl

theorem afterPoll_withInbox : afterPoll (s.withInbox moves) = (afterPoll s).withInbox moves := by
  unfold afterPoll
  rw [withInbox_sample, withInbox_np, withInbox_params]
  dsimp only
  split_ifs <;> rfl

theorem afterData_withInbox : afterData (s.withInbox moves) = (afterData s).withInbox moves := by
  unfold afterData
  rw [withInbox_sample, withInbox_wc, withInbox_stw]
  dsimp only
  split_ifs <;> rfl

/-! ## The RAP functions -/

theorem rapSelect_withInbox (r : RegIdx) {next : State → State}
    (h : ∀ u, next (u.withInbox moves) = (next u).withInbox moves) :
    rapSelect r next (s.withInbox moves) = (rapSelect r next s).onState (·.withInbox moves) := by
  simp only [rapSelect, withInbox_rstep, setLines_withInbox]
  split
  · exact Exchange.onState_thenMore _ fun _ => rfl
  · exact Exchange.onState_thenMore _ h
  · rfl

theorem readAssert_withInbox : readAssert (s.withInbox moves) = (readAssert s).onState (·.withInbox moves) := by
  simp only [readAssert, setLines_withInbox]
  cases setLines (.sr strobeOn) s <;> rfl

theorem readSample_withInbox : readSample (s.withInbox moves) = (readSample s).onState (·.withInbox moves) := by
  simp only [readSample, getLines_withInbox]
  cases getLines s <;> rfl

theorem readDeassert_withInbox :
    readDeassert (s.withInbox moves) = (readDeassert s).onState (·.withInbox moves) := by
  simp only [readDeassert, setLines_withInbox, withInbox_perr]
  cases setLines (.sr strobeOff) s <;> cases s.perr <;> rfl

theorem rapRead_withInbox (r : RegIdx) :
    rapRead r (s.withInbox moves) = (rapRead r s).onState (·.withInbox moves) := by
  simp only [rapRead, withInbox_rapop, withInbox_rstep, withInbox_j, setDir_withInbox, sleep_withInbox]
  split
  · split
    · exact Exchange.onState_thenMore _ fun u => nextLine_withInbox u moves fun _ => rfl
    · exact readAssert_withInbox s moves
    · exact Exchange.onState_thenMore _ fun _ => rfl
    · exact readSample_withInbox s moves
    · exact readDeassert_withInbox s moves
    · rfl
  · exact rapSelect_withInbox s moves r fun _ => rfl
  · rfl
  · rfl

theorem writeReturn_withInbox : writeReturn (s.withInbox moves) = (writeReturn s).onState (·.withInbox moves) := by
  simp only [writeReturn, withInbox_j, setDir_withInbox]
  split
  · exact Exchange.onState_thenOk _
  · exact Exchange.onState_thenMore _ fun _ => rfl

theorem rapWrite_withInbox (r : RegIdx) (v : Word) :
    rapWrite r v (s.withInbox moves) = (rapWrite r v s).onState (·.withInbox moves) := by
  simp only [rapWrite, withInbox_rapop, withInbox_rstep, withInbox_j, setDir_withInbox, setLines_withInbox,
    sleep_withInbox]
  split
  · exact rapSelect_withInbox s moves r fun _ => rfl
  · split
    · exact Exchange.onState_thenMore _ fun u => nextLine_withInbox u moves fun _ => rfl
    · exact Exchange.onState_thenMore _ fun _ => rfl
    · exact Exchange.onState_thenMore _ fun _ => rfl
    · exact Exchange.onState_thenMore _ fun _ => rfl
    · exact Exchange.onState_thenMore _ fun _ => rfl
    · exact writeReturn_withInbox s moves
    · rfl
  · rfl
  · rfl

/-! ## The engine's steps -/

theorem outcome_withInbox (x : RapStep) {onOk : State → State}
    (h : ∀ u, onOk (u.withInbox moves) = (onOk u).withInbox moves) :
    (x.onState (·.withInbox moves)).outcome (s.withInbox moves) onOk = onNext (·.withInbox moves) (x.outcome s onOk) := by
  cases x with
  | ok u => exact congrArg _ (h u)
  | silent => rfl
  | more u => rfl
  | err e u => rfl
  | stray => rfl

theorem awaitSleep_withInbox :
    awaitSleep (s.withInbox moves) = onNext (·.withInbox moves) (awaitSleep s) := by
  simp only [awaitSleep, withInbox_req, withInbox_params, sleep_withInbox]
  split
  all_goals
    rw [Exchange.onState_thenMore (f := (·.withInbox moves)) _ fun _ => rfl]
    exact outcome_withInbox s moves _ fun _ => rfl

theorem identifyStep_withInbox :
    identifyStep (s.withInbox moves) = onNext (·.withInbox moves) (identifyStep s) := by
  simp only [identifyStep, withInbox_seq, withInbox_rapop, withInbox_req, withInbox_wc, withInbox_k,
    rapRead_withInbox, rapWrite_withInbox]
  split
  · exact outcome_withInbox s moves _ fun _ => rfl
  · exact outcome_withInbox s moves _ fun u => afterClear_withInbox u moves
  · exact outcome_withInbox s moves _ fun _ => rfl
  · exact outcome_withInbox s moves _ fun u => afterPresence_withInbox u moves
  · split
    · exact awaitSleep_withInbox s moves
    · split
      · rfl
      · exact outcome_withInbox s moves _ fun u => afterPoll_withInbox u moves
  · split
    · exact outcome_withInbox s moves _ fun u => afterData_withInbox u moves
    · rfl
  · rfl

theorem workOf_withInbox (i : Instr) :
    workOf i (s.withInbox moves) = onNext (·.withInbox moves) (workOf i s) := by
  cases i with
  | rdreg reg =>
    simp only [workOf, rapRead_withInbox]
    exact outcome_withInbox s moves _ fun _ => rfl
  | wrreg reg value =>
    simp only [workOf, rapWrite_withInbox]
    exact outcome_withInbox s moves _ fun _ => rfl
  | identFix => exact identifyStep_withInbox s moves
  | identPoll => exact identifyStep_withInbox s moves

theorem exec_withInbox (i : Instr) :
    exec i (s.withInbox moves) = onNext (·.withInbox moves) (exec i s) := by
  rw [exec_eq_serve, exec_eq_serve]
  unfold serve
  rw [withInbox_refused, withInbox_es, withInbox_bi, withInbox_req, withInbox_due, workOf_withInbox]
  split
  · rfl
  · split
    · split
      · rfl
      · exact congrArg _ (beginOf_withInbox (s.accept (reqOf i)) moves i)
    · split
      · split <;> rfl
      · rfl
    · rfl
    · rfl

/-- A BUSY engine carries another inbox along. -/
theorem step_withInbox (hes : s.es = .busy) :
    step (s.withInbox moves) = onNext (·.withInbox moves) (step s) := by
  simp only [step, engineStep, busyStep, withInbox_refused, withInbox_es, withInbox_due, withInbox_req, hes,
    exec_withInbox]
  split
  · rfl
  · split
    · rfl
    · split <;> rfl

end

/-- Settles O21: `step_withInbox`, read for each of the three outcomes. -/
theorem busyEngineIgnoresHostAndPlatform : Obligations.BusyEngineIgnoresHostAndPlatform := by
  intro s moves hes
  have h : step { s with inbox := moves } = onNext (·.withInbox moves) (step s) := step_withInbox s moves hes
  exact ⟨fun t ht => by rw [h, ht]; rfl, fun f hf => by rw [h, hf]; rfl, fun r hr => by rw [h, hr]; rfl⟩

end Sys2Proof.Machine
end

section
/-! PROOFS. The configuration check and the reinit that ends with it (70_reset_and_hazards.md R221, R222, R225). -/

namespace Sys2Proof.Machine

/-! ## The first bad row of the table -/

/-- The row of a role in the table of 70_reset_and_hazards.md R221. -/
def tableRow (c : GroupClaim) (r : Role) : RoleClaim × Nat × Role := (claimOf c r, requiredLines r, r)

theorem roleTable_eq_map (c : GroupClaim) : roleTable c = rolesInOrder.map (tableRow c) := rfl

theorem rowPasses_tableRow {c : GroupClaim} {r : Role} : rowPasses (tableRow c r) ↔ rolePasses c r = true := by
  simp [rowPasses, tableRow, rolePasses]

theorem firstFailing_of_all_pass {c : GroupClaim} (h : ∀ x ∈ roleTable c, rowPasses x) : firstFailing c = none := by
  refine List.find?_eq_none.mpr fun r hr => ?_
  have hrow := h (tableRow c r) (roleTable_eq_map c ▸ List.mem_map_of_mem hr)
  simp [rowPasses_tableRow.mp hrow]

theorem firstFailing_of_bad_row {c : GroupClaim} {before after : List (RoleClaim × Nat × Role)}
    {x : RoleClaim × Nat × Role} (htable : roleTable c = before ++ x :: after) (hbefore : ∀ y ∈ before, rowPasses y)
    (hx : ¬ rowPasses x) : firstFailing c = some x.2.2 := by
  obtain ⟨passed, bad, hroles, rfl, hbad⟩ := List.map_eq_append_iff.mp (roleTable_eq_map c ▸ htable)
  obtain ⟨r, rest, rfl, rfl, -⟩ := List.map_eq_cons_iff.mp hbad
  refine List.find?_eq_some_iff_append.mpr ⟨?_, passed, rest, hroles, fun p hp => ?_⟩
  · have hfails : rolePasses c r = false := by simpa [rowPasses_tableRow] using hx
    simp [tableRow, hfails]
  · simpa using rowPasses_tableRow.mp (hbefore _ (List.mem_map_of_mem hp))

/-! ## The check -/

theorem configCheck_of_none {s : State} (h : firstFailing s.claim = none) :
    s.configCheck = { s with cfgerr := none, es := .idle } := by simp [State.configCheck, h]

theorem configCheck_of_some {s : State} {r : Role} (h : firstFailing s.claim = some r) :
    s.configCheck = { s with cfgerr := some r, es := .cfgfail } := by simp [State.configCheck, h]

theorem configCheck_frame (s : State) :
    s.configCheck = { s with es := s.configCheck.es, cfgerr := s.configCheck.cfgerr } := by
  cases h : firstFailing s.claim with
  | none => rw [configCheck_of_none h]
  | some r => rw [configCheck_of_some h]

theorem configCheck_outcome (s : State) : checkOutcome s.claim s.configCheck.es s.configCheck.cfgerr := by
  refine ⟨fun hall => ?_, fun before x after htable hbefore hx => ?_⟩
  · rw [configCheck_of_none (firstFailing_of_all_pass hall)]
    exact ⟨rfl, rfl⟩
  · rw [configCheck_of_some (firstFailing_of_bad_row htable hbefore hx)]
    exact ⟨rfl, rfl⟩

/-- In UNINIT a step that is no reinit is the check, whether or not a word waits (70_reset_and_hazards.md R221). -/
theorem step_of_uninit {s : State} (hr : s.refused = false) (hes : s.es = .uninit) (hx : ¬ takesReinit s) :
    step s = .next s.configCheck := by
  have hstep : step s = uninitStep s := by simp [step, engineStep, hr, hes]
  rw [hstep, uninitStep]
  split
  · rfl
  · rfl
  · rename_i hi
    exact absurd (takesReinit_of_head (by simp [hes]) hi) hx

/-- Settles O10: the step is the check, which changes two registers (`configCheck_frame`) and finds the first bad row
(`configCheck_outcome`). -/
theorem configurationCheckFindsTheFirstBadRole : Obligations.ConfigurationCheckFindsTheFirstBadRole :=
  fun s hr hes hx => ⟨s.configCheck, step_of_uninit hr hes hx, configCheck_frame s, configCheck_outcome s⟩

/-! ## The reinit -/

/-- Settles O11: the step is the reinit (`step_of_reinitNext`), whose check is over the report that it carries. -/
theorem reinitReestablishesState : Obligations.ReinitReestablishesState := by
  intro s c rest hr hnext
  have houtcome := configCheck_outcome ((s.withInbox rest).reinitRegs c)
  refine ⟨(s.withInbox rest).reinit c, step_of_reinitNext hr hnext, ?_⟩
  simpa [State.reinit] using houtcome

end Sys2Proof.Machine
end

section
/-! PROOFS. A strobe is asserted only inside the RAP operation that pulses it (41_register_access.md R125, R130, R139,
70_reset_and_hazards.md R227, R230). -/

namespace Sys2Proof.Machine

/-! ## Neither strobe is asserted -/

/-- Neither strobe is asserted. -/
def StrobesOff (l : Lines) : Prop := l.sr ≠ .one ∧ l.sw ≠ .one

theorem platformStrobesOff_iff (p : Params) : PlatformStrobesOff p ↔ StrobesOff p.platInit := Iff.rfl

/-- Where no strobe is asserted, every position will do. -/
theorem StrobesOff.ok {s : State} (h : StrobesOff s.lines) : StrobesOk s :=
  ⟨fun hsr => absurd hsr h.1, fun hsw => absurd hsw h.2⟩

/-- No strobe is asserted outside `READ` and `WRITE`. -/
theorem StrobesOk.off {s : State} (h : StrobesOk s)
    (hx : s.es ≠ .busy ∨ s.due ≠ none ∨ s.rapop = .select ∨ s.rapop = .none) : StrobesOff s.lines := by
  constructor
  · intro hsr
    obtain ⟨hes, hd, hop, -⟩ := h.1 hsr
    simp [hes, hd, hop] at hx
  · intro hsw
    obtain ⟨hes, hd, hop, -⟩ := h.2 hsw
    simp [hes, hd, hop] at hx

/-- The read strobe is asserted in steps 4 to 6 of a read alone (41_register_access.md R125). -/
theorem StrobesOk.sr_off {s : State} (h : StrobesOk s)
    (hx : s.rapop ≠ .read ∨ ¬ (s.rstep = 4 ∨ s.rstep = 5 ∨ s.rstep = 6)) : s.lines.sr ≠ .one := by
  intro hsr
  obtain ⟨-, -, hread, hst⟩ := h.1 hsr
  exact hx.elim (· hread) (· hst)

/-- The write strobe is asserted in steps 3b and 3c of a write alone (41_register_access.md R130). -/
theorem StrobesOk.sw_off {s : State} (h : StrobesOk s)
    (hx : s.rapop ≠ .write ∨ ¬ (s.rstep = 32 ∨ s.rstep = 33)) : s.lines.sw ≠ .one := by
  intro hsw
  obtain ⟨-, -, hwrite, hst⟩ := h.2 hsw
  exact hx.elim (· hwrite) (· hst)

theorem StrobesOff.blur {l : Lines} (h : StrobesOff l) (g : GroupWrite) : StrobesOff (Lines.blur l g) := by
  obtain ⟨hsr, hsw⟩ := h
  cases g <;> simp [StrobesOff, Lines.blur, hsr, hsw]

/-! ## What a primitive does to the strobes -/

/-- Every state that the exchange comes to has no strobe asserted. -/
def Exchange.LeavesOff : Exchange → Prop
  | .silent => True
  | .ok u => StrobesOff u.lines
  | .err _ u => StrobesOff u.lines

section
variable {s : State}

theorem setLines_leavesOff {g : GroupWrite} (hd : StrobesOff (Lines.drive s.lines g))
    (hb : StrobesOff (Lines.blur s.lines g)) : (setLines g s).LeavesOff := by
  rcases setLines_cases g s with ⟨-, h⟩ | ⟨w, -, h⟩ | ⟨e, w, -, h⟩ <;> simp [h, Exchange.LeavesOff, hd, hb]

theorem setDir_leavesOff (h : StrobesOff s.lines) (i : BitVec 4) (c : DirCmd) : (setDir i c s).LeavesOff := by
  rcases setDir_cases i c s with ⟨-, hx⟩ | ⟨w, -, hx⟩ | ⟨e, w, -, hx⟩ <;> rw [hx]
  · trivial
  · exact h
  · exact h

theorem sleep_leavesOff (h : StrobesOff s.lines) (lo hi : Nat) : (sleep lo hi s).LeavesOff := by
  rcases sleep_cases lo hi s with ⟨-, hx⟩ | ⟨a, -, hx⟩ <;> simp [hx, Exchange.LeavesOff, h]

end

/-! ## What a step of a RAP function does to them -/

/-- The function goes on with a strobe asserted only where it pulses it, and returns with neither asserted. -/
def RapStep.KeepsStrobes : RapStep → Prop
  | .silent => True
  | .more u => StrobesOk u
  | .ok u => StrobesOff u.lines
  | .err _ u => StrobesOff u.lines
  | .stray => True

theorem thenMore_keepsStrobes {x : Exchange} {next : State → State} (hx : x.LeavesOff)
    (hn : ∀ u, (next u).lines = u.lines) : (x.thenMore next).KeepsStrobes := by
  cases x with
  | silent => trivial
  | ok u => exact StrobesOff.ok (by rw [hn]; exact hx)
  | err e u => exact hx

theorem thenOk_keepsStrobes {x : Exchange} (hx : x.LeavesOff) : x.thenOk.KeepsStrobes := by
  cases x <;> exact hx

theorem nextLine_lines {next : State → State} (hn : ∀ u, (next u).lines = u.lines) (u : State) :
    (State.nextLine next u).lines = u.lines := by
  unfold State.nextLine
  split
  · exact hn u
  · rfl

theorem rapSelect_keepsStrobes {s : State} (h : StrobesOff s.lines) (r : RegIdx) {next : State → State}
    (hn : ∀ u, (next u).lines = u.lines) : (rapSelect r next s).KeepsStrobes := by
  unfold rapSelect
  split
  · exact thenMore_keepsStrobes (setLines_leavesOff h (h.blur _)) fun _ => rfl
  · exact thenMore_keepsStrobes (setLines_leavesOff h (h.blur _)) hn
  · trivial

/-! ### The read strobe, asserted from step 4 to step 6 (41_register_access.md R125) -/

section
variable {s : State} (hes : s.es = .busy) (hd : s.due = none) (hsw : s.lines.sw ≠ .one)
include hes hd hsw

/-- In steps 4 to 6 of a read the read strobe may be asserted. -/
theorem strobesOk_reading (hop : s.rapop = .read) (hst : s.rstep = 4 ∨ s.rstep = 5 ∨ s.rstep = 6) : StrobesOk s :=
  ⟨fun _ => ⟨hes, hd, hop, hst⟩, fun h => absurd h hsw⟩

theorem readAssert_keepsStrobes : (readAssert s).KeepsStrobes := by
  unfold readAssert
  rcases setLines_cases (.sr strobeOn) s with ⟨-, hx⟩ | ⟨w, -, hx⟩ | ⟨e, w, -, hx⟩ <;> rw [hx]
  · trivial
  · exact strobesOk_reading (by simpa) (by simpa) (by simpa [Lines.drive]) rfl (Or.inl rfl)
  · exact strobesOk_reading (by simpa) (by simpa) (by simpa [Lines.blur]) rfl (Or.inr (Or.inr rfl))

theorem readPulse_keepsStrobes :
    ((sleep strobeMinUs strobeMaxUs s).thenMore fun t => t.atStep .read 5).KeepsStrobes := by
  rcases sleep_cases strobeMinUs strobeMaxUs s with ⟨-, hx⟩ | ⟨a, -, hx⟩ <;> rw [hx]
  · trivial
  · exact strobesOk_reading (by simpa) (by simpa) (by simpa) rfl (Or.inr (Or.inl rfl))

theorem readSample_keepsStrobes : (readSample s).KeepsStrobes := by
  unfold readSample
  rcases getLines_cases s with ⟨-, hx⟩ | ⟨w, -, hx⟩ | ⟨e, w, -, hx⟩ <;> rw [hx]
  · trivial
  · exact strobesOk_reading (by simpa) (by simpa) (by simpa) rfl (Or.inr (Or.inr rfl))
  · exact strobesOk_reading (by simpa) (by simpa) (by simpa) rfl (Or.inr (Or.inr rfl))

omit hes hd in
theorem readDeassert_keepsStrobes : (readDeassert s).KeepsStrobes := by
  have hx : (setLines (.sr strobeOff) s).LeavesOff :=
    setLines_leavesOff ⟨by simp [Lines.drive, strobeLevel, strobeOff, triOut], hsw⟩ ⟨by simp [Lines.blur], hsw⟩
  unfold readDeassert
  split <;> rename_i heq <;> rw [heq] at hx
  · trivial
  · split <;> exact hx
  · split <;> exact hx

end

theorem rapRead_keepsStrobes {s : State} (hes : s.es = .busy) (hd : s.due = none) (h : StrobesOk s) (r : RegIdx) :
    (rapRead r s).KeepsStrobes := by
  unfold rapRead
  split
  · rename_i hop
    have hsw : s.lines.sw ≠ .one := h.sw_off (Or.inl (by simp [hop]))
    split
    · rename_i hst
      have hoff : StrobesOff s.lines := ⟨h.sr_off (Or.inr (by simp [hst])), hsw⟩
      exact thenMore_keepsStrobes (setDir_leavesOff hoff _ _) (nextLine_lines fun _ => rfl)
    · exact readAssert_keepsStrobes hes hd hsw
    · exact readPulse_keepsStrobes hes hd hsw
    · exact readSample_keepsStrobes hes hd hsw
    · exact readDeassert_keepsStrobes hsw
    · trivial
  · rename_i hop
    exact rapSelect_keepsStrobes (h.off (by simp [hop])) r fun _ => rfl
  · trivial
  · trivial

/-! ### The write strobe, asserted in steps 3b and 3c (41_register_access.md R130) -/

section
variable {s : State} (hes : s.es = .busy) (hd : s.due = none) (hsr : s.lines.sr ≠ .one)
include hes hd hsr

/-- In steps 3b and 3c of a write the write strobe may be asserted. -/
theorem strobesOk_writing (hop : s.rapop = .write) (hst : s.rstep = 32 ∨ s.rstep = 33) : StrobesOk s :=
  ⟨fun h => absurd h hsr, fun _ => ⟨hes, hd, hop, hst⟩⟩

theorem writeAssert_keepsStrobes :
    ((setLines (.sw strobeOn) s).thenMore fun t => t.atStep .write 32).KeepsStrobes := by
  rcases setLines_cases (.sw strobeOn) s with ⟨-, hx⟩ | ⟨w, -, hx⟩ | ⟨e, w, -, hx⟩ <;> rw [hx]
  · trivial
  · exact strobesOk_writing (by simpa) (by simpa) (by simpa [Lines.drive]) rfl (Or.inl rfl)
  · exact ⟨hsr, by simp [Lines.blur]⟩

theorem writePulse_keepsStrobes :
    ((sleep strobeMinUs strobeMaxUs s).thenMore fun t => t.atStep .write 33).KeepsStrobes := by
  rcases sleep_cases strobeMinUs strobeMaxUs s with ⟨-, hx⟩ | ⟨a, -, hx⟩ <;> rw [hx]
  · trivial
  · exact strobesOk_writing (by simpa) (by simpa) (by simpa) rfl (Or.inr rfl)

omit hes hd in
theorem writeDeassert_keepsStrobes :
    ((setLines (.sw strobeOff) s).thenMore fun t => t.atStep .write 34).KeepsStrobes :=
  thenMore_keepsStrobes
    (setLines_leavesOff ⟨hsr, by simp [Lines.drive, strobeLevel, strobeOff, triOut]⟩ ⟨hsr, by simp [Lines.blur]⟩)
    fun _ => rfl

end

theorem writeReturn_keepsStrobes {s : State} (h : StrobesOff s.lines) : (writeReturn s).KeepsStrobes := by
  unfold writeReturn
  split
  · exact thenOk_keepsStrobes (setDir_leavesOff h _ _)
  · exact thenMore_keepsStrobes (setDir_leavesOff h _ _) fun _ => rfl

theorem rapWrite_keepsStrobes {s : State} (hes : s.es = .busy) (hd : s.due = none) (h : StrobesOk s) (r : RegIdx)
    (v : Word) : (rapWrite r v s).KeepsStrobes := by
  unfold rapWrite
  split
  · rename_i hop
    exact rapSelect_keepsStrobes (h.off (by simp [hop])) r fun _ => rfl
  · rename_i hop
    have hsr : s.lines.sr ≠ .one := h.sr_off (Or.inl (by simp [hop]))
    have hoff (hst : ¬ (s.rstep = 32 ∨ s.rstep = 33)) : StrobesOff s.lines := ⟨hsr, h.sw_off (Or.inr hst)⟩
    split
    · rename_i hst
      exact thenMore_keepsStrobes (setDir_leavesOff (hoff (by simp [hst])) _ _) (nextLine_lines fun _ => rfl)
    · exact writeAssert_keepsStrobes hes hd hsr
    · exact writePulse_keepsStrobes hes hd hsr
    · exact writeDeassert_keepsStrobes hsr
    · rename_i hst
      exact thenMore_keepsStrobes (sleep_leavesOff (hoff (by simp [hst])) _ _) fun _ => rfl
    · rename_i hst
      exact writeReturn_keepsStrobes (hoff (by simp [hst]))
    · trivial
  · trivial
  · trivial

/-! ## The engine's steps -/

/-- What the Sequencer does between two primitives moves no line. -/
theorem strobesOk_of_outcome {x : RapStep} {s t : State} {onOk : State → State} (h : StrobesOk s)
    (hx : x.KeepsStrobes) (hk : ∀ u, Between u (onOk u)) (ht : x.outcome s onOk = .next t) : StrobesOk t := by
  rcases outcome_cases ht with ⟨-, rfl⟩ | ⟨u, rfl, rfl⟩ | ⟨u, rfl, rfl⟩ | ⟨e, u, rfl, rfl⟩
  · exact h
  · exact hx
  · exact StrobesOff.ok (by rw [(hk u).lines]; exact hx)
  · exact StrobesOff.ok hx

theorem strobesOk_of_awaitSleep {s t : State} (h : StrobesOff s.lines) (ht : awaitSleep s = .next t) : StrobesOk t := by
  unfold awaitSleep at ht
  split at ht
  all_goals
    refine strobesOk_of_outcome h.ok ?_ Between.refl ht
    exact thenMore_keepsStrobes (sleep_leavesOff h _ _) fun _ => rfl

section
variable {s t : State} (hes : s.es = .busy) (hd : s.due = none) (h : StrobesOk s)
include hes hd h

theorem strobesOk_of_identifyStep (ht : identifyStep s = .next t) : StrobesOk t := by
  have hread := rapRead_keepsStrobes hes hd h
  have hwrite := rapWrite_keepsStrobes hes hd h
  unfold identifyStep at ht
  split at ht
  · exact strobesOk_of_outcome h (hwrite _ _) between_afterSelectDrive ht
  · exact strobesOk_of_outcome h (hwrite _ _) between_afterClear ht
  · exact strobesOk_of_outcome h (hwrite _ _) between_afterCommand ht
  · exact strobesOk_of_outcome h (hread _) between_afterPresence ht
  · split at ht
    · rename_i hop
      exact strobesOk_of_awaitSleep (h.off (by simp [hop])) ht
    · split at ht
      · simp at ht
      · exact strobesOk_of_outcome h (hread _) between_afterPoll ht
  · split at ht
    · exact strobesOk_of_outcome h (hread _) between_afterData ht
    · simp at ht
  · simp at ht

theorem strobesOk_of_work {i : Instr} (ht : workOf i s = .next t) : StrobesOk t := by
  cases i with
  | rdreg reg => exact strobesOk_of_outcome h (rapRead_keepsStrobes hes hd h reg) (fun _ => between_owe _ _) ht
  | wrreg reg value =>
    exact strobesOk_of_outcome h (rapWrite_keepsStrobes hes hd h reg value) (fun _ => between_owe _ _) ht
  | identFix => exact strobesOk_of_identifyStep hes hd h ht
  | identPoll => exact strobesOk_of_identifyStep hes hd h ht

end

@[simp] theorem reinit_params (s : State) (c : GroupClaim) : (s.reinit c).params = s.params := by simp [State.reinit]
@[simp] theorem beginOf_params (i : Instr) (s : State) : (beginOf i s).params = s.params := by cases i <;> rfl

theorem step_params {s t : State} (ht : step s = .next t) : t.params = s.params := by
  obtain ⟨-, ⟨-, -, rfl⟩ | ⟨-, rfl⟩ | ⟨c, rest, -, rfl⟩ | ⟨w, rest, -, -, -, rfl⟩ | ⟨w, rest, -, -, -, rfl⟩ |
    ⟨w, rest, i, -, -, -, rfl⟩ | ⟨r, -, -, rfl⟩ | ⟨i, -, hw⟩ | ⟨i, -, -, -, -, rfl⟩⟩ := step_cases ht
  case inr.inr.inr.inr.inr.inr.inr.inl => exact (work_frame hw).params -- the request in service
  all_goals simp

/-- Of the ways of `step_cases`, only a reinit and the request in service move a strobe; the others keep the lines of a
state in which none is asserted. -/
theorem StrobesOk.step {s t : State} (hp : PlatformStrobesOff s.params) (h : StrobesOk s) (ht : step s = .next t) :
    StrobesOk t := by
  obtain ⟨-, ⟨hes, -, rfl⟩ | ⟨-, rfl⟩ | ⟨c, rest, -, rfl⟩ | ⟨w, rest, hes, -, -, rfl⟩ |
    ⟨w, rest, ⟨hes, -⟩, -, -, rfl⟩ | ⟨w, rest, i, ⟨hes, -⟩, -, -, rfl⟩ | ⟨r, -, hd, rfl⟩ | ⟨i, hs, hw⟩ |
    ⟨i, -, -, -, -, rfl⟩⟩ := step_cases ht
  · -- the configuration check
    have hoff : StrobesOff s.lines := h.off (by simp [hes])
    exact StrobesOff.ok (by simpa using hoff)
  · exact h
  · -- a reinit
    exact StrobesOff.ok (by simpa using (platformStrobesOff_iff _).mp hp)
  · exact StrobesOff.ok (h.off (by simp [hes]))
  · exact StrobesOff.ok (h.off (by simp [hes]))
  · -- an acceptance
    have hoff : StrobesOff s.lines := h.off (by simp [hes])
    exact StrobesOff.ok (by simpa using hoff)
  · -- a delivery
    exact StrobesOff.ok (h.off (by simp [hd]))
  · -- the request in service
    obtain ⟨-, hes, -, hd⟩ := hs
    exact strobesOk_of_work hes hd h hw
  · exact h

/-- Settles O56: every step keeps the strobes off outside their pulses (`StrobesOk.step`), and the parameters
(`step_params`). -/
theorem strobesOnlyPulse : Obligations.StrobesOnlyPulse :=
  fun _ _ hp h ht => ⟨by rwa [step_params ht], h.step hp ht⟩

end Sys2Proof.Machine
end
